-- ==== Sys2Proof/Word.lean ====
section
/-! DEFINITION. The word types of the hardware (spec/00_scope.md R8, R16; spec/30_encoding.md R93). -/

namespace Sys2Proof

/-- A byte: a general register, a memory cell, a timer, the immediate `kk` (R16 "Word", conflict C7). -/
abbrev Byte := BitVec 8

/-- A 16-bit value: an instruction word, the program counter, a call-stack entry (R23, R27, R90). -/
abbrev Word16 := BitVec 16

/-- A 12-bit memory address `0 .. 4095`: the immediate `nnn`, the index register (R16, R25). -/
abbrev Address := BitVec 12

/-- The number of a general register, `0 .. 15` (R16). -/
abbrev RegisterIndex := Fin 16

/-- A 4-bit count, `0 .. 15`: the sprite height `n` (R16, R93). -/
abbrev Nibble := Fin 16

/-- The number of a key, `0 .. 15` (R31). -/
abbrev KeyIndex := Fin 16

end Sys2Proof
end

