-- ==== Sys2Proof/Config.lean ====
section
/-! DEFINITION. What is fixed for a machine: the constants of R8, the record of the parameters that are constant
during a run (R9, R34), the types of the font and the time unit, and the free values of the model (opaque constants without
a body). The values that `State.reset` takes for the open parameters stand in Machine/Defaults.lean. -/

namespace Sys2Proof.Config

/-- `MEM_SIZE` (R8): valid addresses are `0 .. 4095`. -/
def memSize : Nat := 4096

/-- `FONT_STRIDE` (R8): bytes per glyph of the font region. -/
def fontStride : Nat := 5

/-- The free byte of the `k`-th call of `Cap.random()` that the host's tape does not answer (R208, R288, D26): no value of
it can be proved. DESIGN CHOICE of form, log 7; safe. -/
opaque freeRandomByte : Nat → Byte

/-- The free value of `last_key` after the `k`-th key release (R287, D27, U22: "any value of `last_key` after a
key-up"): no value of it can be proved. Log 8; safe. -/
opaque freeLastKey : Nat → Option KeyIndex

end Sys2Proof.Config

namespace Sys2Proof

/-- `FONT` (R9): the 80 bytes of the font region, sixteen glyphs of `FONT_STRIDE` bytes each (R70, D5). -/
abbrev Font := Vector Byte 80

/-- `TIME_UNIT` (R9): the length of one unit of `duration`, `num / den` seconds. -/
structure TimeUnit where
  /-- numerator of the length in seconds -/
  num : Nat
  /-- denominator of the length in seconds -/
  den : Nat
  deriving DecidableEq, Repr

/-- The parameters of R9 that are fixed when the machine is created and constant during a run (R34): the size of the
screen, the time unit and the three scheduler periods counted in it. They are held in State, so that every statement about
all states is about all parameters. -/
structure Params where
  /-- `SCREEN_W`, columns of the frame buffer -/
  screenW : Nat
  /-- `SCREEN_H`, rows of the frame buffer -/
  screenH : Nat
  /-- `TIME_UNIT`, what the periods and every `duration` are counted in; no rule computes with it (R251) -/
  timeUnit : TimeUnit
  /-- `P_I`, the instruction cadence -/
  periodI : Nat
  /-- `P_D`, the delay-timer cadence -/
  periodD : Nat
  /-- `P_S`, the sound-timer cadence -/
  periodS : Nat
  deriving DecidableEq, Repr

end Sys2Proof
end

