-- ==== Sys2Proof/Syntax.lean ====
section
/-! DEFINITION. The instructions: one constructor per row of spec/opcode_table.json, in the table's order, each carrying
exactly the operands of its format (spec/30_encoding.md R92, R96, R104). -/

namespace Sys2Proof

/-- The Operation type of R104. The number in each docstring is the operation id of R96. -/
inductive Instr where
  /-- 0 `CLS` `00E0` -/
  | cls
  /-- 1 `RET` `00EE` -/
  | ret
  /-- 2 `JP nnn` `1nnn` -/
  | jp (nnn : Address)
  /-- 3 `CALL nnn` `2nnn` -/
  | call (nnn : Address)
  /-- 4 `SE Vx,kk` `3xkk` -/
  | seImm (x : RegisterIndex) (kk : Byte)
  /-- 5 `SNE Vx,kk` `4xkk` -/
  | sneImm (x : RegisterIndex) (kk : Byte)
  /-- 6 `SE Vx,Vy` `5xy0` -/
  | seReg (x y : RegisterIndex)
  /-- 7 `LD Vx,kk` `6xkk` -/
  | ldImm (x : RegisterIndex) (kk : Byte)
  /-- 8 `ADD Vx,kk` `7xkk` -/
  | addImm (x : RegisterIndex) (kk : Byte)
  /-- 9 `LD Vx,Vy` `8xy0` -/
  | ldReg (x y : RegisterIndex)
  /-- 10 `OR Vx,Vy` `8xy1` -/
  | orReg (x y : RegisterIndex)
  /-- 11 `AND Vx,Vy` `8xy2` -/
  | andReg (x y : RegisterIndex)
  /-- 12 `XOR Vx,Vy` `8xy3` -/
  | xorReg (x y : RegisterIndex)
  /-- 13 `ADD Vx,Vy` `8xy4` -/
  | addReg (x y : RegisterIndex)
  /-- 14 `SUB Vx,Vy` `8xy5` -/
  | sub (x y : RegisterIndex)
  /-- 15 `SHR Vx,Vy` `8xy6` -/
  | shr (x y : RegisterIndex)
  /-- 16 `SUBN Vx,Vy` `8xy7` -/
  | subn (x y : RegisterIndex)
  /-- 17 `SHL Vx,Vy` `8xyE` -/
  | shl (x y : RegisterIndex)
  /-- 18 `SNE Vx,Vy` `9xy0` -/
  | sneReg (x y : RegisterIndex)
  /-- 19 `LD I,nnn` `Annn` -/
  | ldI (nnn : Address)
  /-- 20 `JP V0,nnn` `Bnnn` -/
  | jpV0 (nnn : Address)
  /-- 21 `RND Vx,kk` `Cxkk` -/
  | rnd (x : RegisterIndex) (kk : Byte)
  /-- 22 `DRW Vx,Vy,n` `Dxyn` -/
  | drw (x y : RegisterIndex) (n : Nibble)
  /-- 23 `SKP Vx` `Ex9E` -/
  | skp (x : RegisterIndex)
  /-- 24 `SKNP Vx` `ExA1` -/
  | sknp (x : RegisterIndex)
  /-- 25 `LD Vx,DT` `Fx07` -/
  | ldVxDT (x : RegisterIndex)
  /-- 26 `LD Vx,K` `Fx0A` -/
  | ldVxK (x : RegisterIndex)
  /-- 27 `LD DT,Vx` `Fx15` -/
  | ldDTVx (x : RegisterIndex)
  /-- 28 `LD ST,Vx` `Fx18` -/
  | ldSTVx (x : RegisterIndex)
  /-- 29 `ADD I,Vx` `Fx1E` -/
  | addI (x : RegisterIndex)
  /-- 30 `LD F,Vx` `Fx29` -/
  | ldF (x : RegisterIndex)
  /-- 31 `LD B,Vx` `Fx33` -/
  | ldB (x : RegisterIndex)
  /-- 32 `LD [I],Vx` `Fx55` -/
  | storeRegs (x : RegisterIndex)
  /-- 33 `LD Vx,[I]` `Fx65` -/
  | loadRegs (x : RegisterIndex)
  deriving DecidableEq, Repr

end Sys2Proof
end

