-- ==== Sys2Proof/WellFormed.lean ====
section
/-! DEFINITION. Well-formedness. The operand types of Instr are exact, so an Instr with an operand out of range cannot be
built, and `Instr.wf` is true of every Instr (Laws/PerInstr.lean): that is R94, "operand validation never fails". What CAN
be ill-formed is a raw number offered as an operand (the "validated conversion from raw bits" of R16, R94), a set of
parameters (R9, R251), a font (R9), and an image (R69, R352): those have the checks that refuse. -/

namespace Sys2Proof

/-- Validated conversion to a register index: `[0, 16)` (R16, R94). -/
def RegisterIndex.ofRaw (n : Nat) : Option RegisterIndex :=
  if h : n < 16 then some ⟨n, h⟩ else none

/-- Validated conversion to a nibble: `[0, 16)` (R16, R94). -/
def Nibble.ofRaw (n : Nat) : Option Nibble :=
  if h : n < 16 then some ⟨n, h⟩ else none

/-- Validated conversion to a key index: at most 15 (R31, R315). -/
def KeyIndex.ofRaw (n : Nat) : Option KeyIndex :=
  if h : n < 16 then some ⟨n, h⟩ else none

/-- Validated conversion to a byte: `0 .. 255` (R93). -/
def Byte.ofRaw (n : Nat) : Option Byte :=
  if n < 256 then some (BitVec.ofNat 8 n) else none

/-- Validated conversion to an address: `[0, MEM_SIZE)`, "always < memory size" (R16, R63). -/
def Address.ofRaw (n : Nat) : Option Address :=
  if n < Config.memSize then some (BitVec.ofNat 12 n) else none

/-- Every operand of the instruction is in the range of its field (R93, R104). -/
def Instr.wf : Instr → Bool
  | .cls | .ret => true
  | .jp nnn | .call nnn | .ldI nnn | .jpV0 nnn => decide (nnn.toNat < Config.memSize)
  | .seImm x kk | .sneImm x kk | .ldImm x kk | .addImm x kk | .rnd x kk =>
    decide (x.val < 16) && decide (kk.toNat < 256)
  | .seReg x y | .ldReg x y | .orReg x y | .andReg x y | .xorReg x y | .addReg x y | .sub x y
  | .shr x y | .subn x y | .shl x y | .sneReg x y => decide (x.val < 16) && decide (y.val < 16)
  | .drw x y n => decide (x.val < 16) && decide (y.val < 16) && decide (n.val < 16)
  | .skp x | .sknp x | .ldVxDT x | .ldVxK x | .ldDTVx x | .ldSTVx x | .addI x | .ldF x | .ldB x
  | .storeRegs x | .loadRegs x => decide (x.val < 16)

/-- The three periods are at least 1: "a period of 0 is not admitted" (R251, U10). -/
def Params.periodsWf (p : Params) : Bool :=
  decide (1 ≤ p.periodI) && decide (1 ≤ p.periodD) && decide (1 ≤ p.periodS)

/-- A time unit is admitted: it is a positive length of time (R9, R251). -/
def TimeUnit.wf (u : TimeUnit) : Bool := decide (1 ≤ u.num) && decide (1 ≤ u.den)

/-- The parameters are admitted: a screen of positive size, a time unit of positive length and periods of at least 1 (R9,
R251). -/
def Params.wf (p : Params) : Bool :=
  decide (1 ≤ p.screenW) && decide (1 ≤ p.screenH) && p.timeUnit.wf && p.periodsWf

/-- Validated conversion to a font: exactly 80 bytes (R9). -/
def Font.ofRaw (bytes : List Byte) : Option Font :=
  if h : bytes.toArray.size = 80 then some ⟨bytes.toArray, h⟩ else none

/-- An image is admitted: its entry address can be fetched from and its payload fits (R69, R352). -/
def imageWf (entry : Nat) (payload : List Byte) : Bool :=
  decide (entry ≤ 4094) && decide (entry + payload.length ≤ Config.memSize)

end Sys2Proof
end

