-- ==== Sys2Proof/Decode.lean ====
section
/-! DEFINITION. The decoder block (spec/30_encoding.md R90 to R104): fields, decode, the signals of its hardware rendering,
the opcode map as a table of match and mask, decoding of bytes, and the encoder. -/

namespace Sys2Proof

/-! ## Fields (R91; R12 `w[hi:lo]`) -/

/-- `w[hi:lo]`: the unsigned value of bits `hi` down to `lo` (R12). -/
def field (w : Word16) (hi lo : Nat) : Nat := w.toNat / 2 ^ lo % 2 ^ (hi - lo + 1)

/-- `n3 = w[15:12]`, the major opcode. -/
def fieldN3 (w : Word16) : Nat := field w 15 12

/-- `x = n2 = w[11:8]`. -/
def fieldX (w : Word16) : RegisterIndex := Fin.ofNat 16 (field w 11 8)

/-- `y = n1 = w[7:4]`. -/
def fieldY (w : Word16) : RegisterIndex := Fin.ofNat 16 (field w 7 4)

/-- `n = n0 = w[3:0]`. -/
def fieldN (w : Word16) : Nibble := Fin.ofNat 16 (field w 3 0)

/-- `kk = nn = w[7:0]`. -/
def fieldKK (w : Word16) : Byte := BitVec.ofNat 8 (field w 7 0)

/-- `nnn = w[11:0]`. -/
def fieldNNN (w : Word16) : Address := BitVec.ofNat 12 (field w 11 0)

/-! ## The decoder (R95, R96, R98, R103) -/

/-- Why bytes are not an instruction. -/
inductive DecodeError where
  /-- The word matches no row of the opcode map; it carries the raw word (R102). -/
  | unknownOpcode (w : Word16)
  /-- Fewer than the two bytes of an instruction word were given (R90); the engine's fetch always gives two. -/
  | truncated
  deriving DecidableEq, Repr

/-- The eight-group of the map: `n0` selects the ALU operation (R98). -/
def decode8 (w : Word16) : Except DecodeError Instr :=
  match (fieldN w).val with
  | 0 => .ok (.ldReg (fieldX w) (fieldY w))
  | 1 => .ok (.orReg (fieldX w) (fieldY w))
  | 2 => .ok (.andReg (fieldX w) (fieldY w))
  | 3 => .ok (.xorReg (fieldX w) (fieldY w))
  | 4 => .ok (.addReg (fieldX w) (fieldY w))
  | 5 => .ok (.sub (fieldX w) (fieldY w))
  | 6 => .ok (.shr (fieldX w) (fieldY w))
  | 7 => .ok (.subn (fieldX w) (fieldY w))
  | 14 => .ok (.shl (fieldX w) (fieldY w))
  | _ => .error (.unknownOpcode w)

/-- The E-group of the map: `kk` is `9E` or `A1` (R98). -/
def decodeE (w : Word16) : Except DecodeError Instr :=
  match field w 7 0 with
  | 0x9E => .ok (.skp (fieldX w))
  | 0xA1 => .ok (.sknp (fieldX w))
  | _ => .error (.unknownOpcode w)

/-- The F-group of the map: `kk` is one of nine values (R98). -/
def decodeF (w : Word16) : Except DecodeError Instr :=
  match field w 7 0 with
  | 0x07 => .ok (.ldVxDT (fieldX w))
  | 0x0A => .ok (.ldVxK (fieldX w))
  | 0x15 => .ok (.ldDTVx (fieldX w))
  | 0x18 => .ok (.ldSTVx (fieldX w))
  | 0x1E => .ok (.addI (fieldX w))
  | 0x29 => .ok (.ldF (fieldX w))
  | 0x33 => .ok (.ldB (fieldX w))
  | 0x55 => .ok (.storeRegs (fieldX w))
  | 0x65 => .ok (.loadRegs (fieldX w))
  | _ => .error (.unknownOpcode w)

/-- The decoder: a total function of the word, high nibble first (R95, R98, R99, R103). -/
def decode (w : Word16) : Except DecodeError Instr :=
  match fieldN3 w with
  | 0 =>
    if w.toNat = 0x00E0 then .ok .cls
    else if w.toNat = 0x00EE then .ok .ret
    else .error (.unknownOpcode w)
  | 1 => .ok (.jp (fieldNNN w))
  | 2 => .ok (.call (fieldNNN w))
  | 3 => .ok (.seImm (fieldX w) (fieldKK w))
  | 4 => .ok (.sneImm (fieldX w) (fieldKK w))
  | 5 =>
    if (fieldN w).val = 0 then .ok (.seReg (fieldX w) (fieldY w)) else .error (.unknownOpcode w)
  | 6 => .ok (.ldImm (fieldX w) (fieldKK w))
  | 7 => .ok (.addImm (fieldX w) (fieldKK w))
  | 8 => decode8 w
  | 9 =>
    if (fieldN w).val = 0 then .ok (.sneReg (fieldX w) (fieldY w)) else .error (.unknownOpcode w)
  | 10 => .ok (.ldI (fieldNNN w))
  | 11 => .ok (.jpV0 (fieldNNN w))
  | 12 => .ok (.rnd (fieldX w) (fieldKK w))
  | 13 => .ok (.drw (fieldX w) (fieldY w) (fieldN w))
  | 14 => decodeE w
  | 15 => decodeF w
  | _ => .error (.unknownOpcode w)

/-! ## Bytes (R61, R90) -/

/-- The word of two bytes, high byte first: "16-bit big-endian words" (R61). -/
def wordOfBytes (hi lo : Byte) : Word16 := BitVec.ofNat 16 (hi.toNat * 256 + lo.toNat)

/-- The byte of a word at the lower address (R61). -/
def highByte (w : Word16) : Byte := BitVec.ofNat 8 (w.toNat / 256)

/-- The byte of a word at the higher address (R61). -/
def lowByte (w : Word16) : Byte := BitVec.ofNat 8 (w.toNat % 256)

/-- Decode the first instruction of a list of bytes and give the bytes after it. -/
def decodeBytes : List Byte → Except DecodeError (Instr × List Byte)
  | hi :: lo :: rest =>
    match decode (wordOfBytes hi lo) with
    | .ok i => .ok (i, rest)
    | .error e => .error e
  | _ => .error .truncated

/-- The word of a table row: bit 0 of `w` is the least significant bit of the one word an instruction has; every bit
above `nbits` is 0 (the host's numbering). -/
def tableWord (nbits w : Nat) : Option Word16 :=
  if w % 2 ^ nbits < 65536 then some (BitVec.ofNat 16 (w % 2 ^ nbits)) else none

/-- The instruction the decoder reads from an instruction whose bits are `w`, numbered as spec/opcode_table.json numbers
them: laid out as the hardware stores it, high byte first, and given to the byte decoder. -/
def decodeTableWord (nbits w : Nat) : Option Instr :=
  match tableWord nbits w with
  | none => none
  | some v =>
    match decodeBytes [highByte v, lowByte v] with
    | .ok (i, _) => some i
    | .error _ => none

/-! ## The encoder (R96, R104 "match | operand bits") -/

/-- The word of an instruction as a number: the row's match, with the operands in their fields. -/
def encodeNat : Instr → Nat
  | .cls => 0x00E0
  | .ret => 0x00EE
  | .jp nnn => 0x1000 + nnn.toNat
  | .call nnn => 0x2000 + nnn.toNat
  | .seImm x kk => 0x3000 + x.val * 256 + kk.toNat
  | .sneImm x kk => 0x4000 + x.val * 256 + kk.toNat
  | .seReg x y => 0x5000 + x.val * 256 + y.val * 16
  | .ldImm x kk => 0x6000 + x.val * 256 + kk.toNat
  | .addImm x kk => 0x7000 + x.val * 256 + kk.toNat
  | .ldReg x y => 0x8000 + x.val * 256 + y.val * 16
  | .orReg x y => 0x8001 + x.val * 256 + y.val * 16
  | .andReg x y => 0x8002 + x.val * 256 + y.val * 16
  | .xorReg x y => 0x8003 + x.val * 256 + y.val * 16
  | .addReg x y => 0x8004 + x.val * 256 + y.val * 16
  | .sub x y => 0x8005 + x.val * 256 + y.val * 16
  | .shr x y => 0x8006 + x.val * 256 + y.val * 16
  | .subn x y => 0x8007 + x.val * 256 + y.val * 16
  | .shl x y => 0x800E + x.val * 256 + y.val * 16
  | .sneReg x y => 0x9000 + x.val * 256 + y.val * 16
  | .ldI nnn => 0xA000 + nnn.toNat
  | .jpV0 nnn => 0xB000 + nnn.toNat
  | .rnd x kk => 0xC000 + x.val * 256 + kk.toNat
  | .drw x y n => 0xD000 + x.val * 256 + y.val * 16 + n.val
  | .skp x => 0xE09E + x.val * 256
  | .sknp x => 0xE0A1 + x.val * 256
  | .ldVxDT x => 0xF007 + x.val * 256
  | .ldVxK x => 0xF00A + x.val * 256
  | .ldDTVx x => 0xF015 + x.val * 256
  | .ldSTVx x => 0xF018 + x.val * 256
  | .addI x => 0xF01E + x.val * 256
  | .ldF x => 0xF029 + x.val * 256
  | .ldB x => 0xF033 + x.val * 256
  | .storeRegs x => 0xF055 + x.val * 256
  | .loadRegs x => 0xF065 + x.val * 256

/-- The word of an instruction (R104). -/
def encode (i : Instr) : Word16 := BitVec.ofNat 16 (encodeNat i)

/-- The two bytes of an instruction, the one at the lower address first (R61). -/
def encodeBytes (i : Instr) : List Byte := [highByte (encode i), lowByte (encode i)]

/-! ## The opcode map as a table (R96) and the signals of the block (R103) -/

/-- The operation id `0 .. 33` of R96, R104. -/
def Instr.opId : Instr → Nat
  | .cls => 0
  | .ret => 1
  | .jp _ => 2
  | .call _ => 3
  | .seImm _ _ => 4
  | .sneImm _ _ => 5
  | .seReg _ _ => 6
  | .ldImm _ _ => 7
  | .addImm _ _ => 8
  | .ldReg _ _ => 9
  | .orReg _ _ => 10
  | .andReg _ _ => 11
  | .xorReg _ _ => 12
  | .addReg _ _ => 13
  | .sub _ _ => 14
  | .shr _ _ => 15
  | .subn _ _ => 16
  | .shl _ _ => 17
  | .sneReg _ _ => 18
  | .ldI _ => 19
  | .jpV0 _ => 20
  | .rnd _ _ => 21
  | .drw _ _ _ => 22
  | .skp _ => 23
  | .sknp _ => 24
  | .ldVxDT _ => 25
  | .ldVxK _ => 26
  | .ldDTVx _ => 27
  | .ldSTVx _ => 28
  | .addI _ => 29
  | .ldF _ => 30
  | .ldB _ => 31
  | .storeRegs _ => 32
  | .loadRegs _ => 33

/-- One row of the opcode map: a word belongs to the row when `word && mask = pattern` (R95). -/
structure OpcodeRow where
  /-- the operation id -/
  opId : Nat
  /-- the column `match` of R96 -/
  pattern : Word16
  /-- the column `mask` of R96 -/
  mask : Word16
  deriving DecidableEq, Repr

/-- The row accepts the word (R95). -/
def OpcodeRow.accepts (r : OpcodeRow) (w : Word16) : Bool := (w &&& r.mask) == r.pattern

/-- Rows 0 to 8 of R96. -/
def opcodeRowsLow : List OpcodeRow :=
  [⟨0, 0x00E0#16, 0xFFFF#16⟩, ⟨1, 0x00EE#16, 0xFFFF#16⟩, ⟨2, 0x1000#16, 0xF000#16⟩, ⟨3, 0x2000#16, 0xF000#16⟩,
   ⟨4, 0x3000#16, 0xF000#16⟩, ⟨5, 0x4000#16, 0xF000#16⟩, ⟨6, 0x5000#16, 0xF00F#16⟩, ⟨7, 0x6000#16, 0xF000#16⟩,
   ⟨8, 0x7000#16, 0xF000#16⟩]

/-- Rows 9 to 22 of R96. -/
def opcodeRowsMid : List OpcodeRow :=
  [⟨9, 0x8000#16, 0xF00F#16⟩, ⟨10, 0x8001#16, 0xF00F#16⟩, ⟨11, 0x8002#16, 0xF00F#16⟩, ⟨12, 0x8003#16, 0xF00F#16⟩,
   ⟨13, 0x8004#16, 0xF00F#16⟩, ⟨14, 0x8005#16, 0xF00F#16⟩, ⟨15, 0x8006#16, 0xF00F#16⟩, ⟨16, 0x8007#16, 0xF00F#16⟩,
   ⟨17, 0x800E#16, 0xF00F#16⟩, ⟨18, 0x9000#16, 0xF00F#16⟩, ⟨19, 0xA000#16, 0xF000#16⟩, ⟨20, 0xB000#16, 0xF000#16⟩,
   ⟨21, 0xC000#16, 0xF000#16⟩, ⟨22, 0xD000#16, 0xF000#16⟩]

/-- Rows 23 to 33 of R96. -/
def opcodeRowsHigh : List OpcodeRow :=
  [⟨23, 0xE09E#16, 0xF0FF#16⟩, ⟨24, 0xE0A1#16, 0xF0FF#16⟩, ⟨25, 0xF007#16, 0xF0FF#16⟩, ⟨26, 0xF00A#16, 0xF0FF#16⟩,
   ⟨27, 0xF015#16, 0xF0FF#16⟩, ⟨28, 0xF018#16, 0xF0FF#16⟩, ⟨29, 0xF01E#16, 0xF0FF#16⟩, ⟨30, 0xF029#16, 0xF0FF#16⟩,
   ⟨31, 0xF033#16, 0xF0FF#16⟩, ⟨32, 0xF055#16, 0xF0FF#16⟩, ⟨33, 0xF065#16, 0xF0FF#16⟩]

/-- The complete opcode map, 34 rows (R96). -/
def opcodeMap : List OpcodeRow := opcodeRowsLow ++ opcodeRowsMid ++ opcodeRowsHigh

/-- The signals of the hardware rendering of the decoder (R103; names by D23). -/
structure DecoderSignals where
  valid : Bool
  opId : BitVec 6
  x : BitVec 4
  y : BitVec 4
  n : BitVec 4
  kk : BitVec 8
  nnn : BitVec 12
  deriving DecidableEq, Repr

/-- The decoder as a combinational block: `valid` and `op_id` from the map, the operand outputs "simply the fields" of
the word (R103). When `valid` is 0 the spec gives `op_id` no meaning; the block answers 0 there (log 17). -/
def decoderSignals (w : Word16) : DecoderSignals :=
  { valid := opcodeMap.any (fun r => r.accepts w)
    opId := match opcodeMap.find? (fun r => r.accepts w) with
      | some r => BitVec.ofNat 6 r.opId
      | none => 0#6
    x := w.extractLsb' 8 4
    y := w.extractLsb' 4 4
    n := w.extractLsb' 0 4
    kk := w.extractLsb' 0 8
    nnn := w.extractLsb' 0 12 }

end Sys2Proof
end

