-- ==== Sys2Proof/Machine/Defaults.lean ====
section
/-! DEFINITION. The values `State.reset` takes for the parameters the spec leaves open (spec/00_scope.md R9), and the
60 Hz default of the two tick periods. No rule of the instruction set depends on them: every statement about all states holds for every value of them. -/

namespace Sys2Proof.Machine

/-- `ENTRY`, the default of R9 (D4; PRESUMED, log 1). -/
def defaultEntry : Address := 0x200#12

/-- `TIME_UNIT`, for which R9 has no default: 1/600 s (DESIGN CHOICE, log 5). -/
def defaultTimeUnit : TimeUnit := { num := 1, den := 600 }

/-- The number of time units in 1/60 s, the default of `P_D` and `P_S` (R9, R262), where that is a whole number of at least
1. Where it is not, there is no default: "the host must choose the rounding" (R262, U30), by giving the two periods. -/
def tickPeriod60Hz (u : TimeUnit) : Option Nat :=
  if u.den ≠ 0 ∧ u.den % (60 * u.num) = 0 then some (u.den / (60 * u.num)) else none

/-- `SCREEN_W`, `SCREEN_H` are the defaults of R9 (D3; PRESUMED, log 5). `P_D` and `P_S` are 10 time units, the 60 Hz default
of R262 in that unit (`defaultParams_ticks`); `P_I`, which has no default, is 1 unit (DESIGN CHOICE, log 5). -/
def defaultParams : Params :=
  { screenW := 64, screenH := 32, timeUnit := defaultTimeUnit, periodI := 1, periodD := 10, periodS := 10 }

end Sys2Proof.Machine
end

