-- ==== Sys2Proof/Machine/FrameBuffer.lean ====
section
/-! DEFINITION. The frame buffer as data: the list of the pixels that are on, in rising order of row and then column
(spec/10_state.md R30). -/

namespace Sys2Proof.Machine

/-- A pixel position: `px` counts columns from the left edge, `py` rows from the top edge (R30). -/
structure Pixel where
  px : Nat
  py : Nat
  deriving DecidableEq, Repr

/-- The order in which the pixels that are on are listed: by row, then by column. -/
def Pixel.before (p q : Pixel) : Bool :=
  decide (p.py < q.py) || (decide (p.py = q.py) && decide (p.px < q.px))

/-- `fb[py][px] = 1` for exactly the listed pixels (R30). -/
abbrev FrameBuffer := List Pixel

/-- `fb[py][px] = 1`. -/
def FrameBuffer.isOn (fb : FrameBuffer) (p : Pixel) : Bool := decide (p ∈ fb)

/-- Put a pixel into a rising list, before the first later one. -/
def FrameBuffer.insert (p : Pixel) : FrameBuffer → FrameBuffer
  | [] => [p]
  | q :: fb => if p.before q then p :: q :: fb else q :: FrameBuffer.insert p fb

/-- `fb[py][px] <- fb[py][px] ^ 1` (R282). -/
def FrameBuffer.toggle (fb : FrameBuffer) (p : Pixel) : FrameBuffer :=
  if fb.isOn p then fb.filter (fun q => q != p) else FrameBuffer.insert p fb

/-- The canonical form for a screen of `w` columns and `h` rows: strictly rising, every pixel on the screen. -/
def FrameBuffer.wf (w h : Nat) (fb : FrameBuffer) : Bool :=
  decide (fb.Pairwise (fun p q => p.before q = true)) &&
    fb.all (fun p => decide (p.px < w) && decide (p.py < h))

end Sys2Proof.Machine
end

