-- ==== Sys2Proof/Machine/Memory.lean ====
section
/-! DEFINITION. Memory as data: a list of (address, byte) cells in one canonical form, addresses strictly rising and no
cell equal to what an unlisted address reads as (spec/10_state.md R28; spec/20_memory.md R60, R69, R70). -/

namespace Sys2Proof.Machine

/-- The 4096-byte memory: the cells that differ from the reset contents. -/
abbrev Memory := List Host.Cell

/-- Glyphs `0` to `7` of the default font (R70; PRESUMED, log 3). -/
def fontLow : List Byte :=
  [0xF0#8, 0x90#8, 0x90#8, 0x90#8, 0xF0#8,  0x20#8, 0x60#8, 0x20#8, 0x20#8, 0x70#8,
   0xF0#8, 0x10#8, 0xF0#8, 0x80#8, 0xF0#8,  0xF0#8, 0x10#8, 0xF0#8, 0x10#8, 0xF0#8,
   0x90#8, 0x90#8, 0xF0#8, 0x10#8, 0x10#8,  0xF0#8, 0x80#8, 0xF0#8, 0x10#8, 0xF0#8,
   0xF0#8, 0x80#8, 0xF0#8, 0x90#8, 0xF0#8,  0xF0#8, 0x10#8, 0x20#8, 0x40#8, 0x40#8]

/-- Glyphs `8` to `F` of the default font (R70; PRESUMED, log 3). -/
def fontHigh : List Byte :=
  [0xF0#8, 0x90#8, 0xF0#8, 0x90#8, 0xF0#8,  0xF0#8, 0x90#8, 0xF0#8, 0x10#8, 0xF0#8,
   0xF0#8, 0x90#8, 0xF0#8, 0x90#8, 0x90#8,  0xE0#8, 0x90#8, 0xE0#8, 0x90#8, 0xE0#8,
   0xF0#8, 0x80#8, 0x80#8, 0x80#8, 0xF0#8,  0xE0#8, 0x90#8, 0x90#8, 0x90#8, 0xE0#8,
   0xF0#8, 0x80#8, 0xF0#8, 0x80#8, 0xF0#8,  0xF0#8, 0x80#8, 0xF0#8, 0x80#8, 0x80#8]

/-- The default of the parameter `FONT` (R9, R70; PRESUMED, log 3). -/
def defaultFont : Font := ⟨(fontLow ++ fontHigh).toArray, rfl⟩

/-- What an unlisted address reads as: the default `MEM0` with an empty payload, the default font at `0 .. 79` and
zero elsewhere (R69; log 3). -/
def Memory.unlisted (a : Nat) : Byte := (fontLow ++ fontHigh).getD a 0#8

/-- The byte at an address. -/
def Memory.read : Memory → Nat → Byte
  | [], a => Memory.unlisted a
  | c :: m, a => if c.1 = a then c.2 else Memory.read m a

/-- Put a cell into a rising list of cells, before the first larger address. -/
def Memory.insert (c : Host.Cell) : Memory → Memory
  | [] => [c]
  | d :: m => if c.1 < d.1 then c :: d :: m else d :: Memory.insert c m

/-- Drop what is listed for an address. -/
def Memory.erase (m : Memory) (a : Nat) : Memory := m.filter (fun c => c.1 != a)

/-- Store a byte at an address; writing what the address reads as when unlisted removes its cell. -/
def Memory.write (m : Memory) (a : Nat) (v : Byte) : Memory :=
  if v = Memory.unlisted a then Memory.erase m a else Memory.insert (a, v) (Memory.erase m a)

/-- Every cell lies in the address space and differs from what its address reads as when unlisted. -/
def Memory.cellsWf (m : Memory) : Bool :=
  m.all (fun c => decide (c.1 < Config.memSize) && (c.2 != Memory.unlisted c.1))

/-- The canonical form: addresses strictly rising, inside `0 .. 4095`, no cell redundant. -/
def Memory.wf (m : Memory) : Bool :=
  decide (m.Pairwise (fun c d => c.1 < d.1)) && Memory.cellsWf m

/-- Store a list of bytes at rising addresses (the loading of a payload, R69). -/
def Memory.writeList (m : Memory) (a : Nat) : List Byte → Memory
  | [] => m
  | v :: vs => Memory.writeList (Memory.write m a v) (a + 1) vs

/-- The default composition of `MEM0` (R69): `FONT` at `0 .. 79`, the payload from the entry address on, zero elsewhere. -/
def imageMemory (font : Font) (entry : Address) (payload : List Byte) : Memory :=
  Memory.writeList (Memory.writeList [] 0 font.toList) entry.toNat payload

end Sys2Proof.Machine
end

