-- ==== Sys2Proof/Machine/State.lean ====
section
/-! DEFINITION. The state of the machine as plain data (spec/10_state.md), the reasons a step can stop
(spec/60_exceptions.md), construction and reset (spec/70_reset_and_hazards.md R350). -/

namespace Sys2Proof.Machine

/-- The four recoverable errors, returned to the caller of a transaction (R310). -/
inductive ErrorKind where
  /-- The fetched word matches no row of the opcode map (R311). -/
  | unknownOpcode (w : Word16)
  /-- A `CALL` with 16 entries on the stack (R313). -/
  | stackOverflow
  /-- A `RET` with an empty stack (R314). -/
  | stackUnderflow
  /-- A key test with a register value above 15; it carries the byte (R315, D36). -/
  | invalidKey (k : Byte)
  deriving DecidableEq, Repr

/-- What a transaction hands to its caller, faults apart (R14). -/
inductive TxResult where
  /-- The transaction did what its rule says. -/
  | ok
  /-- The transaction ended in a recoverable error. -/
  | error (e : ErrorKind)
  deriving DecidableEq, Repr

/-- What the host may do between transactions, and the transactions it may choose (R3, R296, R299). -/
inductive HostMove where
  /-- `set_key_down(k)` (R296) -/
  | keyDown (k : KeyIndex)
  /-- `set_key_up(k)` (R296) -/
  | keyUp (k : KeyIndex)
  /-- one `execute_next()` (R230) -/
  | executeNext
  /-- one `advance(d)` of the scheduler (R252) -/
  | advance (d : Nat)
  deriving DecidableEq, Repr

/-- The state: CPU state, backend state, scheduler state, and the model's own fields (INVENTORY.md, State). -/
structure State where
  /-- `V0 .. VF`; `VF = V[15]` is the flag register (R20, R21) -/
  regs : Vector Byte 16
  /-- the index register `I` (R25) -/
  idx : Address
  /-- the program counter, held in 16 bits and never wrapped by a rule (R23) -/
  pc : Word16
  /-- the number of call-stack entries in use, `0 .. 16` (R27) -/
  sp : Fin 17
  /-- the call stack (R27) -/
  stack : Vector Word16 16
  /-- memory (R28) -/
  mem : Memory
  /-- the delay timer `DT` (R29) -/
  dt : Byte
  /-- the sound timer `ST` (R29) -/
  st : Byte
  /-- the frame buffer (R30) -/
  fb : FrameBuffer
  /-- the keypad, `true` = pressed (R31) -/
  keys : Vector Bool 16
  /-- the last-pressed key (R32) -/
  lastKey : Option KeyIndex
  /-- instruction countdown (R33) -/
  cI : Nat
  /-- delay-timer countdown (R33) -/
  cD : Nat
  /-- sound-timer countdown (R33) -/
  cS : Nat
  /-- screen size, time unit and periods, constant during a run (R9, R34) -/
  params : Params
  /-- MODEL: what the last transaction handed its caller (R14, R235; log 6) -/
  result : TxResult
  /-- MODEL: the moves the host makes next, oldest first (R3; log 4) -/
  hostMoves : List HostMove
  /-- MODEL: the bytes the host's random source answers next (R288, R297; log 7) -/
  randomTape : List Byte
  /-- MODEL: how many random bytes have been drawn (R208; log 7) -/
  randomDraws : Nat
  /-- MODEL: how many key releases have happened (R287, U22; log 8) -/
  keyUps : Nat
  deriving DecidableEq, Repr

/-- Why the machine stops in a fault: a situation the spec refuses to give a meaning (R318). -/
inductive Fault where
  /-- `AddressRange(a)`. Raised by instruction fetch, by a data access and by `SetI` when the address or the new index is
  above 4095 (R26, R63, R318). Safe: the model stops where the hardware may go on (D7, D8, D33; log 9). -/
  | addressRange (a : Nat)
  deriving DecidableEq, Repr

/-- Why the machine refuses to go on. -/
inductive Refusal where
  /-- Raised by `exec` for an instruction that has no meaning yet. Safe: the model stops. No arm uses it now. -/
  | notModelled (mnemonic : String)
  /-- Raised by `advance` when one of the three periods is 0, a configuration the spec does not admit (R251, U10: "refuse a
  period of 0"). Safe: the model stops. -/
  | zeroPeriod
  deriving DecidableEq, Repr

/-- The outcome of a transaction, an instruction or a step. -/
abbrev StepOutcome := Host.Outcome State Fault Refusal

/-- Construction of a fresh machine, which is what reset is (R350, R38): `pc = ENTRY`, memory `MEM0`, countdowns at their
periods (D19), everything else zero, clear, released or empty (D15, log 2). -/
def State.construct (p : Params) (entry : Address) (mem0 : Memory) : State :=
  { regs := Vector.replicate 16 0#8
    idx := 0#12
    pc := entry.setWidth 16
    sp := 0
    stack := Vector.replicate 16 0#16
    mem := mem0
    dt := 0#8
    st := 0#8
    fb := []
    keys := Vector.replicate 16 false
    lastKey := none
    cI := p.periodI
    cD := p.periodD
    cS := p.periodS
    params := p
    result := .ok
    hostMoves := []
    randomTape := []
    randomDraws := 0
    keyUps := 0 }

/-- Construction from an image (R350, R352), with every parameter of R9 an argument: `SCREEN_W`, `SCREEN_H`, `TIME_UNIT`, `P_I`,
`P_D` and `P_S` in `p`, and `FONT`, `ENTRY` and the payload, which compose `MEM0` (R69). -/
def State.ofImage (p : Params) (font : Font) (entry : Address) (payload : List Byte) : State :=
  State.construct p entry (imageMemory font entry payload)

/-- The machine right after reset, with the parameters of Machine/Defaults.lean, the default font and no payload (R38, R350;
`reset_eq_ofImage`). -/
def State.reset : State := State.construct defaultParams defaultEntry []

end Sys2Proof.Machine
end

