-- ==== Sys2Proof/Machine/Ops.lean ====
section
/-! DEFINITION. The named operations over registers, index register, memory, stack and pc, the ways an instruction ends
(spec/00_scope.md R13), and the one shared operation for an error (spec/60_exceptions.md R316, R319). -/

namespace Sys2Proof.Machine

/-! ## Updates of one piece of state -/

/-- `V[i] <- v` (R13, R20). -/
def State.setV (s : State) (i : RegisterIndex) (v : Byte) : State :=
  { s with regs := s.regs.set i.val v i.isLt }

/-- The index register, already in range. -/
def State.setIdx (s : State) (a : Address) : State := { s with idx := a }

/-- `pc <- t`. -/
def State.setPc (s : State) (t : Word16) : State := { s with pc := t }

/-- The call stack and its pointer. -/
def State.setStack (s : State) (stack : Vector Word16 16) (sp : Fin 17) : State :=
  { s with stack := stack, sp := sp }

/-- Memory as a whole. -/
def State.setMem (s : State) (m : Memory) : State := { s with mem := m }

/-- The frame buffer as a whole. -/
def State.setFb (s : State) (fb : FrameBuffer) : State := { s with fb := fb }

/-- `DT <- v`. -/
def State.setDT (s : State) (v : Byte) : State := { s with dt := v }

/-- `ST <- v`. -/
def State.setST (s : State) (v : Byte) : State := { s with st := v }

/-- `key[k] <- b`. -/
def State.setKey (s : State) (k : KeyIndex) (b : Bool) : State :=
  { s with keys := s.keys.set k.val b k.isLt }

/-- `last_key <- o`. -/
def State.setLastKey (s : State) (o : Option KeyIndex) : State := { s with lastKey := o }

/-- The three countdowns. -/
def State.setCountdowns (s : State) (i d t : Nat) : State := { s with cI := i, cD := d, cS := t }

/-- What the transaction hands its caller. -/
def State.setResult (s : State) (r : TxResult) : State := { s with result := r }

/-- The moves the host still makes. -/
def State.setHostMoves (s : State) (ms : List HostMove) : State := { s with hostMoves := ms }

/-- The host's random source after one draw. -/
def State.setRandom (s : State) (tape : List Byte) (draws : Nat) : State :=
  { s with randomTape := tape, randomDraws := draws }

/-- One more key release has happened. -/
def State.countKeyUp (s : State) : State := { s with keyUps := s.keyUps + 1 }

/-! ## Reads -/

/-- `V[i]` (R13, R20). -/
def State.V (s : State) (i : RegisterIndex) : Byte := s.regs[i.val]

/-- The byte at an address of memory, without a range check: what a reader of the memory sees there. -/
def State.byteAt (s : State) (a : Nat) : Byte := Memory.read s.mem a

/-! ## Accesses that can fault (R13, R26, R63) -/

/-- `MemRead(a, 1)` (R13). -/
def memRead (a : Nat) (s : State) : Except Fault Byte :=
  if a < Config.memSize then .ok (s.byteAt a) else .error (.addressRange a)

/-- `MemWrite(a, 1, v)` (R13). -/
def memWrite (a : Nat) (v : Byte) (s : State) : Except Fault State :=
  if a < Config.memSize then .ok (s.setMem (Memory.write s.mem a v)) else .error (.addressRange a)

/-- `MemRead(a, 2)`, big-endian, used by fetch only (R13, R61). -/
def memReadWord (a : Nat) (s : State) : Except Fault Word16 :=
  match memRead a s with
  | .error f => .error f
  | .ok hi =>
    match memRead (a + 1) s with
    | .error f => .error f
    | .ok lo => .ok (wordOfBytes hi lo)

/-- `SetI(v)` (R26). -/
def setI (v : Nat) (s : State) : Except Fault State :=
  if v ≤ 4095 then .ok (s.setIdx (BitVec.ofNat 12 v)) else .error (.addressRange v)

/-- The `n` bytes from address `a` on, in ascending order (R65). -/
def readBlock (a : Nat) : Nat → State → Except Fault (List Byte)
  | 0, _ => .ok []
  | n + 1, s =>
    match memRead a s with
    | .error f => .error f
    | .ok b =>
      match readBlock (a + 1) n s with
      | .error f => .error f
      | .ok bs => .ok (b :: bs)

/-- Store bytes from address `a` on, in ascending order (R65). -/
def storeBlock (a : Nat) : List Byte → State → Except Fault State
  | [], s => .ok s
  | v :: vs, s =>
    match memWrite a v s with
    | .error f => .error f
    | .ok s' => storeBlock (a + 1) vs s'

/-! ## Blocks of registers (R184, R185) -/

/-- `V[0], …, V[x]`. -/
def regsThrough (x : RegisterIndex) (s : State) : List Byte := s.regs.toList.take (x.val + 1)

/-- `V[i] <- v` for a number `i`, nothing for a number that is no register. -/
def setVNat (i : Nat) (v : Byte) (s : State) : State :=
  if h : i < 16 then s.setV ⟨i, h⟩ v else s

/-- `V[i], V[i+1], …` take the bytes in turn. -/
def setRegsFrom (i : Nat) : List Byte → State → State
  | [], s => s
  | v :: vs, s => setRegsFrom (i + 1) vs (setVNat i v s)

/-! ## The call stack (R27) -/

/-- Push a return address: `stack[sp] <- t; sp <- sp + 1`; none when the 16 entries are in use. -/
def pushReturn (t : Word16) (s : State) : Option State :=
  if h : s.sp.val < 16 then
    some (s.setStack (s.stack.set s.sp.val t h) ⟨s.sp.val + 1, by omega⟩)
  else none

/-- Pop a return address: `sp <- sp - 1`, then `stack[sp]`; none when the stack is empty. -/
def popReturn (s : State) : Option (Word16 × State) :=
  if h : s.sp.val = 0 then none
  else some (s.stack[s.sp.val - 1]'(by omega), s.setStack s.stack ⟨s.sp.val - 1, by omega⟩)

/-! ## How an instruction ends (R13, R24, R233) -/

/-- The last statement of a rule: `pc <- t`, and the transaction returns `ok`. -/
def jumpTo (t : Word16) (s : State) : StepOutcome := .next ((s.setPc t).setResult .ok)

/-- `next()`: `pc <- pc + 2`. -/
def nextPc (s : State) : StepOutcome := jumpTo (s.pc + 2#16) s

/-- `skip()`: `pc <- pc + 4`. -/
def skipPc (s : State) : StepOutcome := jumpTo (s.pc + 4#16) s

/-- `if c then skip() else next()`. -/
def skipIf (c : Bool) (s : State) : StepOutcome := if c then skipPc s else nextPc s

/-- The transaction returns `ok` with `pc` where it is (the busy-wait of R204, R236). -/
def stayPc (s : State) : StepOutcome := jumpTo s.pc s

/-- Go on with the value of an access, or end in its fault. -/
def orFault {α : Type} (r : Except Fault α) (k : α → StepOutcome) : StepOutcome :=
  match r with
  | .ok a => k a
  | .error f => .fault f

/-! ## Errors: the one exception mechanism (R316, R319, R320)

Raising an error is a return to the caller: the hardware saves nothing, changes no mode, jumps nowhere; `pc` stays on
the failing instruction and no state changes. The value handed over is held in `result` (log 6). There is no return from
an error: the next transaction starts from the unchanged state and reads nothing of it (R235, R320). -/

/-- `raise error e`: the transaction ends with the recoverable error (R13, R316). -/
def raiseError (e : ErrorKind) (s : State) : StepOutcome := .next (s.setResult (.error e))

/-- The number of an error kind, `1 .. 4` (R310, D23). -/
def ErrorKind.code : ErrorKind → Nat
  | .unknownOpcode _ => 1
  | .stackOverflow => 2
  | .stackUnderflow => 3
  | .invalidKey _ => 4

end Sys2Proof.Machine
end

