-- ==== Sys2Proof/Machine/Backend.lean ====
section
/-! DEFINITION. The capability calls as the default backend answers them, and the host's key input
(spec/46_capability_backend.md R280 to R290, R296). -/

namespace Sys2Proof.Machine

namespace Cap

/-- `Cap.clear()`: every pixel becomes 0 (R281). -/
def clear (s : State) : State := s.setFb []

/-- One pixel of a sprite: a pixel on the screen under a 1 bit is tested for collision and flipped; a pixel past an edge or
under a 0 bit is left alone (R282). The accumulator is (collision so far, frame buffer so far). -/
def drawPixel (w h : Nat) (p : Pixel) (bit : Bool) (acc : Bool × FrameBuffer) : Bool × FrameBuffer :=
  if bit && decide (p.px < w) && decide (p.py < h) then
    (acc.1 || FrameBuffer.isOn acc.2 p, FrameBuffer.toggle acc.2 p)
  else acc

/-- One row of a sprite, 8 pixels from `(ox, yy)` on, bit 7 leftmost (R282). -/
def drawRow (w h ox yy : Nat) (row : Byte) (acc : Bool × FrameBuffer) : Bool × FrameBuffer :=
  (List.range 8).foldl (fun acc b => drawPixel w h ⟨ox + b, yy⟩ (row.getLsbD (7 - b)) acc) acc

/-- The rows of a sprite, top row first, from row `yy` down (R282). -/
def drawRows (w h ox : Nat) : Nat → List Byte → Bool × FrameBuffer → Bool × FrameBuffer
  | _, [], acc => acc
  | yy, row :: rows, acc => drawRows w h ox (yy + 1) rows (drawRow w h ox yy row acc)

/-- `Cap.draw(px, py, rows)`: the origin wraps, the sprite is clipped at the right and bottom edges; answers the collision
bit (R282; log 12). -/
def draw (px py : Byte) (rows : List Byte) (s : State) : Bool × State :=
  let r := drawRows s.params.screenW s.params.screenH (px.toNat % s.params.screenW)
    (py.toNat % s.params.screenH) rows (false, s.fb)
  (r.1, s.setFb r.2)

/-- `Cap.get_delay()` (R283). -/
def getDelay (s : State) : Byte := s.dt

/-- `Cap.set_delay(v)`; the countdown is not touched (R284). -/
def setDelay (v : Byte) (s : State) : State := s.setDT v

/-- `Cap.set_sound(v)`; the countdown is not touched (R285). -/
def setSound (v : Byte) (s : State) : State := s.setST v

/-- `Cap.is_pressed(k)` (R286). -/
def isPressed (k : KeyIndex) (s : State) : Bool := s.keys[k.val]

/-- `Cap.take_last_key()`: read and clear; no instruction calls it (R287, D27; log 22). -/
def takeLastKey (s : State) : Option KeyIndex × State := (s.lastKey, s.setLastKey none)

/-- `Cap.random()`: the next byte of the host's source, or, where the model is given none, a free byte (R288; log 7). -/
def random (s : State) : Byte × State :=
  match s.randomTape with
  | r :: rest => (r, s.setRandom rest (s.randomDraws + 1))
  | [] => (Config.freeRandomByte s.randomDraws, s.setRandom [] (s.randomDraws + 1))

end Cap

/-- The scan of `LD Vx,K`: all 16 keys in ascending order, each pressed one replacing what was found before (R204;
log 19). -/
def scanKeys (s : State) : Option KeyIndex :=
  (List.finRange 16).foldl (fun found k => if Cap.isPressed k s then some k else found) none

/-- `set_key_down(k)` (R296). -/
def setKeyDown (k : KeyIndex) (s : State) : State := (s.setKey k true).setLastKey (some k)

/-- `set_key_up(k)`: the key is released; `last_key` takes a free value (R296, R287, U22; log 8). -/
def setKeyUp (k : KeyIndex) (s : State) : State :=
  ((s.setKey k false).setLastKey (Config.freeLastKey s.keyUps)).countKeyUp

end Sys2Proof.Machine
end

