-- ==== Sys2Proof/Machine/Operands.lean ====
section
/-! DEFINITION. Every operand form of the instruction set: register operands, immediates, targets, effective addresses
(spec/30_encoding.md R93; spec/42_index_memory.md R186). -/

namespace Sys2Proof.Machine

/-- The flag register `VF = V[15]` (R21). -/
def flagReg : RegisterIndex := 15

/-- The implicit operand of `JP V0,nnn` (R165). -/
def offsetReg : RegisterIndex := 0

/-- The pc that an immediate address names: used unsigned, not scaled (R93, R164). -/
def targetPc (nnn : Address) : Word16 := nnn.setWidth 16

/-- The pc of `JP V0,nnn`: `nnn + V[0]`, `0 .. 4350`, not reduced (R165). -/
def offsetTargetPc (nnn : Address) (s : State) : Word16 :=
  BitVec.ofNat 16 (nnn.toNat + (s.V offsetReg).toNat)

/-- The return address of a call: the address of the word after it (R166). -/
def returnPc (s : State) : Word16 := s.pc + 2#16

/-- The effective address `I + i`, not reduced (R186). -/
def indexAddr (s : State) (i : Nat) : Nat := s.idx.toNat + i

/-- The index after a block transfer through `V[x]`: `I + x + 1` (R184, R185). -/
def indexAfterBlock (s : State) (x : RegisterIndex) : Nat := s.idx.toNat + x.val + 1

/-- `I + V[x]` on naturals (R181, R142). -/
def indexPlusReg (s : State) (x : RegisterIndex) : Nat := s.idx.toNat + (s.V x).toNat

/-- `5 * V[x]`, the whole byte (R182; log 18). -/
def glyphAddr (s : State) (x : RegisterIndex) : Nat := Config.fontStride * (s.V x).toNat

/-- The decimal digits of a byte: hundreds, tens, ones (R183). -/
def bcdDigits (v : Byte) : List Byte :=
  [BitVec.ofNat 8 (v.toNat / 100), BitVec.ofNat 8 (v.toNat / 10 % 10), BitVec.ofNat 8 (v.toNat % 10)]

/-- A register value read as a key index, or the error it raises (R202, R203, R315; log 19). -/
def keyOperand (s : State) (x : RegisterIndex) : Except ErrorKind KeyIndex :=
  if h : (s.V x).toNat < 16 then .ok ⟨(s.V x).toNat, h⟩ else .error (.invalidKey (s.V x))

end Sys2Proof.Machine
end

