-- ==== Sys2Proof/Machine/Flags.lean ====
section
/-! DEFINITION. Every computation of the flag register, and the order of the two writes of a flag-writing instruction
(spec/10_state.md R21; spec/40_load_alu.md R130). -/

namespace Sys2Proof.Machine

/-- A condition as a flag byte: `1` if it holds, else `0`. -/
def flagByte (b : Bool) : Byte := if b then 1#8 else 0#8

/-- `OR`, `AND`, `XOR` always clear the flag (R134). -/
def logicFlag : Byte := 0#8

/-- Carry: 1 iff `a + b >= 256` (R137). -/
def carryFlag (a b : Byte) : Byte := flagByte (decide (256 ≤ a.toNat + b.toNat))

/-- No borrow in `a - b`: 1 iff `a >= b` (R138, R140). -/
def noBorrowFlag (a b : Byte) : Byte := flagByte (decide (b.toNat ≤ a.toNat))

/-- The bit a right shift by one shifts out (R139). -/
def shiftedOutRight (b : Byte) : Byte := flagByte (b.getLsbD 0)

/-- The bit a left shift by one shifts out (R141). -/
def shiftedOutLeft (b : Byte) : Byte := flagByte (b.getLsbD 7)

/-- Collision of a draw (R201). -/
def collisionFlag (c : Bool) : Byte := flagByte c

/-- `V[x] <- r`, then `VF <- flag`: the flag is written last and is what remains when `x = 15` (R130, D9; log 11). -/
def writeWithFlag (x : RegisterIndex) (r flag : Byte) (s : State) : State :=
  (s.setV x r).setV flagReg flag

end Sys2Proof.Machine
end

