-- ==== Sys2Proof/Machine/Device.lean ====
section
/-! DEFINITION. Display, keypad, timer and random instructions (spec/43_display_key_timer_rnd.md R200 to R208). -/

namespace Sys2Proof.Machine

/-- `00E0` `CLS` (R200). -/
def execCls (s : State) : StepOutcome := nextPc (Cap.clear s)

/-- `Dxyn` `DRW Vx,Vy,n`: coordinates and rows are read before `VF` is written (R201). -/
def execDrw (x y : RegisterIndex) (n : Nibble) (s : State) : StepOutcome :=
  orFault (readBlock (indexAddr s 0) n.val s) fun rows =>
    let r := Cap.draw (s.V x) (s.V y) rows s
    nextPc (r.2.setV flagReg (collisionFlag r.1))

/-- `Ex9E` `SKP Vx` (R202). -/
def execSkp (x : RegisterIndex) (s : State) : StepOutcome :=
  match keyOperand s x with
  | .error e => raiseError e s
  | .ok k => skipIf (Cap.isPressed k s) s

/-- `ExA1` `SKNP Vx` (R203). -/
def execSknp (x : RegisterIndex) (s : State) : StepOutcome :=
  match keyOperand s x with
  | .error e => raiseError e s
  | .ok k => skipIf (!Cap.isPressed k s) s

/-- `Fx0A` `LD Vx,K`: with no key down nothing changes, not even `pc` (R204, R236). -/
def execLdVxK (x : RegisterIndex) (s : State) : StepOutcome :=
  match scanKeys s with
  | none => stayPc s
  | some k => nextPc (s.setV x (BitVec.ofNat 8 k.val))

/-- `Fx07` `LD Vx,DT` (R205). -/
def execLdVxDT (x : RegisterIndex) (s : State) : StepOutcome := nextPc (s.setV x (Cap.getDelay s))

/-- `Fx15` `LD DT,Vx` (R206). -/
def execLdDTVx (x : RegisterIndex) (s : State) : StepOutcome := nextPc (Cap.setDelay (s.V x) s)

/-- `Fx18` `LD ST,Vx` (R207). -/
def execLdSTVx (x : RegisterIndex) (s : State) : StepOutcome := nextPc (Cap.setSound (s.V x) s)

/-- `Cxkk` `RND Vx,kk`: exactly one draw (R208). -/
def execRnd (x : RegisterIndex) (kk : Byte) (s : State) : StepOutcome :=
  let r := Cap.random s
  nextPc (r.2.setV x (r.1 &&& kk))

end Sys2Proof.Machine
end

