-- ==== Sys2Proof/Machine/IndexMemory.lean ====
section
/-! DEFINITION. Index register and memory instructions (spec/42_index_memory.md R180 to R186). -/

namespace Sys2Proof.Machine

/-- `Annn` `LD I,nnn` (R180). -/
def execLdI (nnn : Address) (s : State) : StepOutcome := orFault (setI nnn.toNat s) nextPc

/-- `Fx1E` `ADD I,Vx`: no flag (R181; log 18). -/
def execAddI (x : RegisterIndex) (s : State) : StepOutcome := orFault (setI (indexPlusReg s x) s) nextPc

/-- `Fx29` `LD F,Vx` (R182). -/
def execLdF (x : RegisterIndex) (s : State) : StepOutcome := orFault (setI (glyphAddr s x) s) nextPc

/-- `Fx33` `LD B,Vx`: three digits at `I`, `I+1`, `I+2`; `I` is not changed (R183). -/
def execLdB (x : RegisterIndex) (s : State) : StepOutcome :=
  orFault (storeBlock (indexAddr s 0) (bcdDigits (s.V x)) s) nextPc

/-- `Fx55` `LD [I],Vx`: `V[0..x]` to `I .. I+x`, then `I <- I + x + 1` (R184). -/
def execStoreRegs (x : RegisterIndex) (s : State) : StepOutcome :=
  orFault (storeBlock (indexAddr s 0) (regsThrough x s) s) fun s' =>
    orFault (setI (indexAfterBlock s x) s') nextPc

/-- `Fx65` `LD Vx,[I]`: `V[0..x]` from `I .. I+x`, then `I <- I + x + 1` (R185). -/
def execLoadRegs (x : RegisterIndex) (s : State) : StepOutcome :=
  orFault (readBlock (indexAddr s 0) (x.val + 1) s) fun bytes =>
    orFault (setI (indexAfterBlock s x) (setRegsFrom 0 bytes s)) nextPc

end Sys2Proof.Machine
end

