-- ==== Sys2Proof/Machine/LoadAlu.lean ====
section
/-! DEFINITION. Register loads and ALU operations (spec/40_load_alu.md R130 to R142). -/

namespace Sys2Proof.Machine

/-- The shape of R130: both sources are read, the result goes to `V[x]`, then the flag to `VF`, then `next()`. -/
def aluOp (result flag : Byte → Byte → Byte) (x y : RegisterIndex) (s : State) : StepOutcome :=
  nextPc (writeWithFlag x (result (s.V x) (s.V y)) (flag (s.V x) (s.V y)) s)

/-- `6xkk` `LD Vx,kk` (R131). -/
def execLdImm (x : RegisterIndex) (kk : Byte) (s : State) : StepOutcome := nextPc (s.setV x kk)

/-- `7xkk` `ADD Vx,kk`: wraps, no flag (R132; log 13). -/
def execAddImm (x : RegisterIndex) (kk : Byte) (s : State) : StepOutcome :=
  nextPc (s.setV x (s.V x + kk))

/-- `8xy0` `LD Vx,Vy` (R133). -/
def execLdReg (x y : RegisterIndex) (s : State) : StepOutcome := nextPc (s.setV x (s.V y))

/-- `8xy1` `OR Vx,Vy` (R134). -/
def execOrReg (x y : RegisterIndex) (s : State) : StepOutcome :=
  aluOp (fun a b => a ||| b) (fun _ _ => logicFlag) x y s

/-- `8xy2` `AND Vx,Vy` (R135). -/
def execAndReg (x y : RegisterIndex) (s : State) : StepOutcome :=
  aluOp (fun a b => a &&& b) (fun _ _ => logicFlag) x y s

/-- `8xy3` `XOR Vx,Vy` (R136). -/
def execXorReg (x y : RegisterIndex) (s : State) : StepOutcome :=
  aluOp (fun a b => a ^^^ b) (fun _ _ => logicFlag) x y s

/-- `8xy4` `ADD Vx,Vy` (R137). -/
def execAddReg (x y : RegisterIndex) (s : State) : StepOutcome :=
  aluOp (fun a b => a + b) carryFlag x y s

/-- `8xy5` `SUB Vx,Vy`: `V[x] - V[y]` (R138). -/
def execSub (x y : RegisterIndex) (s : State) : StepOutcome :=
  aluOp (fun a b => a - b) noBorrowFlag x y s

/-- `8xy6` `SHR Vx,Vy`: shifts `V[y]` into `V[x]` (R139). -/
def execShr (x y : RegisterIndex) (s : State) : StepOutcome :=
  aluOp (fun _ b => b >>> 1) (fun _ b => shiftedOutRight b) x y s

/-- `8xy7` `SUBN Vx,Vy`: `V[y] - V[x]` (R140). -/
def execSubn (x y : RegisterIndex) (s : State) : StepOutcome :=
  aluOp (fun a b => b - a) (fun a b => noBorrowFlag b a) x y s

/-- `8xyE` `SHL Vx,Vy`: shifts `V[y]` into `V[x]` (R141). -/
def execShl (x y : RegisterIndex) (s : State) : StepOutcome :=
  aluOp (fun _ b => b <<< 1) (fun _ b => shiftedOutLeft b) x y s

end Sys2Proof.Machine
end

