-- ==== Sys2Proof/Machine/SkipControl.lean ====
section
/-! DEFINITION. Skips, jumps, calls and returns (spec/41_skip_control.md R160 to R168). -/

namespace Sys2Proof.Machine

/-- `3xkk` `SE Vx,kk` (R160). -/
def execSeImm (x : RegisterIndex) (kk : Byte) (s : State) : StepOutcome := skipIf (s.V x == kk) s

/-- `4xkk` `SNE Vx,kk` (R161). -/
def execSneImm (x : RegisterIndex) (kk : Byte) (s : State) : StepOutcome := skipIf (s.V x != kk) s

/-- `5xy0` `SE Vx,Vy` (R162). -/
def execSeReg (x y : RegisterIndex) (s : State) : StepOutcome := skipIf (s.V x == s.V y) s

/-- `9xy0` `SNE Vx,Vy` (R163). -/
def execSneReg (x y : RegisterIndex) (s : State) : StepOutcome := skipIf (s.V x != s.V y) s

/-- `1nnn` `JP nnn` (R164). -/
def execJp (nnn : Address) (s : State) : StepOutcome := jumpTo (targetPc nnn) s

/-- `Bnnn` `JP V0,nnn` (R165). -/
def execJpV0 (nnn : Address) (s : State) : StepOutcome := jumpTo (offsetTargetPc nnn s) s

/-- `2nnn` `CALL nnn`: the overflow test comes first (R166, R313). -/
def execCall (nnn : Address) (s : State) : StepOutcome :=
  match pushReturn (returnPc s) s with
  | none => raiseError .stackOverflow s
  | some s' => jumpTo (targetPc nnn) s'

/-- `00EE` `RET`: the underflow test comes first; no further increment (R167, R314; log 18). -/
def execRet (s : State) : StepOutcome :=
  match popReturn s with
  | none => raiseError .stackUnderflow s
  | some (t, s') => jumpTo t s'

end Sys2Proof.Machine
end

