-- ==== Sys2Proof/Machine/Engine.lean ====
section
/-! DEFINITION. The one transaction of the execution engine, `execute_next` (spec/44_execute_next.md R230 to R236), and
placing a word where it fetches. -/

namespace Sys2Proof.Machine

/-- Fetch: the word at `pc`, big-endian, at any parity; no side effect (R231, R64). -/
def fetch (s : State) : Except Fault Word16 := memReadWord s.pc.toNat s

/-- Decode and dispatch: an unrecognised word ends the transaction with the error that carries it (R232, R311). -/
def execWord (w : Word16) (s : State) : StepOutcome :=
  match decode w with
  | .ok i => exec i s
  | .error _ => raiseError (.unknownOpcode w) s

/-- `execute_next()`: fetch, decode, perform the rule (R230, R317). -/
def executeNext (s : State) : StepOutcome := orFault (fetch s) (fun w => execWord w s)

/-- A pc that can be fetched from: the state's own where the fetch can read both bytes, else 0 (R231). -/
def fetchablePc (s : State) : Word16 := if s.pc.toNat ≤ 4094 then s.pc else 0#16

/-- Place a word, high byte first, where `execute_next` fetches, and leave no host move before it. -/
def placeWord (w : Word16) (s : State) : State :=
  let a := (fetchablePc s).toNat
  ((s.setPc (fetchablePc s)).setHostMoves []).setMem
    (Memory.write (Memory.write s.mem a (highByte w)) (a + 1) (lowByte w))

end Sys2Proof.Machine
end

