-- ==== Sys2Proof/Machine/Scheduler.lean ====
section
/-! DEFINITION. The timer scheduler: `advance(D)` (spec/45_timer_scheduler.md R250 to R263). -/

namespace Sys2Proof.Machine

/-- A timer after one tick: one less, floor at 0 (R255). -/
def tickDown (v : Byte) : Byte := if v = 0#8 then 0#8 else v - 1#8

/-- The step of an iteration: the smallest countdown, but never more than the duration that is left (R253). -/
def stepLength (rem : Nat) (s : State) : Nat := min (min (min s.cI s.cD) s.cS) rem

/-- Time moves forward by `m`: all three countdowns go down (R252). -/
def elapse (m : Nat) (s : State) : State := s.setCountdowns (s.cI - m) (s.cD - m) (s.cS - m)

/-- The instruction event: when `cI` is 0, one `execute_next`; only if it returns `ok` is `cI` reset (R254, R258;
log 15). -/
def instructionEvent (s : State) : StepOutcome :=
  if s.cI = 0 then
    match executeNext s with
    | .next t => if t.result = .ok then .next (t.setCountdowns t.params.periodI t.cD t.cS) else .next t
    | .fault f => .fault f
    | .refused r => .refused r
  else .next s

/-- The delay tick: when `cD` is 0, `DT` goes down and `cD` restarts (R255). -/
def delayTick (s : State) : State :=
  if s.cD = 0 then (s.setDT (tickDown s.dt)).setCountdowns s.cI s.params.periodD s.cS else s

/-- The sound tick: when `cS` is 0, `ST` goes down and `cS` restarts (R255). -/
def soundTick (s : State) : State :=
  if s.cS = 0 then (s.setST (tickDown s.st)).setCountdowns s.cI s.cD s.params.periodS else s

/-- The loop of `advance`, in the order instruction, delay tick, sound tick (R252, R256; log 14); an error ends it at once (R258).
The first argument bounds the number of iterations; `advance` gives enough (R261; statement
AdvanceTerminates). -/
def advanceLoop : Nat → Nat → State → StepOutcome
  | 0, _, s => .next s
  | fuel + 1, rem, s =>
    if rem = 0 then .next s
    else
      match instructionEvent (elapse (stepLength rem s) s) with
      | .fault f => .fault f
      | .refused r => .refused r
      | .next t =>
        if t.result = .ok then advanceLoop fuel (rem - stepLength rem s) (soundTick (delayTick t))
        else .next t

/-- `advance(D)`: refuses a period of 0 (R251, U10; log 23), else consumes the duration and returns `ok`, or the error of the
instruction that failed (R252, R258). -/
def advance (d : Nat) (s : State) : StepOutcome :=
  if s.params.periodsWf then advanceLoop (d + 2) d (s.setResult .ok) else .refused .zeroPeriod

end Sys2Proof.Machine
end

