-- ==== Sys2Proof/Machine/HostSide.lean ====
section
/-! DEFINITION. The moves of the host: key events between transactions, and the choice of the next transaction
(spec/00_scope.md R3; spec/46_capability_backend.md R296, R299). -/

namespace Sys2Proof.Machine

/-- Perform one move of the host. -/
def perform (m : HostMove) (s : State) : StepOutcome :=
  match m with
  | .keyDown k => .next (setKeyDown k s)
  | .keyUp k => .next (setKeyUp k s)
  | .executeNext => executeNext s
  | .advance d => advance d s

end Sys2Proof.Machine
end

