-- ==== Sys2Proof/Machine/Step.lean ====
section
/-! DEFINITION. One step of the machine: the next move of the host, or, when none is listed, one `execute_next`
(spec/44_execute_next.md R230: "It is the step function of a model"). -/

namespace Sys2Proof.Machine

/-- One step (log 4). -/
def step (s : State) : Host.Outcome State Fault Refusal :=
  match s.hostMoves with
  | [] => executeNext s
  | m :: rest => perform m (s.setHostMoves rest)

/-- `s` with an instruction word stored where the next step fetches it; a number that is no word of 16 bits changes
nothing (log 24). -/
def State.withFetchWord (s : State) (nbits w : Nat) : State :=
  match tableWord nbits w with
  | some v => placeWord v s
  | none => s

end Sys2Proof.Machine
end

