-- ==== Sys2Proof/Safety.lean ====
section
/-! DEFINITION. What counts as a safe run, and the invariant of the machine (spec/10_state.md R37;
spec/60_exceptions.md R319; spec/44_execute_next.md R237). -/

namespace Sys2Proof.Machine

/-- The invariant of R37, as far as the types of State do not already say it: the memory and the frame buffer are in their
canonical forms inside `0 .. 4095` and the screen, the parameters are admitted, every countdown is at most its period,
`pc <= 4350`, and every stack entry in use is at most 4096. -/
structure State.Inv (s : State) : Prop where
  memory : Memory.wf s.mem = true
  screen : FrameBuffer.wf s.params.screenW s.params.screenH s.fb = true
  parameters : s.params.wf = true
  instrCountdown : s.cI ≤ s.params.periodI
  delayCountdown : s.cD ≤ s.params.periodD
  soundCountdown : s.cS ≤ s.params.periodS
  pcBound : s.pc.toNat ≤ 4350
  stackBound : ∀ j : Fin 16, j.val < s.sp.val → s.stack[j.val].toNat ≤ 4096

/-- One step that goes on and returns no error: "the safety predicate of a claim should include 'no error was returned'"
(R319), and a fault is never safe (R318). -/
def StepSafe (s : State) : Prop := ∃ t, step s = .next t ∧ t.result = .ok

/-- A run of `n` steps with no error, no fault and no refusal, and where it ends (R319). -/
def SafeRun : Nat → State → State → Prop
  | 0, s, t => t = s
  | n + 1, s, t => ∃ u, step s = .next u ∧ u.result = .ok ∧ SafeRun n u t

/-- The spec's convention for the end of a program: the word at `pc` is a jump to `pc` itself (R237, D29; the hardware
knows nothing of it). -/
def State.finished (s : State) : Bool :=
  match fetch s with
  | .ok w => w.toNat == 0x1000 + s.pc.toNat && decide (s.pc.toNat ≤ 4095)
  | .error _ => false

end Sys2Proof.Machine
end

