-- ==== Sys2Proof/Certificates/Slice0/Obligations.lean ====
section
/-! DEFINITION. The statements for the provers. First the vocabulary they are written in (namespace Sys2Proof.Frame), then
one definition `Obligations.<Name> : Prop` per statement; OBLIGATIONS.json lists them with their rules. -/

namespace Sys2Proof.Frame

open Sys2Proof.Machine

/-- The 16-bit number `n` is the instruction `i`: the decoder reads `i` from it and the encoder writes it for `i`. -/
def Encodes (n : Nat) (i : Instr) : Prop :=
  n < 65536 ∧ decode (BitVec.ofNat 16 n) = .ok i ∧ encode i = BitVec.ofNat 16 n

/-- Every general register reads as before. -/
def SameRegs (s t : State) : Prop := ∀ r, t.V r = s.V r

/-- Every general register outside `P` reads as before. -/
def SameRegsExcept (P : RegisterIndex → Prop) (s t : State) : Prop := ∀ r, ¬ P r → t.V r = s.V r

/-- Every byte of memory reads as before. -/
def SameMem (s t : State) : Prop := ∀ a, t.byteAt a = s.byteAt a

/-- Every byte of memory outside the `n` bytes from `a` on reads as before. -/
def SameMemOutside (a n : Nat) (s t : State) : Prop :=
  ∀ b, (b < a ∨ a + n ≤ b) → t.byteAt b = s.byteAt b

/-- The call stack and its pointer are unchanged. -/
def SameStack (s t : State) : Prop := t.sp = s.sp ∧ t.stack = s.stack

/-- The frame buffer is unchanged. -/
def SameScreen (s t : State) : Prop := t.fb = s.fb

/-- Both timers are unchanged. -/
def SameTimers (s t : State) : Prop := t.dt = s.dt ∧ t.st = s.st

/-- The keypad and the last-pressed key are unchanged. -/
def SameKeys (s t : State) : Prop := t.keys = s.keys ∧ t.lastKey = s.lastKey

/-- The countdowns and the parameters are unchanged. -/
def SameSched (s t : State) : Prop := t.cI = s.cI ∧ t.cD = s.cD ∧ t.cS = s.cS ∧ t.params = s.params

/-- The random source has not been asked. -/
def SameRandom (s t : State) : Prop := t.randomTape = s.randomTape ∧ t.randomDraws = s.randomDraws

/-- The host's pending moves and its count of key releases are unchanged. -/
def SameHost (s t : State) : Prop := t.hostMoves = s.hostMoves ∧ t.keyUps = s.keyUps

/-- Everything outside the CPU state is unchanged. -/
def SameDevices (s t : State) : Prop :=
  SameScreen s t ∧ SameTimers s t ∧ SameKeys s t ∧ SameSched s t ∧ SameRandom s t ∧ SameHost s t

/-- Everything but the general registers, the pc and the result is unchanged. -/
def SameBeyondRegs (s t : State) : Prop := t.idx = s.idx ∧ SameStack s t ∧ SameMem s t ∧ SameDevices s t

/-- The transaction returned `ok` with the pc at `p`. -/
def EndsAt (p : Word16) (t : State) : Prop := t.pc = p ∧ t.result = .ok

/-- The outcome of an operation on two registers: result `r` in `V[x]` unless `x = 15`, flag `f` in `V[15]`, `pc + 2`, all else
unchanged. -/
def AluOutcome (x : RegisterIndex) (r f : Nat) (s t : State) : Prop :=
  (x ≠ 15 → (t.V x).toNat = r) ∧ (t.V 15).toNat = f ∧ SameRegsExcept (fun j => j = x ∨ j = 15) s t ∧
  EndsAt (s.pc + 2#16) t ∧ SameBeyondRegs s t

/-- The outcome of a skip: `pc + 4` if `c` holds, else `pc + 2`, all else unchanged. -/
def SkipOutcome (c : Prop) (s t : State) : Prop :=
  (c → t.pc = s.pc + 4#16) ∧ (¬ c → t.pc = s.pc + 2#16) ∧ t.result = .ok ∧ SameRegs s t ∧ SameBeyondRegs s t

/-- The outcome of setting the index register to `v`: `pc + 2`, all else unchanged. -/
def IndexOutcome (v : Nat) (s t : State) : Prop :=
  t.idx.toNat = v ∧ EndsAt (s.pc + 2#16) t ∧ SameRegs s t ∧ SameStack s t ∧ SameMem s t ∧ SameDevices s t

/-- A sprite of rows `rows` drawn at the bytes `px`, `py` has a 1 bit over the on-screen pixel `p` (R282): the origin wraps
modulo the screen size, 8 pixels a row, bit 7 leftmost, no wrapping per pixel. -/
def Targeted (pr : Params) (px py : Byte) (rows : List Byte) (p : Pixel) : Prop :=
  p.px < pr.screenW ∧ p.py < pr.screenH ∧
  px.toNat % pr.screenW ≤ p.px ∧ p.px < px.toNat % pr.screenW + 8 ∧
  py.toNat % pr.screenH ≤ p.py ∧ p.py < py.toNat % pr.screenH + rows.length ∧
  (rows.getD (p.py - py.toNat % pr.screenH) 0#8).getLsbD (7 - (p.px - px.toNat % pr.screenW)) = true

/-- The `n` bytes of memory from `a` on. -/
def bytesFrom (s : State) (a n : Nat) : List Byte := (List.range n).map fun i => s.byteAt (a + i)

/-- The table of R24: the pc after an instruction that goes on. -/
def pcAfter : Instr → State → Word16
  | .jp nnn, _ => nnn.setWidth 16
  | .jpV0 nnn, s => BitVec.ofNat 16 (nnn.toNat + (s.V 0).toNat)
  | .call nnn, s => if s.sp.val = 16 then s.pc else nnn.setWidth 16
  | .ret, s => if h : s.sp.val = 0 then s.pc else s.stack[s.sp.val - 1]'(by omega)
  | .seImm x kk, s => if s.V x = kk then s.pc + 4#16 else s.pc + 2#16
  | .sneImm x kk, s => if s.V x ≠ kk then s.pc + 4#16 else s.pc + 2#16
  | .seReg x y, s => if s.V x = s.V y then s.pc + 4#16 else s.pc + 2#16
  | .sneReg x y, s => if s.V x ≠ s.V y then s.pc + 4#16 else s.pc + 2#16
  | .skp x, s => if h : (s.V x).toNat < 16 then
      if s.keys[(s.V x).toNat] = true then s.pc + 4#16 else s.pc + 2#16 else s.pc
  | .sknp x, s => if h : (s.V x).toNat < 16 then
      if s.keys[(s.V x).toNat] = true then s.pc + 2#16 else s.pc + 4#16 else s.pc
  | .ldVxK _, s => if ∃ k : KeyIndex, s.keys[k.val] = true then s.pc + 2#16 else s.pc
  | .cls, s | .ldImm _ _, s | .addImm _ _, s | .ldReg _ _, s | .orReg _ _, s | .andReg _ _, s | .xorReg _ _, s
  | .addReg _ _, s | .sub _ _, s | .shr _ _, s | .subn _ _, s | .shl _ _, s | .ldI _, s | .rnd _ _, s | .drw _ _ _, s
  | .ldVxDT _, s | .ldDTVx _, s | .ldSTVx _, s | .addI _, s | .ldF _, s | .ldB _, s | .storeRegs _, s
  | .loadRegs _, s => s.pc + 2#16

/-- The four cases of R63 and the index register's of R26: when an instruction faults. -/
def Faults : Instr → State → Prop
  | .addI x, s => 4095 < s.idx.toNat + (s.V x).toNat
  | .ldB _, s => 4095 < s.idx.toNat + 2
  | .storeRegs x, s => 4095 < s.idx.toNat + x.val + 1
  | .loadRegs x, s => 4095 < s.idx.toNat + x.val + 1
  | .drw _ _ n, s => 1 ≤ n.val ∧ 4095 < s.idx.toNat + n.val - 1
  | .cls, _ | .ret, _ | .jp _, _ | .call _, _ | .seImm _ _, _ | .sneImm _ _, _ | .seReg _ _, _ | .ldImm _ _, _
  | .addImm _ _, _ | .ldReg _ _, _ | .orReg _ _, _ | .andReg _ _, _ | .xorReg _ _, _ | .addReg _ _, _ | .sub _ _, _
  | .shr _ _, _ | .subn _ _, _ | .shl _ _, _ | .sneReg _ _, _ | .ldI _, _ | .jpV0 _, _ | .rnd _ _, _ | .skp _, _
  | .sknp _, _ | .ldVxDT _, _ | .ldVxK _, _ | .ldDTVx _, _ | .ldSTVx _, _ | .ldF _, _ => False

/-- The table of R310: when an instruction ends in an error, and in which. -/
def Errs : Instr → State → ErrorKind → Prop
  | .call _, s, e => s.sp.val = 16 ∧ e = .stackOverflow
  | .ret, s, e => s.sp.val = 0 ∧ e = .stackUnderflow
  | .skp x, s, e => 15 < (s.V x).toNat ∧ e = .invalidKey (s.V x)
  | .sknp x, s, e => 15 < (s.V x).toNat ∧ e = .invalidKey (s.V x)
  | .cls, _, _ | .jp _, _, _ | .seImm _ _, _, _ | .sneImm _ _, _, _ | .seReg _ _, _, _ | .ldImm _ _, _, _
  | .addImm _ _, _, _ | .ldReg _ _, _, _ | .orReg _ _, _, _ | .andReg _ _, _, _ | .xorReg _ _, _, _
  | .addReg _ _, _, _ | .sub _ _, _, _ | .shr _ _, _, _ | .subn _ _, _, _ | .shl _ _, _, _ | .sneReg _ _, _, _
  | .ldI _, _, _ | .jpV0 _, _, _ | .rnd _ _, _, _ | .drw _ _ _, _, _ | .ldVxDT _, _, _ | .ldVxK _, _, _
  | .ldDTVx _, _, _ | .ldSTVx _, _, _ | .addI _, _, _ | .ldF _, _, _ | .ldB _, _, _ | .storeRegs _, _, _
  | .loadRegs _, _, _ => False

/-- The registers the rule of an instruction writes (R22, column "writes"). -/
def Writes : Instr → RegisterIndex → Prop
  | .ldImm x _, r | .addImm x _, r | .ldReg x _, r | .rnd x _, r | .ldVxDT x, r | .ldVxK x, r => r = x
  | .orReg x _, r | .andReg x _, r | .xorReg x _, r | .addReg x _, r | .sub x _, r | .shr x _, r | .subn x _, r
  | .shl x _, r => r = x ∨ r = 15
  | .drw _ _ _, r => r = 15
  | .loadRegs x, r => r ≤ x
  | .cls, _ | .ret, _ | .jp _, _ | .call _, _ | .seImm _ _, _ | .sneImm _ _, _ | .seReg _ _, _ | .sneReg _ _, _
  | .ldI _, _ | .jpV0 _, _ | .skp _, _ | .sknp _, _ | .ldDTVx _, _ | .ldSTVx _, _ | .addI _, _ | .ldF _, _ | .ldB _, _
  | .storeRegs _, _ => False

/-- The index register is written by the instruction (R25). -/
def writesIndex : Instr → Bool
  | .ldI _ | .addI _ | .ldF _ | .storeRegs _ | .loadRegs _ => true
  | .cls | .ret | .jp _ | .call _ | .seImm _ _ | .sneImm _ _ | .seReg _ _ | .ldImm _ _ | .addImm _ _ | .ldReg _ _
  | .orReg _ _ | .andReg _ _ | .xorReg _ _ | .addReg _ _ | .sub _ _ | .shr _ _ | .subn _ _ | .shl _ _ | .sneReg _ _
  | .jpV0 _ | .rnd _ _ | .drw _ _ _ | .skp _ | .sknp _ | .ldVxDT _ | .ldVxK _ | .ldDTVx _ | .ldSTVx _ | .ldB _ => false

/-- The bytes of memory the instruction stores to: how many, from `I` on (R65). -/
def storedBytes : Instr → Nat
  | .ldB _ => 3
  | .storeRegs x => x.val + 1
  | .cls | .ret | .jp _ | .call _ | .seImm _ _ | .sneImm _ _ | .seReg _ _ | .ldImm _ _ | .addImm _ _ | .ldReg _ _
  | .orReg _ _ | .andReg _ _ | .xorReg _ _ | .addReg _ _ | .sub _ _ | .shr _ _ | .subn _ _ | .shl _ _ | .sneReg _ _
  | .ldI _ | .jpV0 _ | .rnd _ _ | .drw _ _ _ | .skp _ | .sknp _ | .ldVxDT _ | .ldVxK _ | .ldDTVx _ | .ldSTVx _
  | .addI _ | .ldF _ | .loadRegs _ => 0

/-- A countdown after an error-free `advance` by `d`, from the value `c` with period `p` (R260). -/
def countdownAfter (p c d : Nat) : Nat := if d < c then c - d else p - (d - c) % p

/-- `t` is `u` after the ticks of the instant that `m` time units after `s` brings: `DT` and `ST` go down by 1, floor 0, exactly if
their countdown ran out, exactly those countdowns restart, and nothing else changes but the instruction countdown. -/
def TicksDone (m : Nat) (s u t : State) : Prop :=
  t.dt.toNat = (if s.cD = m then u.dt.toNat - 1 else u.dt.toNat) ∧
  t.st.toNat = (if s.cS = m then u.st.toNat - 1 else u.st.toNat) ∧
  t.cD = (if s.cD = m then s.params.periodD else s.cD - m) ∧
  t.cS = (if s.cS = m then s.params.periodS else s.cS - m) ∧
  t.result = .ok ∧ SameRegs u t ∧ t.idx = u.idx ∧ t.pc = u.pc ∧ SameStack u t ∧ SameMem u t ∧ SameScreen u t ∧
  SameKeys u t ∧ SameRandom u t ∧ SameHost u t ∧ t.params = s.params

/-- `advance d s` goes on from `t` when `m` of its `d` time units are consumed. -/
def GoesOnFrom (m d : Nat) (s t : State) : Prop :=
  advance d s = advance (d - m) t ∧ (d = m → advance d s = .next t)

/-- The next instant at which something is due comes `m` time units after `s`, within a duration of `d`. -/
def NextInstant (m d : Nat) (s : State) : Prop :=
  1 ≤ d ∧ m ≤ d ∧ m ≤ s.cI ∧ m ≤ s.cD ∧ m ≤ s.cS ∧ (s.cI = m ∨ s.cD = m ∨ s.cS = m)

/-- Every countdown is in `1 .. period` (R33, R257 b). -/
def CountdownsReady (s : State) : Prop :=
  (1 ≤ s.cI ∧ s.cI ≤ s.params.periodI) ∧ (1 ≤ s.cD ∧ s.cD ≤ s.params.periodD) ∧
  (1 ≤ s.cS ∧ s.cS ≤ s.params.periodS)

end Sys2Proof.Frame

open Sys2Proof Sys2Proof.Machine Sys2Proof.Frame

/-! ## Encoding and the decoder -/

/-- Words written out in the spec decode to the instructions the spec says (95_test_vectors.md section 2.1; R96, R100). The encodings
of all but 00E0, 6A02, 8AB4 and D125, and with them that 8128 has no row, are general knowledge in the spec (decision D2; PRESUMED,
log 10); that 0000 is unrecognised is its decision D1, log 10. -/
def Obligations.SpecWordsDecode : Prop :=
  decode 0x00E0#16 = .ok .cls ∧ decode 0x00EE#16 = .ok .ret ∧ decode 0x1ABC#16 = .ok (.jp 0xABC#12) ∧
  decode 0x3A7F#16 = .ok (.seImm 10 0x7F#8) ∧ decode 0x6A02#16 = .ok (.ldImm 10 0x02#8) ∧
  decode 0x8AB4#16 = .ok (.addReg 10 11) ∧ decode 0x812E#16 = .ok (.shl 1 2) ∧
  decode 0xD125#16 = .ok (.drw 1 2 5) ∧ decode 0xEC9E#16 = .ok (.skp 12) ∧ decode 0xF31E#16 = .ok (.addI 3) ∧
  decode 0xFF65#16 = .ok (.loadRegs 15) ∧ decode 0x8128#16 = .error (.unknownOpcode 0x8128#16) ∧
  decode 0x0000#16 = .error (.unknownOpcode 0#16)

/-- Decode of encode is the instruction, for every instruction with every operand, as a word and as bytes in memory order
with anything behind them (R104). -/
def Obligations.DecodeOfEncode : Prop :=
  ∀ i : Instr, i.wf = true → decode (encode i) = .ok i ∧
    ∀ rest, decodeBytes (encodeBytes i ++ rest) = .ok (i, rest)

/-- "Decode followed by re-encoding returns the original word for every recognised word" (R104). -/
def Obligations.EncodeOfDecode : Prop :=
  ∀ (w : Word16) (i : Instr), decode w = .ok i → encode i = w

/-- A recognised word is accepted by exactly one row of the opcode map, the one of its operation id (R95, R96). -/
def Obligations.DecodeMatchesOpcodeMap : Prop :=
  ∀ (w : Word16) (i : Instr), decode w = .ok i →
    ∃ r ∈ opcodeMap, r.opId = i.opId ∧ r.accepts w = true ∧ ∀ r' ∈ opcodeMap, r'.accepts w = true → r' = r

/-- A word that matches no row of the map is the decode error that carries that exact word, and no other word is an error
(R102); it is error kind 1. -/
def Obligations.UnrecognisedWordsAreErrors : Prop :=
  ∀ w : Word16, ((∀ r ∈ opcodeMap, r.accepts w = false) ↔ decode w = .error (.unknownOpcode w)) ∧
    (ErrorKind.unknownOpcode w).code = 1

/-- The signals of the decoder block agree with the decoder (R103): valid exactly for recognised words, with the operation id,
and with the fields as operands. -/
def Obligations.DecoderSignalsAgree : Prop :=
  ∀ w : Word16, ((decoderSignals w).valid = true ↔ ∃ i, decode w = .ok i) ∧
    (∀ i, decode w = .ok i → (decoderSignals w).opId.toNat = i.opId) ∧
    (decoderSignals w).x.toNat = (fieldX w).val ∧ (decoderSignals w).y.toNat = (fieldY w).val ∧
    (decoderSignals w).n.toNat = (fieldN w).val ∧ (decoderSignals w).kk = fieldKK w ∧
    (decoderSignals w).nnn = fieldNNN w

/-! ## The transaction -/

/-- A step runs the decoded instruction: when the host has no move listed and the two bytes at the pc decode to `i`, a step is
`exec i` at that very state, with nothing around it (R230; log 4). So is a step whose first listed move is `execute_next`, at
the state with that move taken off. -/
def Obligations.StepRunsDecodedInstruction : Prop :=
  ∀ (s : State) (i : Instr), s.pc.toNat + 1 < Config.memSize →
    decode (wordOfBytes (s.byteAt s.pc.toNat) (s.byteAt (s.pc.toNat + 1))) = .ok i →
    (s.hostMoves = [] → step s = exec i s) ∧
    (∀ rest, s.hostMoves = .executeNext :: rest → step s = exec i (s.setHostMoves rest))

/-- Fetch is big-endian at any parity; from a pc above 4094 it faults and the transaction ends (R231; that fault is the spec's
decisions D6 and D7, log 9). -/
def Obligations.FetchIsBigEndian : Prop :=
  ∀ s : State,
    (s.pc.toNat ≤ 4094 → ∃ w, fetch s = .ok w ∧
      w.toNat = (s.byteAt s.pc.toNat).toNat * 256 + (s.byteAt (s.pc.toNat + 1)).toNat) ∧
    (4094 < s.pc.toNat → ∃ a, fetch s = .error (.addressRange a) ∧ executeNext s = .fault (.addressRange a))

/-- An unrecognised word ends `execute_next` with the error that carries it and changes nothing else; calling again fails the
same way (R232). -/
def Obligations.UnknownOpcodeChangesNothing : Prop :=
  ∀ (s : State) (w : Word16) (e : DecodeError), fetch s = .ok w → decode w = .error e →
    executeNext s = .next (s.setResult (.error (.unknownOpcode w))) ∧
    executeNext (s.setResult (.error (.unknownOpcode w))) = .next (s.setResult (.error (.unknownOpcode w)))

/-- An instruction ends in an error in exactly the cases of the table of the four kinds (R310, R313, R314, R315), and an
instruction is never refused (that `SKP` and `SKNP` above 15 end in a recoverable `InvalidKey` that carries the byte is the
spec's decisions D12 and D36, log 19). -/
def Obligations.ErrorsAreExactlyTheTable : Prop :=
  ∀ (i : Instr) (s : State), (∀ e, (∃ t, exec i s = .next t ∧ t.result = .error e) ↔ Errs i s e) ∧
    ∀ r, exec i s ≠ .refused r

/-- Errors are precise: an instruction that ends in an error has changed nothing but the result (R316). -/
def Obligations.ErrorsLeaveStateUnchanged : Prop :=
  ∀ (i : Instr) (s t : State) (e : ErrorKind), exec i s = .next t → t.result = .error e →
    t = s.setResult (.error e)

/-- Errors repeat: calling again after an error gives the same error and the same state, and so does the scheduler, which
consumes no time on the repeated call (R369; that an error leaves the state and the countdowns so is the spec's decisions D11 and
D20, logs 6 and 15). -/
def Obligations.ErrorsRepeat : Prop :=
  (∀ (s t : State) (e : ErrorKind), executeNext s = .next t → t.result = .error e → executeNext t = .next t) ∧
  (∀ (s t : State) (e : ErrorKind) (d d' : Nat), advance d s = .next t → t.result = .error e → 1 ≤ d' →
    advance d' t = .next t)

/-- The engine keeps no errored flag: a transaction does not depend on what the last one returned (R235, R320). -/
def Obligations.LastResultIsNeverRead : Prop :=
  ∀ (s : State) (r : TxResult), executeNext (s.setResult r) = executeNext s ∧
    ∀ d, advance d (s.setResult r) = advance d s

/-- `LD Vx,K` with no key down returns `ok` with the state unchanged, and it, a self-jump, and a `JP V0` that lands on itself
are the only instructions that return `ok` with the CPU state unchanged (R236). -/
def Obligations.OnlyWaitsAndSelfJumpsStandStill : Prop :=
  (∀ (x : RegisterIndex) (s : State), (∀ k : KeyIndex, s.keys[k.val] = false) →
    exec (.ldVxK x) s = .next (s.setResult .ok)) ∧
  ∀ (i : Instr) (s t : State), exec i s = .next t → t.result = .ok →
    t.regs = s.regs → t.idx = s.idx → t.pc = s.pc → t.sp = s.sp → t.stack = s.stack → t.mem = s.mem →
    ((∃ x, i = .ldVxK x) ∧ (∀ k : KeyIndex, s.keys[k.val] = false) ∧ t = s.setResult .ok) ∨
    (∃ nnn, i = .jp nnn ∧ nnn.toNat = s.pc.toNat) ∨
    (∃ nnn, i = .jpV0 nnn ∧ nnn.toNat + (s.V 0).toNat = s.pc.toNat)

/-- A store is seen by every later fetch: after `LD [I],Vx`, a fetch at any two of the stored bytes reads the word of the two
registers (R73). -/
def Obligations.StoredBytesAreFetched : Prop :=
  ∀ (s : State) (x : RegisterIndex), s.idx.toNat + x.val + 1 ≤ 4095 →
    ∃ t, exec (.storeRegs x) s = .next t ∧
      ∀ (i j : RegisterIndex), i.val + 1 = j.val → j ≤ x →
        fetch (t.setPc (BitVec.ofNat 16 (s.idx.toNat + i.val))) = .ok (wordOfBytes (s.V i) (s.V j))

/-- A finished program stays where it is: at a self-jump `execute_next` changes nothing but the result, and an `advance`
changes nothing but the result, the two timers and the three countdowns (R237; the convention is the spec's D29). -/
def Obligations.FinishedProgramsStandStill : Prop :=
  ∀ s : State, s.finished = true → executeNext s = .next (s.setResult .ok) ∧
    ∀ (d : Nat), s.params.periodsWf = true → ∃ t, advance d s = .next t ∧ t.result = .ok ∧
      t.pc = s.pc ∧ t.finished = true ∧ SameRegs s t ∧ t.idx = s.idx ∧ SameStack s t ∧ SameMem s t ∧
      SameScreen s t ∧ SameKeys s t ∧ SameRandom s t ∧ SameHost s t ∧ t.params = s.params

/-! ## Register loads and the ALU -/

/-- `LD Vx,kk` (R131): the value, the frame, the encoding; it always completes. -/
def Obligations.LoadImmediate : Prop :=
  ∀ (x : RegisterIndex) (kk : Byte) (s : State), Encodes (0x6000 + x.val * 256 + kk.toNat) (.ldImm x kk) ∧
    ∃ t, exec (.ldImm x kk) s = .next t ∧ t.V x = kk ∧ SameRegsExcept (fun r => r = x) s t ∧
      EndsAt (s.pc + 2#16) t ∧ SameBeyondRegs s t

/-- `ADD Vx,kk` (R132: wraps, `VF` untouched; the spec's decision D10, log 13) and `LD Vx,Vy` (R133; that it exists is general
knowledge in the spec, decision D2, PRESUMED, log 10): they always complete. -/
def Obligations.AddImmediateAndMove : Prop :=
  ∀ (x y : RegisterIndex) (kk : Byte) (s : State),
    (∃ t, exec (.addImm x kk) s = .next t ∧ (t.V x).toNat = ((s.V x).toNat + kk.toNat) % 256 ∧
      SameRegsExcept (fun r => r = x) s t ∧ EndsAt (s.pc + 2#16) t ∧ SameBeyondRegs s t) ∧
    (∃ t, exec (.ldReg x y) s = .next t ∧ t.V x = s.V y ∧
      SameRegsExcept (fun r => r = x) s t ∧ EndsAt (s.pc + 2#16) t ∧ SameBeyondRegs s t)

/-- `OR`, `AND`, `XOR` always clear the flag register; with `x = 15` the flag survives (R134, R135, R136; the order of the two
writes is the spec's decision D9): they always complete. -/
def Obligations.BitwiseOpsClearFlag : Prop :=
  ∀ (x y : RegisterIndex) (s : State),
    (∃ t, exec (.orReg x y) s = .next t ∧ AluOutcome x ((s.V x).toNat ||| (s.V y).toNat) 0 s t) ∧
    (∃ t, exec (.andReg x y) s = .next t ∧ AluOutcome x ((s.V x).toNat &&& (s.V y).toNat) 0 s t) ∧
    (∃ t, exec (.xorReg x y) s = .next t ∧ AluOutcome x ((s.V x).toNat ^^^ (s.V y).toNat) 0 s t)

/-- `ADD Vx,Vy`: the encoding, the sum modulo 256 and the carry (R137; that for `x = 15` the flag survives is the spec's decision
D9, log 11): it always completes. -/
def Obligations.AddSetsCarry : Prop :=
  ∀ (x y : RegisterIndex) (s : State), Encodes (0x8004 + x.val * 256 + y.val * 16) (.addReg x y) ∧ ∃ t, exec (.addReg x y) s = .next t ∧
    AluOutcome x (((s.V x).toNat + (s.V y).toNat) % 256)
      (if 256 ≤ (s.V x).toNat + (s.V y).toNat then 1 else 0) s t

/-- `SUB` and `SUBN`: the difference modulo 256 and "no borrow" (R138, R140; for `x = 15` the spec's decision D9): they always
complete. -/
def Obligations.SubtractSetsNoBorrow : Prop :=
  ∀ (x y : RegisterIndex) (s : State),
    (∃ t, exec (.sub x y) s = .next t ∧
      AluOutcome x (((s.V x).toNat + 256 - (s.V y).toNat) % 256)
        (if (s.V y).toNat ≤ (s.V x).toNat then 1 else 0) s t) ∧
    (∃ t, exec (.subn x y) s = .next t ∧
      AluOutcome x (((s.V y).toNat + 256 - (s.V x).toNat) % 256)
        (if (s.V x).toNat ≤ (s.V y).toNat then 1 else 0) s t)

/-- `SHR` and `SHL` shift `V[y]` into `V[x]`, and the flag is the bit shifted out of the original `V[y]`, whether or not
`x = y` (R139, R141; for `x = 15` the spec's decision D9): they always complete. -/
def Obligations.ShiftsReadTheSource : Prop :=
  ∀ (x y : RegisterIndex) (s : State),
    (∃ t, exec (.shr x y) s = .next t ∧ AluOutcome x ((s.V y).toNat / 2) ((s.V y).toNat % 2) s t) ∧
    (∃ t, exec (.shl x y) s = .next t ∧ AluOutcome x ((s.V y).toNat * 2 % 256) ((s.V y).toNat / 128) s t)

/-! ## Skips, jumps, calls and returns -/

/-- The four register skips advance by 4 on a match as specified, else by 2, and change nothing else (R160 to R163): they
always complete. -/
def Obligations.SkipsOnRegisters : Prop :=
  ∀ (x y : RegisterIndex) (kk : Byte) (s : State),
    (∃ t, exec (.seImm x kk) s = .next t ∧ SkipOutcome (s.V x = kk) s t) ∧
    (∃ t, exec (.sneImm x kk) s = .next t ∧ SkipOutcome (s.V x ≠ kk) s t) ∧
    (∃ t, exec (.seReg x y) s = .next t ∧ SkipOutcome (s.V x = s.V y) s t) ∧
    (∃ t, exec (.sneReg x y) s = .next t ∧ SkipOutcome (s.V x ≠ s.V y) s t)

/-- `JP nnn` sets the pc to its target and `JP V0,nnn` to `nnn + V[0]`, not reduced; nothing else changes (R164, R165; that the
sum is not reduced is the spec's decision D6, log 9): they always complete. -/
def Obligations.JumpsSetPc : Prop :=
  ∀ (nnn : Address) (s : State),
    (∃ t, exec (.jp nnn) s = .next t ∧ t.pc.toNat = nnn.toNat ∧ t.result = .ok ∧ SameRegs s t ∧
      SameBeyondRegs s t) ∧
    (∃ t, exec (.jpV0 nnn) s = .next t ∧ t.pc.toNat = nnn.toNat + (s.V 0).toNat ∧ t.result = .ok ∧
      SameRegs s t ∧ SameBeyondRegs s t)

/-- `CALL nnn` with fewer than 16 entries pushes `pc + 2` and jumps; with 16 it is `StackOverflow` and nothing else changes
(R166, R313). -/
def Obligations.CallPushesReturnAddress : Prop :=
  ∀ (nnn : Address) (s : State),
    (s.sp.val < 16 → ∃ t, exec (.call nnn) s = .next t ∧ t.pc.toNat = nnn.toNat ∧ t.result = .ok ∧
      t.sp.val = s.sp.val + 1 ∧
      (∀ j : Fin 16, t.stack[j.val] = if j.val = s.sp.val then s.pc + 2#16 else s.stack[j.val]) ∧
      SameRegs s t ∧ t.idx = s.idx ∧ SameMem s t ∧ SameDevices s t) ∧
    (s.sp.val = 16 → exec (.call nnn) s = .next (s.setResult (.error .stackOverflow)))

/-- `RET` with an entry in use pops it into the pc, with no further increment; with none it is `StackUnderflow` and nothing
else changes (R167, R314; "no further increment" is the spec's decision D24). -/
def Obligations.ReturnPopsReturnAddress : Prop :=
  ∀ s : State,
    (∀ h : 0 < s.sp.val, ∃ t, exec .ret s = .next t ∧ t.pc = s.stack[s.sp.val - 1]'(by omega) ∧
      t.result = .ok ∧ t.sp.val = s.sp.val - 1 ∧ t.stack = s.stack ∧
      SameRegs s t ∧ t.idx = s.idx ∧ SameMem s t ∧ SameDevices s t) ∧
    (s.sp.val = 0 → exec .ret s = .next (s.setResult (.error .stackUnderflow)))

/-- A coherent return path: a `RET` that finds the call stack as a `CALL` left it comes back to the word after the call, with
the stack pointer as before it (R166, R167; that `RET` adds nothing to the popped address is the spec's decision D24, log 18). -/
def Obligations.ReturnComesBackAfterCall : Prop :=
  ∀ (nnn : Address) (s t u : State), exec (.call nnn) s = .next t → t.result = .ok →
    u.sp = t.sp → u.stack = t.stack →
    ∃ v, exec .ret u = .next v ∧ v.pc = s.pc + 2#16 ∧ v.sp = s.sp ∧ v.result = .ok

/-! ## Index register and memory -/

/-- `LD I,nnn` and `LD F,Vx` set the index register to `nnn` and to `5 * V[x]` and always complete (R180, R182; that `LD I,nnn`
exists is general knowledge in the spec, decision D2, PRESUMED, log 10; that `LD F,Vx` takes the whole byte is its decision D25,
log 18). -/
def Obligations.IndexLoads : Prop :=
  ∀ (nnn : Address) (x : RegisterIndex) (s : State),
    (∃ t, exec (.ldI nnn) s = .next t ∧ IndexOutcome nnn.toNat s t) ∧
    (∃ t, exec (.ldF x) s = .next t ∧ IndexOutcome (5 * (s.V x).toNat) s t)

/-- `ADD I,Vx` completes when the sum is at most 4095, with no flag, and faults with the sum otherwise (R181, R26; that there is no
flag is the spec's decision D25, log 18, the fault its decision D8, and that the instruction exists is PRESUMED, log 10). -/
def Obligations.AddToIndex : Prop :=
  ∀ (x : RegisterIndex) (s : State),
    (s.idx.toNat + (s.V x).toNat ≤ 4095 → ∃ t, exec (.addI x) s = .next t ∧
      IndexOutcome (s.idx.toNat + (s.V x).toNat) s t) ∧
    (4095 < s.idx.toNat + (s.V x).toNat →
      exec (.addI x) s = .fault (.addressRange (s.idx.toNat + (s.V x).toNat)))

/-- `LD B,Vx` stores the hundreds, tens and ones of `V[x]` at `I`, `I+1`, `I+2` and changes nothing else; when `I + 2` is above
4095 it faults (R183; the fault is the spec's decision D7). -/
def Obligations.StoreBcd : Prop :=
  ∀ (x : RegisterIndex) (s : State),
    (indexAddr s 2 ≤ 4095 → ∃ t, exec (.ldB x) s = .next t ∧
      (t.byteAt (indexAddr s 0)).toNat = (s.V x).toNat / 100 ∧
      (t.byteAt (indexAddr s 1)).toNat = (s.V x).toNat / 10 % 10 ∧
      (t.byteAt (indexAddr s 2)).toNat = (s.V x).toNat % 10 ∧
      SameMemOutside (indexAddr s 0) 3 s t ∧ EndsAt (s.pc + 2#16) t ∧ SameRegs s t ∧ t.idx = s.idx ∧
      SameStack s t ∧ SameDevices s t) ∧
    (4095 < indexAddr s 2 → exec (.ldB x) s = .fault (.addressRange 4096))

/-- `LD [I],Vx` stores `V[0..x]` from `I` on, then `I` is `I + x + 1`; it completes only when `I + x + 1` is at most 4095 and
faults otherwise (R184; the fault is the spec's decision D7, D8). -/
def Obligations.StoreRegisterBlock : Prop :=
  ∀ (x : RegisterIndex) (s : State),
    (indexAfterBlock s x ≤ 4095 → ∃ t, exec (.storeRegs x) s = .next t ∧
      (∀ r : RegisterIndex, r ≤ x → t.byteAt (indexAddr s r.val) = s.V r) ∧
      SameMemOutside (indexAddr s 0) (x.val + 1) s t ∧ t.idx.toNat = indexAfterBlock s x ∧
      EndsAt (s.pc + 2#16) t ∧ SameRegs s t ∧ SameStack s t ∧ SameDevices s t) ∧
    (4095 < indexAfterBlock s x → exec (.storeRegs x) s = .fault (.addressRange 4096))

/-- `LD Vx,[I]` loads `V[0..x]` from `I` on, then `I` is `I + x + 1`; it completes only when `I + x + 1` is at most 4095 and
faults otherwise (R185; the fault is the spec's decision D7, D8). -/
def Obligations.LoadRegisterBlock : Prop :=
  ∀ (x : RegisterIndex) (s : State),
    (indexAfterBlock s x ≤ 4095 → ∃ t, exec (.loadRegs x) s = .next t ∧
      (∀ r : RegisterIndex, r ≤ x → t.V r = s.byteAt (indexAddr s r.val)) ∧
      SameRegsExcept (fun r => r ≤ x) s t ∧ t.idx.toNat = indexAfterBlock s x ∧
      EndsAt (s.pc + 2#16) t ∧ SameStack s t ∧ SameMem s t ∧ SameDevices s t) ∧
    (4095 < indexAfterBlock s x → exec (.loadRegs x) s = .fault (.addressRange 4096))

/-! ## Display, keypad, timers, random -/

/-- `CLS`: every pixel becomes 0, `pc + 2`, nothing else changes; it always completes (R200, R281). -/
def Obligations.ClearScreen : Prop :=
  Encodes 0x00E0 .cls ∧
  ∀ s : State, ∃ t, exec .cls s = .next t ∧ (∀ p, FrameBuffer.isOn t.fb p = false) ∧ EndsAt (s.pc + 2#16) t ∧
    SameRegs s t ∧ t.idx = s.idx ∧ SameStack s t ∧ SameMem s t ∧ SameTimers s t ∧ SameKeys s t ∧ SameSched s t ∧
    SameRandom s t ∧ SameHost s t

/-- `DRW Vx,Vy,n`: every targeted pixel is flipped and no other, `VF` is 1 exactly when a targeted pixel was on, else 0, and
nothing else changes; it completes when `n = 0` or `I + n - 1` is at most 4095 and faults otherwise (R201, R282; the geometry
is the spec's decision D14, the fault D7). -/
def Obligations.DrawSprite : Prop :=
  ∀ (x y : RegisterIndex) (n : Nibble) (s : State),
    ((n.val = 0 ∨ s.idx.toNat + n.val - 1 ≤ 4095) → ∃ t, exec (.drw x y n) s = .next t ∧
      (∀ p, (FrameBuffer.isOn t.fb p = true ↔
        ¬ (FrameBuffer.isOn s.fb p = true ↔
          Targeted s.params (s.V x) (s.V y) (bytesFrom s (indexAddr s 0) n.val) p))) ∧
      ((∃ p, Targeted s.params (s.V x) (s.V y) (bytesFrom s (indexAddr s 0) n.val) p ∧
        FrameBuffer.isOn s.fb p = true) → t.V 15 = 1#8) ∧
      ((¬ ∃ p, Targeted s.params (s.V x) (s.V y) (bytesFrom s (indexAddr s 0) n.val) p ∧
        FrameBuffer.isOn s.fb p = true) → t.V 15 = 0#8) ∧
      SameRegsExcept (fun r => r = 15) s t ∧ EndsAt (s.pc + 2#16) t ∧ t.idx = s.idx ∧ SameStack s t ∧
      SameMem s t ∧ SameTimers s t ∧ SameKeys s t ∧ SameSched s t ∧ SameRandom s t ∧ SameHost s t) ∧
    (1 ≤ n.val → 4095 < s.idx.toNat + n.val - 1 → exec (.drw x y n) s = .fault (.addressRange 4096))

/-- Drawing the same sprite twice at the same place restores every pixel; on a clear screen the first draw reports no collision
and the second reports one exactly when the sprite has a visible 1 bit (R201, 95_test_vectors.md S7). -/
def Obligations.DrawTwiceRestores : Prop :=
  ∀ (px py : Byte) (rows : List Byte) (s : State),
    let first := Cap.draw px py rows s
    let second := Cap.draw px py rows first.2
    (∀ p, FrameBuffer.isOn second.2.fb p = FrameBuffer.isOn s.fb p) ∧
    (s.fb = [] → first.1 = false ∧ (second.1 = true ↔ ∃ p, Targeted s.params px py rows p))

/-- `SKP` and `SKNP` on a key index skip by the key's state and change nothing else; on a value above 15 they are `InvalidKey` with
the whole byte, and nothing else changes (R202, R203, R315; the recoverable error is the spec's decision D12). -/
def Obligations.KeySkips : Prop :=
  ∀ (x : RegisterIndex) (s : State),
    (∀ k : KeyIndex, (s.V x).toNat = k.val →
      (∃ t, exec (.skp x) s = .next t ∧ SkipOutcome (s.keys[k.val] = true) s t) ∧
      (∃ t, exec (.sknp x) s = .next t ∧ SkipOutcome (s.keys[k.val] = false) s t)) ∧
    (15 < (s.V x).toNat →
      exec (.skp x) s = .next (s.setResult (.error (.invalidKey (s.V x)))) ∧
      exec (.sknp x) s = .next (s.setResult (.error (.invalidKey (s.V x)))))

/-- `LD Vx,K`: with no key down nothing changes, not even the pc; with keys down `V[x]` takes the highest index and the pc
advances (R204, R236, R370; that the highest index wins is the spec's decision D13, log 19): it always completes. -/
def Obligations.WaitForKeyTakesHighest : Prop :=
  ∀ (x : RegisterIndex) (s : State),
    ((∀ k : KeyIndex, s.keys[k.val] = false) → exec (.ldVxK x) s = .next (s.setResult .ok)) ∧
    (∀ k : KeyIndex, s.keys[k.val] = true → (∀ j : KeyIndex, s.keys[j.val] = true → j ≤ k) →
      ∃ t, exec (.ldVxK x) s = .next t ∧ (t.V x).toNat = k.val ∧ SameRegsExcept (fun r => r = x) s t ∧
        EndsAt (s.pc + 2#16) t ∧ SameBeyondRegs s t)

/-- `LD Vx,DT` reads the delay timer; `LD DT,Vx` and `LD ST,Vx` write one timer and touch neither the other nor a countdown
(R205, R206, R207): they always complete. -/
def Obligations.TimerAccess : Prop :=
  ∀ (x : RegisterIndex) (s : State),
    (∃ t, exec (.ldVxDT x) s = .next t ∧ t.V x = s.dt ∧ SameRegsExcept (fun r => r = x) s t ∧
      EndsAt (s.pc + 2#16) t ∧ SameBeyondRegs s t) ∧
    (∃ t, exec (.ldDTVx x) s = .next t ∧ t.dt = s.V x ∧ t.st = s.st ∧ EndsAt (s.pc + 2#16) t ∧ SameRegs s t ∧
      t.idx = s.idx ∧ SameStack s t ∧ SameMem s t ∧ SameScreen s t ∧ SameKeys s t ∧ SameSched s t ∧
      SameRandom s t ∧ SameHost s t) ∧
    (∃ t, exec (.ldSTVx x) s = .next t ∧ t.st = s.V x ∧ t.dt = s.dt ∧ EndsAt (s.pc + 2#16) t ∧ SameRegs s t ∧
      t.idx = s.idx ∧ SameStack s t ∧ SameMem s t ∧ SameScreen s t ∧ SameKeys s t ∧ SameSched s t ∧
      SameRandom s t ∧ SameHost s t)

/-- `RND Vx,kk`: exactly one random byte is drawn, masked and stored. The byte is the host's next one, whatever it is; where the
model is given none it is free, and the statement says of it only that there is one (R208; the tape and the free byte are the
model's form, log 7). It always completes. -/
def Obligations.RandomIsMasked : Prop :=
  ∀ (x : RegisterIndex) (kk : Byte) (s : State), ∃ (r : Byte) (t : State), exec (.rnd x kk) s = .next t ∧
    t.V x = r &&& kk ∧ (∀ r' rest, s.randomTape = r' :: rest → r = r' ∧ t.randomTape = rest) ∧
    (s.randomTape = [] → t.randomTape = []) ∧ t.randomDraws = s.randomDraws + 1 ∧
    SameRegsExcept (fun j => j = x) s t ∧ EndsAt (s.pc + 2#16) t ∧ t.idx = s.idx ∧ SameStack s t ∧ SameMem s t ∧
    SameScreen s t ∧ SameTimers s t ∧ SameKeys s t ∧ SameSched s t ∧ SameHost s t

/-- The queries and writes of the capability interface as the default backend answers them: `get_delay`, `set_delay`,
`set_sound`, `is_pressed` (R283, R284, R285, R286). -/
def Obligations.CapabilityCalls : Prop :=
  ∀ (s : State) (v : Byte) (k : KeyIndex), Cap.getDelay s = s.dt ∧
    ((Cap.setDelay v s).dt = v ∧ Cap.getDelay (Cap.setDelay v s) = v ∧ Cap.setDelay v s = { s with dt := v } ∧
      (Cap.setDelay v s).cD = s.cD) ∧
    ((Cap.setSound v s).st = v ∧ Cap.setSound v s = { s with st := v } ∧ (Cap.setSound v s).cS = s.cS) ∧
    Cap.isPressed k s = s.keys[k.val]

/-! ## Promises over all instructions -/

/-- The pc policy: the pc after every instruction that goes on is the one of the table (R24; its rows for `RET` and for errors rest
on the spec's decisions D24 and D11, logs 18 and 6, and the row of `JP V0,nnn` on D6, log 9). -/
def Obligations.PcPolicy : Prop :=
  ∀ (i : Instr) (s t : State), exec i s = .next t → t.pc = pcAfter i s

/-- An instruction faults in exactly the cases the spec lists, and the fault is always `AddressRange` of an address or index above
4095 (R63, R26, R318; the faults are the spec's decisions D7, D8). -/
def Obligations.FaultsAreExactlyTheRangeCases : Prop :=
  ∀ (i : Instr) (s : State), ((∃ f, exec i s = .fault f) ↔ Faults i s) ∧
    ∀ f, exec i s = .fault f → ∃ a, f = .addressRange a ∧ 4095 < a

/-- CPU state changes only where the table of reads and writes says: registers, index register, call stack, memory (R22, R25,
R27, R28; that nine instructions write `VF`, the ones R21 names and not "ten", is DEDUCED, log 16, and that what a rule does not
assign is unchanged is the spec's decision D35, log 20). -/
def Obligations.CpuWritesAreTheTable : Prop :=
  ∀ (i : Instr) (s t : State), exec i s = .next t →
    (∀ r, ¬ Writes i r → t.V r = s.V r) ∧ (writesIndex i = false → t.idx = s.idx) ∧
    ((∀ nnn, i ≠ .call nnn) → i ≠ .ret → SameStack s t) ∧
    SameMemOutside (indexAddr s 0) (storedBytes i) s t

/-- Device and scheduler state changes only where the spec says: the frame buffer by `CLS` and `DRW`, `DT` by `LD DT,Vx`, `ST` by
`LD ST,Vx`, the random source by `RND`; the keypad, the last key, the countdowns, the parameters and the host's moves by no
instruction (R29 to R34, R15). -/
def Obligations.DeviceWritesAreTheTable : Prop :=
  ∀ (i : Instr) (s t : State), exec i s = .next t →
    (i ≠ .cls → (∀ x y n, i ≠ .drw x y n) → t.fb = s.fb) ∧ ((∀ x, i ≠ .ldDTVx x) → t.dt = s.dt) ∧
    ((∀ x, i ≠ .ldSTVx x) → t.st = s.st) ∧ ((∀ x kk, i ≠ .rnd x kk) → SameRandom s t) ∧
    SameKeys s t ∧ SameSched s t ∧ SameHost s t

/-- The most recent write is what a read returns, every other address is left alone, and writing the value a cell already holds
changes nothing (R71, R66). -/
def Obligations.ReadsReturnTheLastWrite : Prop :=
  ∀ (a : Nat) (v : Byte) (s : State), a < Config.memSize →
    ∃ t, memWrite a v s = .ok t ∧ memRead a t = .ok v ∧ (∀ b, b ≠ a → memRead b t = memRead b s) ∧
      t = s.setMem t.mem ∧ (Memory.wf s.mem = true → memRead a s = .ok v → t = s)

/-! ## The scheduler -/

/-- A tick decrements its timer by 1 if nonzero, floor at 0, restarts its countdown, and leaves the other timer alone (R255). -/
def Obligations.TicksFloorAtZero : Prop :=
  ∀ s : State,
    (s.cD = 0 → (delayTick s).dt.toNat = (if 0 < s.dt.toNat then s.dt.toNat - 1 else 0) ∧
      (delayTick s).cD = s.params.periodD ∧
      delayTick s = { s with dt := (delayTick s).dt, cD := s.params.periodD }) ∧
    (s.cS = 0 → (soundTick s).st.toNat = (if 0 < s.st.toNat then s.st.toNat - 1 else 0) ∧
      (soundTick s).cS = s.params.periodS ∧
      soundTick s = { s with st := (soundTick s).st, cS := s.params.periodS })

/-- A duration of 0, or one smaller than all three countdowns, only reduces the countdowns and fires no event (R253, R257 a; the
case of 0 is the spec's decision D17). -/
def Obligations.ShortAdvanceFiresNothing : Prop :=
  ∀ (d : Nat) (s : State), s.params.periodsWf = true →
    (d = 0 ∨ (d < s.cI ∧ d < s.cD ∧ d < s.cS)) →
    advance d s = .next ((s.setCountdowns (s.cI - d) (s.cD - d) (s.cS - d)).setResult .ok)

/-- What `advance` does at the next instant at which one, two or three countdowns run out, `m` time units on (`m` is 0 after an
error). If the instruction countdown does not, the ticks that are due are done and nothing else. If it does, the instruction runs
first, on the state before the ticks: if it returns `ok` its countdown restarts, the ticks that are due are done after it, and
the duration goes on; if it ends in an error, `advance` returns that very state, with none of the ticks of the instant done
(R252 to R258; the order is the spec's decision D18, log 14, a countdown that runs out at the end of the duration fires by D17,
and the error case is D20, log 15). -/
def Obligations.TiesRunInstructionFirst : Prop :=
  ∀ (m d : Nat) (s : State), s.params.periodsWf = true → NextInstant m d s →
    (m < s.cI → ∃ t, TicksDone m s s t ∧ t.cI = s.cI - m ∧ GoesOnFrom m d s t) ∧
    (s.cI = m → ∀ u, executeNext (s.setCountdowns 0 (s.cD - m) (s.cS - m)) = .next u →
      (u.result = .ok → ∃ t, TicksDone m s u t ∧ t.cI = s.params.periodI ∧ GoesOnFrom m d s t) ∧
      (u.result ≠ .ok → advance d s = .next u))

/-- After an `advance` that returned `ok` every countdown is in `1 .. period`, whatever the countdowns were at its start when time
passed, and when they were in range at its start in any case (R33, R257 b; the latter is the spec's decision D17). -/
def Obligations.AdvanceLeavesCountdownsReady : Prop :=
  ∀ (d : Nat) (s t : State), s.cI ≤ s.params.periodI → s.cD ≤ s.params.periodD → s.cS ≤ s.params.periodS →
    advance d s = .next t → t.result = .ok → (1 ≤ d ∨ CountdownsReady s) → CountdownsReady t

/-- Where each countdown stands after an error-free `advance(d)` (R260; that a countdown which runs out exactly at the end of the
duration fires in that call, and so stands at its period and not at 0, is the spec's decision D17, log 14). -/
def Obligations.AdvanceCountdownFormula : Prop :=
  ∀ (d : Nat) (s t : State), CountdownsReady s → advance d s = .next t → t.result = .ok →
    t.cI = countdownAfter s.params.periodI s.cI d ∧ t.cD = countdownAfter s.params.periodD s.cD d ∧
    t.cS = countdownAfter s.params.periodS s.cS d

/-- Split invariance: an error-free `advance(d1 + d2)` ends in the very state that `advance(d1)` and then `advance(d2)` end in, and
both of those are error-free. One that ends in an error ends so too: either `advance(d1)` is error-free and `advance(d2)` then
ends in the same error and state, or `advance(d1)` itself does, and then `advance(d2)` with `d2` above 0 fails again in that very
state, having consumed nothing (R259; the error runs rest on the spec's decisions D11 and D20, logs 6 and 15, and `advance(0)` on
D17, log 14). The random source is deterministic in the model: tape and counter are part of the state. -/
def Obligations.SplitInvariance : Prop :=
  ∀ (d1 d2 : Nat) (s t : State), advance (d1 + d2) s = .next t →
    (t.result = .ok → ∃ u, advance d1 s = .next u ∧ u.result = .ok ∧ advance d2 u = .next t) ∧
    (∀ e, t.result = .error e →
      (∃ u, advance d1 s = .next u ∧ u.result = .ok ∧ advance d2 u = .next t) ∨
      (advance d1 s = .next t ∧ (1 ≤ d2 → advance d2 t = .next t)))

/-- The scheduler passes the error of the failing instruction on unchanged, at once. When the instruction is due at the next
instant, `m` time units on, and `execute_next` there, on the state with the three countdowns `m` lower, ends in an error or a
fault, then the whole `advance` ends in that very state or that very fault: the ticks of the instant are not done, the
instruction countdown is still 0, the rest of the duration is dropped (R321, R258; all but "unchanged" is the spec's decision D20,
log 15). And every error or fault of an `advance` is one of an `execute_next` with the instruction countdown at 0. -/
def Obligations.AdvancePassesErrorsOn : Prop :=
  ∀ (d : Nat) (s : State), s.params.periodsWf = true →
    (∀ m, NextInstant m d s → s.cI = m →
      (∀ (u : State) (e : ErrorKind), executeNext (s.setCountdowns 0 (s.cD - m) (s.cS - m)) = .next u →
        u.result = .error e →
        advance d s = .next u ∧ u = (s.setCountdowns 0 (s.cD - m) (s.cS - m)).setResult (.error e)) ∧
      (∀ f, executeNext (s.setCountdowns 0 (s.cD - m) (s.cS - m)) = .fault f → advance d s = .fault f)) ∧
    (∀ (t : State) (e : ErrorKind), advance d s = .next t → t.result = .error e →
      t.cI = 0 ∧ ∃ u, u.cI = 0 ∧ executeNext u = .next t) ∧
    (∀ f, advance d s = .fault f → ∃ u, u.cI = 0 ∧ executeNext u = .fault f)

/-- `advance` terminates by itself: a larger bound on the number of iterations changes nothing (R261); a period of 0 is refused by
name (R251; the refusal is U10's treatment). -/
def Obligations.AdvanceTerminates : Prop :=
  ∀ (d : Nat) (s : State),
    (s.params.periodsWf = true → ∀ extra, advanceLoop (d + 2 + extra) d (s.setResult .ok) = advance d s) ∧
    (s.params.periodsWf = false → advance d s = .refused .zeroPeriod)

/-! ## Host, reset, invariant -/

/-- `set_key_down(k)` and `set_key_up(k)` as moves of the host between transactions: the one key changes, `set_key_down` records it
as the last key, and nothing else changes; what `last_key` is after a release is left open (R296). -/
def Obligations.HostKeyEvents : Prop :=
  ∀ (k : KeyIndex) (rest : List HostMove) (s : State),
    (s.hostMoves = .keyDown k :: rest → ∃ t, step s = .next t ∧
      (∀ j : KeyIndex, t.keys[j.val] = if j = k then true else s.keys[j.val]) ∧ t.lastKey = some k ∧
      t = { s with keys := t.keys, lastKey := t.lastKey, hostMoves := rest }) ∧
    (s.hostMoves = .keyUp k :: rest → ∃ t, step s = .next t ∧
      (∀ j : KeyIndex, t.keys[j.val] = if j = k then false else s.keys[j.val]) ∧
      t = { s with keys := t.keys, lastKey := t.lastKey, hostMoves := rest, keyUps := t.keyUps })

/-- The keypad is written by the host's key moves only: every other step, a whole `advance` included, leaves keypad and last key
as they are, and no step changes the parameters (R31, R32, R34). -/
def Obligations.OnlyTheHostWritesTheKeypad : Prop :=
  ∀ s t : State, step s = .next t → t.params = s.params ∧
    ((∀ k rest, s.hostMoves ≠ .keyDown k :: rest ∧ s.hostMoves ≠ .keyUp k :: rest) → SameKeys s t)

/-- The last-pressed key influences nothing that a transaction computes: with another value of it, `execute_next` and a whole
`advance` end in the same state but for that value, in the same fault, or in the same refusal (R32). -/
def Obligations.LastKeyInfluencesNothing : Prop :=
  ∀ (s : State) (o : Option KeyIndex),
    (∀ t, executeNext s = .next t → executeNext (s.setLastKey o) = .next (t.setLastKey o)) ∧
    (∀ f, executeNext s = .fault f ↔ executeNext (s.setLastKey o) = .fault f) ∧
    (∀ r, executeNext s = .refused r ↔ executeNext (s.setLastKey o) = .refused r) ∧
    ∀ d, (∀ t, advance d s = .next t → advance d (s.setLastKey o) = .next (t.setLastKey o)) ∧
      (∀ f, advance d s = .fault f ↔ advance d (s.setLastKey o) = .fault f) ∧
      (∀ r, advance d s = .refused r ↔ advance d (s.setLastKey o) = .refused r)

/-- What construction leaves: `pc = ENTRY`, memory `MEM0`, the countdowns at their periods, everything else zero, clear, released or
empty (R38; all but the pc and memory are the spec's decisions D15, D19, log 2). -/
def Obligations.ConstructionLeavesResetValues : Prop :=
  ∀ (p : Params) (entry : Address) (mem0 : Memory),
    let s := State.construct p entry mem0
    s.pc.toNat = entry.toNat ∧ s.mem = mem0 ∧ (∀ r, s.V r = 0#8) ∧ s.idx = 0#12 ∧ s.sp.val = 0 ∧
    (∀ j : Fin 16, s.stack[j.val] = 0#16) ∧ s.dt = 0#8 ∧ s.st = 0#8 ∧ (∀ q, FrameBuffer.isOn s.fb q = false) ∧
    (∀ k : KeyIndex, s.keys[k.val] = false) ∧ s.lastKey = none ∧ s.cI = p.periodI ∧ s.cD = p.periodD ∧
    s.cS = p.periodS

/-- The memory of an image: the payload from the entry address on, the font given, whatever its bytes, and zeros elsewhere; it is
canonical when the payload fits. With the default font and no payload it is the memory of `State.reset`, which lists nothing
(R69; the composition is the spec's decision D4, D5, the bytes of the default font are PRESUMED, log 3). -/
def Obligations.ImageMemoryIsPayloadOverFont : Prop :=
  (∀ (font : Font) (entry : Address) (payload : List Byte), entry.toNat + payload.length ≤ Config.memSize →
    Memory.wf (imageMemory font entry payload) = true ∧
    (∀ j, j < payload.length → Memory.read (imageMemory font entry payload) (entry.toNat + j) = payload.getD j 0#8) ∧
    (∀ a, (a < entry.toNat ∨ entry.toNat + payload.length ≤ a) →
      Memory.read (imageMemory font entry payload) a = if h : a < 80 then font[a] else 0#8)) ∧
  State.reset.mem = imageMemory defaultFont defaultEntry []

/-- The invariant holds right after construction, for admitted parameters and canonical memory, and at `State.reset` (R37, R38; the
reset values are the spec's decisions D15 and D19, log 2, and the parameters and the entry address of `State.reset` are the
model's choice, logs 1 and 5). -/
def Obligations.ConstructionMeetsInvariant : Prop :=
  (∀ (p : Params) (entry : Address) (mem0 : Memory), p.wf = true → Memory.wf mem0 = true →
    (State.construct p entry mem0).Inv) ∧ State.reset.Inv

/-- Every step keeps the invariant, from every state that meets it: instructions, errors, host moves, a whole `advance`
(R37). -/
def Obligations.StepKeepsInvariant : Prop :=
  ∀ s t : State, s.Inv → step s = .next t → t.Inv
end

