-- ==== Sys2Proof/Laws/FrameBuffer.lean ====
section
/-! SUPPORT. The laws of the frame buffer: a toggle flips its own pixel and no other, and keeps the canonical form. -/

namespace Sys2Proof.Machine.FrameBuffer

theorem mem_insert (fb : FrameBuffer) (p q : Pixel) : q ∈ FrameBuffer.insert p fb ↔ q = p ∨ q ∈ fb := by
  induction fb with
  | nil => simp [insert]
  | cons r fb ih =>
    simp only [insert]
    split
    · simp
    · simp [ih]; tauto

/-- `fb[py][px] ^ 1` changes one pixel (R282). -/
theorem isOn_toggle (fb : FrameBuffer) (p q : Pixel) :
    (FrameBuffer.toggle fb p).isOn q = if p = q then !fb.isOn q else fb.isOn q := by
  unfold toggle
  split
  · rename_i h
    by_cases hpq : p = q
    · subst hpq; simpa [isOn] using h
    · have : q ≠ p := fun e => hpq e.symm
      simp [isOn, hpq, this]
  · rename_i h
    by_cases hpq : p = q
    · subst hpq
      have : p ∉ fb := by simpa [isOn] using h
      simp [isOn, mem_insert, this]
    · have : q ≠ p := fun e => hpq e.symm
      simp [isOn, mem_insert, hpq, this]

theorem before_iff (p q : Pixel) : p.before q = true ↔ p.py < q.py ∨ (p.py = q.py ∧ p.px < q.px) := by
  simp [Pixel.before]

theorem wf_iff (w h : Nat) (fb : FrameBuffer) :
    FrameBuffer.wf w h fb = true ↔ fb.Pairwise (fun p q => p.before q = true) ∧
      ∀ p ∈ fb, p.px < w ∧ p.py < h := by
  simp [wf]

theorem insert_rising (fb : FrameBuffer) (p : Pixel) (h : fb.Pairwise (fun p q => p.before q = true))
    (hp : p ∉ fb) : (FrameBuffer.insert p fb).Pairwise (fun p q => p.before q = true) := by
  induction fb with
  | nil => simp [insert]
  | cons r fb ih =>
    rw [List.pairwise_cons] at h
    have hr : r ≠ p := fun e => hp (by simp [e])
    simp only [insert]
    split
    · rename_i hlt
      refine List.pairwise_cons.mpr ⟨?_, List.pairwise_cons.mpr h⟩
      intro q hq
      rcases List.mem_cons.mp hq with rfl | hq
      · exact hlt
      · have := h.1 q hq
        rw [before_iff] at *
        omega
    · rename_i hlt
      refine List.pairwise_cons.mpr ⟨?_, ih h.2 fun hm => hp (by simp [hm])⟩
      intro q hq
      rcases (mem_insert fb p q).mp hq with rfl | hq
      · have hne : ¬ (r.py = q.py ∧ r.px = q.px) := fun ⟨a, b⟩ => hr (by cases r; cases q; simp_all)
        have hlt' : ¬ (q.py < r.py ∨ (q.py = r.py ∧ q.px < r.px)) := by simpa [← before_iff] using hlt
        rw [before_iff]
        omega
      · exact h.1 q hq

/-- A toggle on the screen keeps the canonical form. -/
theorem toggle_wf (w h : Nat) (fb : FrameBuffer) (p : Pixel) (hp : p.px < w ∧ p.py < h)
    (hfb : FrameBuffer.wf w h fb = true) : FrameBuffer.wf w h (FrameBuffer.toggle fb p) = true := by
  rw [wf_iff] at hfb ⊢
  unfold toggle
  split
  · exact ⟨hfb.1.filter _, fun q hq => hfb.2 q (List.mem_filter.mp hq).1⟩
  · rename_i hn
    refine ⟨insert_rising fb p hfb.1 (by simpa [isOn] using hn), ?_⟩
    intro q hq
    rcases (mem_insert fb p q).mp hq with rfl | hq
    · exact hp
    · exact hfb.2 q hq

end Sys2Proof.Machine.FrameBuffer
end

