-- ==== Sys2Proof/Laws/State.lean ====
section
/-! SUPPORT. One lemma per field per update of State, each true by rfl: no later proof unfolds a record update. -/

namespace Sys2Proof.Machine.State

@[simp] theorem setV_regs (s : State) (i : RegisterIndex) (v : Byte) : (s.setV i v).regs = s.regs.set i.val v i.isLt := rfl
@[simp] theorem setV_idx (s : State) (i : RegisterIndex) (v : Byte) : (s.setV i v).idx = s.idx := rfl
@[simp] theorem setV_pc (s : State) (i : RegisterIndex) (v : Byte) : (s.setV i v).pc = s.pc := rfl
@[simp] theorem setV_sp (s : State) (i : RegisterIndex) (v : Byte) : (s.setV i v).sp = s.sp := rfl
@[simp] theorem setV_stack (s : State) (i : RegisterIndex) (v : Byte) : (s.setV i v).stack = s.stack := rfl
@[simp] theorem setV_mem (s : State) (i : RegisterIndex) (v : Byte) : (s.setV i v).mem = s.mem := rfl
@[simp] theorem setV_dt (s : State) (i : RegisterIndex) (v : Byte) : (s.setV i v).dt = s.dt := rfl
@[simp] theorem setV_st (s : State) (i : RegisterIndex) (v : Byte) : (s.setV i v).st = s.st := rfl
@[simp] theorem setV_fb (s : State) (i : RegisterIndex) (v : Byte) : (s.setV i v).fb = s.fb := rfl
@[simp] theorem setV_keys (s : State) (i : RegisterIndex) (v : Byte) : (s.setV i v).keys = s.keys := rfl
@[simp] theorem setV_lastKey (s : State) (i : RegisterIndex) (v : Byte) : (s.setV i v).lastKey = s.lastKey := rfl
@[simp] theorem setV_cI (s : State) (i : RegisterIndex) (v : Byte) : (s.setV i v).cI = s.cI := rfl
@[simp] theorem setV_cD (s : State) (i : RegisterIndex) (v : Byte) : (s.setV i v).cD = s.cD := rfl
@[simp] theorem setV_cS (s : State) (i : RegisterIndex) (v : Byte) : (s.setV i v).cS = s.cS := rfl
@[simp] theorem setV_params (s : State) (i : RegisterIndex) (v : Byte) : (s.setV i v).params = s.params := rfl
@[simp] theorem setV_result (s : State) (i : RegisterIndex) (v : Byte) : (s.setV i v).result = s.result := rfl
@[simp] theorem setV_hostMoves (s : State) (i : RegisterIndex) (v : Byte) : (s.setV i v).hostMoves = s.hostMoves := rfl
@[simp] theorem setV_randomTape (s : State) (i : RegisterIndex) (v : Byte) : (s.setV i v).randomTape = s.randomTape := rfl
@[simp] theorem setV_randomDraws (s : State) (i : RegisterIndex) (v : Byte) : (s.setV i v).randomDraws = s.randomDraws := rfl
@[simp] theorem setV_keyUps (s : State) (i : RegisterIndex) (v : Byte) : (s.setV i v).keyUps = s.keyUps := rfl

@[simp] theorem setIdx_regs (s : State) (a : Address) : (s.setIdx a).regs = s.regs := rfl
@[simp] theorem setIdx_idx (s : State) (a : Address) : (s.setIdx a).idx = a := rfl
@[simp] theorem setIdx_pc (s : State) (a : Address) : (s.setIdx a).pc = s.pc := rfl
@[simp] theorem setIdx_sp (s : State) (a : Address) : (s.setIdx a).sp = s.sp := rfl
@[simp] theorem setIdx_stack (s : State) (a : Address) : (s.setIdx a).stack = s.stack := rfl
@[simp] theorem setIdx_mem (s : State) (a : Address) : (s.setIdx a).mem = s.mem := rfl
@[simp] theorem setIdx_dt (s : State) (a : Address) : (s.setIdx a).dt = s.dt := rfl
@[simp] theorem setIdx_st (s : State) (a : Address) : (s.setIdx a).st = s.st := rfl
@[simp] theorem setIdx_fb (s : State) (a : Address) : (s.setIdx a).fb = s.fb := rfl
@[simp] theorem setIdx_keys (s : State) (a : Address) : (s.setIdx a).keys = s.keys := rfl
@[simp] theorem setIdx_lastKey (s : State) (a : Address) : (s.setIdx a).lastKey = s.lastKey := rfl
@[simp] theorem setIdx_cI (s : State) (a : Address) : (s.setIdx a).cI = s.cI := rfl
@[simp] theorem setIdx_cD (s : State) (a : Address) : (s.setIdx a).cD = s.cD := rfl
@[simp] theorem setIdx_cS (s : State) (a : Address) : (s.setIdx a).cS = s.cS := rfl
@[simp] theorem setIdx_params (s : State) (a : Address) : (s.setIdx a).params = s.params := rfl
@[simp] theorem setIdx_result (s : State) (a : Address) : (s.setIdx a).result = s.result := rfl
@[simp] theorem setIdx_hostMoves (s : State) (a : Address) : (s.setIdx a).hostMoves = s.hostMoves := rfl
@[simp] theorem setIdx_randomTape (s : State) (a : Address) : (s.setIdx a).randomTape = s.randomTape := rfl
@[simp] theorem setIdx_randomDraws (s : State) (a : Address) : (s.setIdx a).randomDraws = s.randomDraws := rfl
@[simp] theorem setIdx_keyUps (s : State) (a : Address) : (s.setIdx a).keyUps = s.keyUps := rfl

@[simp] theorem setPc_regs (s : State) (t : Word16) : (s.setPc t).regs = s.regs := rfl
@[simp] theorem setPc_idx (s : State) (t : Word16) : (s.setPc t).idx = s.idx := rfl
@[simp] theorem setPc_pc (s : State) (t : Word16) : (s.setPc t).pc = t := rfl
@[simp] theorem setPc_sp (s : State) (t : Word16) : (s.setPc t).sp = s.sp := rfl
@[simp] theorem setPc_stack (s : State) (t : Word16) : (s.setPc t).stack = s.stack := rfl
@[simp] theorem setPc_mem (s : State) (t : Word16) : (s.setPc t).mem = s.mem := rfl
@[simp] theorem setPc_dt (s : State) (t : Word16) : (s.setPc t).dt = s.dt := rfl
@[simp] theorem setPc_st (s : State) (t : Word16) : (s.setPc t).st = s.st := rfl
@[simp] theorem setPc_fb (s : State) (t : Word16) : (s.setPc t).fb = s.fb := rfl
@[simp] theorem setPc_keys (s : State) (t : Word16) : (s.setPc t).keys = s.keys := rfl
@[simp] theorem setPc_lastKey (s : State) (t : Word16) : (s.setPc t).lastKey = s.lastKey := rfl
@[simp] theorem setPc_cI (s : State) (t : Word16) : (s.setPc t).cI = s.cI := rfl
@[simp] theorem setPc_cD (s : State) (t : Word16) : (s.setPc t).cD = s.cD := rfl
@[simp] theorem setPc_cS (s : State) (t : Word16) : (s.setPc t).cS = s.cS := rfl
@[simp] theorem setPc_params (s : State) (t : Word16) : (s.setPc t).params = s.params := rfl
@[simp] theorem setPc_result (s : State) (t : Word16) : (s.setPc t).result = s.result := rfl
@[simp] theorem setPc_hostMoves (s : State) (t : Word16) : (s.setPc t).hostMoves = s.hostMoves := rfl
@[simp] theorem setPc_randomTape (s : State) (t : Word16) : (s.setPc t).randomTape = s.randomTape := rfl
@[simp] theorem setPc_randomDraws (s : State) (t : Word16) : (s.setPc t).randomDraws = s.randomDraws := rfl
@[simp] theorem setPc_keyUps (s : State) (t : Word16) : (s.setPc t).keyUps = s.keyUps := rfl

@[simp] theorem setStack_regs (s : State) (k : Vector Word16 16) (p : Fin 17) : (s.setStack k p).regs = s.regs := rfl
@[simp] theorem setStack_idx (s : State) (k : Vector Word16 16) (p : Fin 17) : (s.setStack k p).idx = s.idx := rfl
@[simp] theorem setStack_pc (s : State) (k : Vector Word16 16) (p : Fin 17) : (s.setStack k p).pc = s.pc := rfl
@[simp] theorem setStack_sp (s : State) (k : Vector Word16 16) (p : Fin 17) : (s.setStack k p).sp = p := rfl
@[simp] theorem setStack_stack (s : State) (k : Vector Word16 16) (p : Fin 17) : (s.setStack k p).stack = k := rfl
@[simp] theorem setStack_mem (s : State) (k : Vector Word16 16) (p : Fin 17) : (s.setStack k p).mem = s.mem := rfl
@[simp] theorem setStack_dt (s : State) (k : Vector Word16 16) (p : Fin 17) : (s.setStack k p).dt = s.dt := rfl
@[simp] theorem setStack_st (s : State) (k : Vector Word16 16) (p : Fin 17) : (s.setStack k p).st = s.st := rfl
@[simp] theorem setStack_fb (s : State) (k : Vector Word16 16) (p : Fin 17) : (s.setStack k p).fb = s.fb := rfl
@[simp] theorem setStack_keys (s : State) (k : Vector Word16 16) (p : Fin 17) : (s.setStack k p).keys = s.keys := rfl
@[simp] theorem setStack_lastKey (s : State) (k : Vector Word16 16) (p : Fin 17) : (s.setStack k p).lastKey = s.lastKey := rfl
@[simp] theorem setStack_cI (s : State) (k : Vector Word16 16) (p : Fin 17) : (s.setStack k p).cI = s.cI := rfl
@[simp] theorem setStack_cD (s : State) (k : Vector Word16 16) (p : Fin 17) : (s.setStack k p).cD = s.cD := rfl
@[simp] theorem setStack_cS (s : State) (k : Vector Word16 16) (p : Fin 17) : (s.setStack k p).cS = s.cS := rfl
@[simp] theorem setStack_params (s : State) (k : Vector Word16 16) (p : Fin 17) : (s.setStack k p).params = s.params := rfl
@[simp] theorem setStack_result (s : State) (k : Vector Word16 16) (p : Fin 17) : (s.setStack k p).result = s.result := rfl
@[simp] theorem setStack_hostMoves (s : State) (k : Vector Word16 16) (p : Fin 17) : (s.setStack k p).hostMoves = s.hostMoves := rfl
@[simp] theorem setStack_randomTape (s : State) (k : Vector Word16 16) (p : Fin 17) : (s.setStack k p).randomTape = s.randomTape := rfl
@[simp] theorem setStack_randomDraws (s : State) (k : Vector Word16 16) (p : Fin 17) : (s.setStack k p).randomDraws = s.randomDraws := rfl
@[simp] theorem setStack_keyUps (s : State) (k : Vector Word16 16) (p : Fin 17) : (s.setStack k p).keyUps = s.keyUps := rfl

@[simp] theorem setMem_regs (s : State) (m : Memory) : (s.setMem m).regs = s.regs := rfl
@[simp] theorem setMem_idx (s : State) (m : Memory) : (s.setMem m).idx = s.idx := rfl
@[simp] theorem setMem_pc (s : State) (m : Memory) : (s.setMem m).pc = s.pc := rfl
@[simp] theorem setMem_sp (s : State) (m : Memory) : (s.setMem m).sp = s.sp := rfl
@[simp] theorem setMem_stack (s : State) (m : Memory) : (s.setMem m).stack = s.stack := rfl
@[simp] theorem setMem_mem (s : State) (m : Memory) : (s.setMem m).mem = m := rfl
@[simp] theorem setMem_dt (s : State) (m : Memory) : (s.setMem m).dt = s.dt := rfl
@[simp] theorem setMem_st (s : State) (m : Memory) : (s.setMem m).st = s.st := rfl
@[simp] theorem setMem_fb (s : State) (m : Memory) : (s.setMem m).fb = s.fb := rfl
@[simp] theorem setMem_keys (s : State) (m : Memory) : (s.setMem m).keys = s.keys := rfl
@[simp] theorem setMem_lastKey (s : State) (m : Memory) : (s.setMem m).lastKey = s.lastKey := rfl
@[simp] theorem setMem_cI (s : State) (m : Memory) : (s.setMem m).cI = s.cI := rfl
@[simp] theorem setMem_cD (s : State) (m : Memory) : (s.setMem m).cD = s.cD := rfl
@[simp] theorem setMem_cS (s : State) (m : Memory) : (s.setMem m).cS = s.cS := rfl
@[simp] theorem setMem_params (s : State) (m : Memory) : (s.setMem m).params = s.params := rfl
@[simp] theorem setMem_result (s : State) (m : Memory) : (s.setMem m).result = s.result := rfl
@[simp] theorem setMem_hostMoves (s : State) (m : Memory) : (s.setMem m).hostMoves = s.hostMoves := rfl
@[simp] theorem setMem_randomTape (s : State) (m : Memory) : (s.setMem m).randomTape = s.randomTape := rfl
@[simp] theorem setMem_randomDraws (s : State) (m : Memory) : (s.setMem m).randomDraws = s.randomDraws := rfl
@[simp] theorem setMem_keyUps (s : State) (m : Memory) : (s.setMem m).keyUps = s.keyUps := rfl

@[simp] theorem setFb_regs (s : State) (f : FrameBuffer) : (s.setFb f).regs = s.regs := rfl
@[simp] theorem setFb_idx (s : State) (f : FrameBuffer) : (s.setFb f).idx = s.idx := rfl
@[simp] theorem setFb_pc (s : State) (f : FrameBuffer) : (s.setFb f).pc = s.pc := rfl
@[simp] theorem setFb_sp (s : State) (f : FrameBuffer) : (s.setFb f).sp = s.sp := rfl
@[simp] theorem setFb_stack (s : State) (f : FrameBuffer) : (s.setFb f).stack = s.stack := rfl
@[simp] theorem setFb_mem (s : State) (f : FrameBuffer) : (s.setFb f).mem = s.mem := rfl
@[simp] theorem setFb_dt (s : State) (f : FrameBuffer) : (s.setFb f).dt = s.dt := rfl
@[simp] theorem setFb_st (s : State) (f : FrameBuffer) : (s.setFb f).st = s.st := rfl
@[simp] theorem setFb_fb (s : State) (f : FrameBuffer) : (s.setFb f).fb = f := rfl
@[simp] theorem setFb_keys (s : State) (f : FrameBuffer) : (s.setFb f).keys = s.keys := rfl
@[simp] theorem setFb_lastKey (s : State) (f : FrameBuffer) : (s.setFb f).lastKey = s.lastKey := rfl
@[simp] theorem setFb_cI (s : State) (f : FrameBuffer) : (s.setFb f).cI = s.cI := rfl
@[simp] theorem setFb_cD (s : State) (f : FrameBuffer) : (s.setFb f).cD = s.cD := rfl
@[simp] theorem setFb_cS (s : State) (f : FrameBuffer) : (s.setFb f).cS = s.cS := rfl
@[simp] theorem setFb_params (s : State) (f : FrameBuffer) : (s.setFb f).params = s.params := rfl
@[simp] theorem setFb_result (s : State) (f : FrameBuffer) : (s.setFb f).result = s.result := rfl
@[simp] theorem setFb_hostMoves (s : State) (f : FrameBuffer) : (s.setFb f).hostMoves = s.hostMoves := rfl
@[simp] theorem setFb_randomTape (s : State) (f : FrameBuffer) : (s.setFb f).randomTape = s.randomTape := rfl
@[simp] theorem setFb_randomDraws (s : State) (f : FrameBuffer) : (s.setFb f).randomDraws = s.randomDraws := rfl
@[simp] theorem setFb_keyUps (s : State) (f : FrameBuffer) : (s.setFb f).keyUps = s.keyUps := rfl

@[simp] theorem setDT_regs (s : State) (v : Byte) : (s.setDT v).regs = s.regs := rfl
@[simp] theorem setDT_idx (s : State) (v : Byte) : (s.setDT v).idx = s.idx := rfl
@[simp] theorem setDT_pc (s : State) (v : Byte) : (s.setDT v).pc = s.pc := rfl
@[simp] theorem setDT_sp (s : State) (v : Byte) : (s.setDT v).sp = s.sp := rfl
@[simp] theorem setDT_stack (s : State) (v : Byte) : (s.setDT v).stack = s.stack := rfl
@[simp] theorem setDT_mem (s : State) (v : Byte) : (s.setDT v).mem = s.mem := rfl
@[simp] theorem setDT_dt (s : State) (v : Byte) : (s.setDT v).dt = v := rfl
@[simp] theorem setDT_st (s : State) (v : Byte) : (s.setDT v).st = s.st := rfl
@[simp] theorem setDT_fb (s : State) (v : Byte) : (s.setDT v).fb = s.fb := rfl
@[simp] theorem setDT_keys (s : State) (v : Byte) : (s.setDT v).keys = s.keys := rfl
@[simp] theorem setDT_lastKey (s : State) (v : Byte) : (s.setDT v).lastKey = s.lastKey := rfl
@[simp] theorem setDT_cI (s : State) (v : Byte) : (s.setDT v).cI = s.cI := rfl
@[simp] theorem setDT_cD (s : State) (v : Byte) : (s.setDT v).cD = s.cD := rfl
@[simp] theorem setDT_cS (s : State) (v : Byte) : (s.setDT v).cS = s.cS := rfl
@[simp] theorem setDT_params (s : State) (v : Byte) : (s.setDT v).params = s.params := rfl
@[simp] theorem setDT_result (s : State) (v : Byte) : (s.setDT v).result = s.result := rfl
@[simp] theorem setDT_hostMoves (s : State) (v : Byte) : (s.setDT v).hostMoves = s.hostMoves := rfl
@[simp] theorem setDT_randomTape (s : State) (v : Byte) : (s.setDT v).randomTape = s.randomTape := rfl
@[simp] theorem setDT_randomDraws (s : State) (v : Byte) : (s.setDT v).randomDraws = s.randomDraws := rfl
@[simp] theorem setDT_keyUps (s : State) (v : Byte) : (s.setDT v).keyUps = s.keyUps := rfl

@[simp] theorem setST_regs (s : State) (v : Byte) : (s.setST v).regs = s.regs := rfl
@[simp] theorem setST_idx (s : State) (v : Byte) : (s.setST v).idx = s.idx := rfl
@[simp] theorem setST_pc (s : State) (v : Byte) : (s.setST v).pc = s.pc := rfl
@[simp] theorem setST_sp (s : State) (v : Byte) : (s.setST v).sp = s.sp := rfl
@[simp] theorem setST_stack (s : State) (v : Byte) : (s.setST v).stack = s.stack := rfl
@[simp] theorem setST_mem (s : State) (v : Byte) : (s.setST v).mem = s.mem := rfl
@[simp] theorem setST_dt (s : State) (v : Byte) : (s.setST v).dt = s.dt := rfl
@[simp] theorem setST_st (s : State) (v : Byte) : (s.setST v).st = v := rfl
@[simp] theorem setST_fb (s : State) (v : Byte) : (s.setST v).fb = s.fb := rfl
@[simp] theorem setST_keys (s : State) (v : Byte) : (s.setST v).keys = s.keys := rfl
@[simp] theorem setST_lastKey (s : State) (v : Byte) : (s.setST v).lastKey = s.lastKey := rfl
@[simp] theorem setST_cI (s : State) (v : Byte) : (s.setST v).cI = s.cI := rfl
@[simp] theorem setST_cD (s : State) (v : Byte) : (s.setST v).cD = s.cD := rfl
@[simp] theorem setST_cS (s : State) (v : Byte) : (s.setST v).cS = s.cS := rfl
@[simp] theorem setST_params (s : State) (v : Byte) : (s.setST v).params = s.params := rfl
@[simp] theorem setST_result (s : State) (v : Byte) : (s.setST v).result = s.result := rfl
@[simp] theorem setST_hostMoves (s : State) (v : Byte) : (s.setST v).hostMoves = s.hostMoves := rfl
@[simp] theorem setST_randomTape (s : State) (v : Byte) : (s.setST v).randomTape = s.randomTape := rfl
@[simp] theorem setST_randomDraws (s : State) (v : Byte) : (s.setST v).randomDraws = s.randomDraws := rfl
@[simp] theorem setST_keyUps (s : State) (v : Byte) : (s.setST v).keyUps = s.keyUps := rfl

@[simp] theorem setKey_regs (s : State) (k : KeyIndex) (b : Bool) : (s.setKey k b).regs = s.regs := rfl
@[simp] theorem setKey_idx (s : State) (k : KeyIndex) (b : Bool) : (s.setKey k b).idx = s.idx := rfl
@[simp] theorem setKey_pc (s : State) (k : KeyIndex) (b : Bool) : (s.setKey k b).pc = s.pc := rfl
@[simp] theorem setKey_sp (s : State) (k : KeyIndex) (b : Bool) : (s.setKey k b).sp = s.sp := rfl
@[simp] theorem setKey_stack (s : State) (k : KeyIndex) (b : Bool) : (s.setKey k b).stack = s.stack := rfl
@[simp] theorem setKey_mem (s : State) (k : KeyIndex) (b : Bool) : (s.setKey k b).mem = s.mem := rfl
@[simp] theorem setKey_dt (s : State) (k : KeyIndex) (b : Bool) : (s.setKey k b).dt = s.dt := rfl
@[simp] theorem setKey_st (s : State) (k : KeyIndex) (b : Bool) : (s.setKey k b).st = s.st := rfl
@[simp] theorem setKey_fb (s : State) (k : KeyIndex) (b : Bool) : (s.setKey k b).fb = s.fb := rfl
@[simp] theorem setKey_keys (s : State) (k : KeyIndex) (b : Bool) : (s.setKey k b).keys = s.keys.set k.val b k.isLt := rfl
@[simp] theorem setKey_lastKey (s : State) (k : KeyIndex) (b : Bool) : (s.setKey k b).lastKey = s.lastKey := rfl
@[simp] theorem setKey_cI (s : State) (k : KeyIndex) (b : Bool) : (s.setKey k b).cI = s.cI := rfl
@[simp] theorem setKey_cD (s : State) (k : KeyIndex) (b : Bool) : (s.setKey k b).cD = s.cD := rfl
@[simp] theorem setKey_cS (s : State) (k : KeyIndex) (b : Bool) : (s.setKey k b).cS = s.cS := rfl
@[simp] theorem setKey_params (s : State) (k : KeyIndex) (b : Bool) : (s.setKey k b).params = s.params := rfl
@[simp] theorem setKey_result (s : State) (k : KeyIndex) (b : Bool) : (s.setKey k b).result = s.result := rfl
@[simp] theorem setKey_hostMoves (s : State) (k : KeyIndex) (b : Bool) : (s.setKey k b).hostMoves = s.hostMoves := rfl
@[simp] theorem setKey_randomTape (s : State) (k : KeyIndex) (b : Bool) : (s.setKey k b).randomTape = s.randomTape := rfl
@[simp] theorem setKey_randomDraws (s : State) (k : KeyIndex) (b : Bool) : (s.setKey k b).randomDraws = s.randomDraws := rfl
@[simp] theorem setKey_keyUps (s : State) (k : KeyIndex) (b : Bool) : (s.setKey k b).keyUps = s.keyUps := rfl

@[simp] theorem setLastKey_regs (s : State) (o : Option KeyIndex) : (s.setLastKey o).regs = s.regs := rfl
@[simp] theorem setLastKey_idx (s : State) (o : Option KeyIndex) : (s.setLastKey o).idx = s.idx := rfl
@[simp] theorem setLastKey_pc (s : State) (o : Option KeyIndex) : (s.setLastKey o).pc = s.pc := rfl
@[simp] theorem setLastKey_sp (s : State) (o : Option KeyIndex) : (s.setLastKey o).sp = s.sp := rfl
@[simp] theorem setLastKey_stack (s : State) (o : Option KeyIndex) : (s.setLastKey o).stack = s.stack := rfl
@[simp] theorem setLastKey_mem (s : State) (o : Option KeyIndex) : (s.setLastKey o).mem = s.mem := rfl
@[simp] theorem setLastKey_dt (s : State) (o : Option KeyIndex) : (s.setLastKey o).dt = s.dt := rfl
@[simp] theorem setLastKey_st (s : State) (o : Option KeyIndex) : (s.setLastKey o).st = s.st := rfl
@[simp] theorem setLastKey_fb (s : State) (o : Option KeyIndex) : (s.setLastKey o).fb = s.fb := rfl
@[simp] theorem setLastKey_keys (s : State) (o : Option KeyIndex) : (s.setLastKey o).keys = s.keys := rfl
@[simp] theorem setLastKey_lastKey (s : State) (o : Option KeyIndex) : (s.setLastKey o).lastKey = o := rfl
@[simp] theorem setLastKey_cI (s : State) (o : Option KeyIndex) : (s.setLastKey o).cI = s.cI := rfl
@[simp] theorem setLastKey_cD (s : State) (o : Option KeyIndex) : (s.setLastKey o).cD = s.cD := rfl
@[simp] theorem setLastKey_cS (s : State) (o : Option KeyIndex) : (s.setLastKey o).cS = s.cS := rfl
@[simp] theorem setLastKey_params (s : State) (o : Option KeyIndex) : (s.setLastKey o).params = s.params := rfl
@[simp] theorem setLastKey_result (s : State) (o : Option KeyIndex) : (s.setLastKey o).result = s.result := rfl
@[simp] theorem setLastKey_hostMoves (s : State) (o : Option KeyIndex) : (s.setLastKey o).hostMoves = s.hostMoves := rfl
@[simp] theorem setLastKey_randomTape (s : State) (o : Option KeyIndex) : (s.setLastKey o).randomTape = s.randomTape := rfl
@[simp] theorem setLastKey_randomDraws (s : State) (o : Option KeyIndex) : (s.setLastKey o).randomDraws = s.randomDraws := rfl
@[simp] theorem setLastKey_keyUps (s : State) (o : Option KeyIndex) : (s.setLastKey o).keyUps = s.keyUps := rfl

@[simp] theorem setCountdowns_regs (s : State) (i d t : Nat) : (s.setCountdowns i d t).regs = s.regs := rfl
@[simp] theorem setCountdowns_idx (s : State) (i d t : Nat) : (s.setCountdowns i d t).idx = s.idx := rfl
@[simp] theorem setCountdowns_pc (s : State) (i d t : Nat) : (s.setCountdowns i d t).pc = s.pc := rfl
@[simp] theorem setCountdowns_sp (s : State) (i d t : Nat) : (s.setCountdowns i d t).sp = s.sp := rfl
@[simp] theorem setCountdowns_stack (s : State) (i d t : Nat) : (s.setCountdowns i d t).stack = s.stack := rfl
@[simp] theorem setCountdowns_mem (s : State) (i d t : Nat) : (s.setCountdowns i d t).mem = s.mem := rfl
@[simp] theorem setCountdowns_dt (s : State) (i d t : Nat) : (s.setCountdowns i d t).dt = s.dt := rfl
@[simp] theorem setCountdowns_st (s : State) (i d t : Nat) : (s.setCountdowns i d t).st = s.st := rfl
@[simp] theorem setCountdowns_fb (s : State) (i d t : Nat) : (s.setCountdowns i d t).fb = s.fb := rfl
@[simp] theorem setCountdowns_keys (s : State) (i d t : Nat) : (s.setCountdowns i d t).keys = s.keys := rfl
@[simp] theorem setCountdowns_lastKey (s : State) (i d t : Nat) : (s.setCountdowns i d t).lastKey = s.lastKey := rfl
@[simp] theorem setCountdowns_cI (s : State) (i d t : Nat) : (s.setCountdowns i d t).cI = i := rfl
@[simp] theorem setCountdowns_cD (s : State) (i d t : Nat) : (s.setCountdowns i d t).cD = d := rfl
@[simp] theorem setCountdowns_cS (s : State) (i d t : Nat) : (s.setCountdowns i d t).cS = t := rfl
@[simp] theorem setCountdowns_params (s : State) (i d t : Nat) : (s.setCountdowns i d t).params = s.params := rfl
@[simp] theorem setCountdowns_result (s : State) (i d t : Nat) : (s.setCountdowns i d t).result = s.result := rfl
@[simp] theorem setCountdowns_hostMoves (s : State) (i d t : Nat) : (s.setCountdowns i d t).hostMoves = s.hostMoves := rfl
@[simp] theorem setCountdowns_randomTape (s : State) (i d t : Nat) : (s.setCountdowns i d t).randomTape = s.randomTape := rfl
@[simp] theorem setCountdowns_randomDraws (s : State) (i d t : Nat) : (s.setCountdowns i d t).randomDraws = s.randomDraws := rfl
@[simp] theorem setCountdowns_keyUps (s : State) (i d t : Nat) : (s.setCountdowns i d t).keyUps = s.keyUps := rfl

@[simp] theorem setResult_regs (s : State) (r : TxResult) : (s.setResult r).regs = s.regs := rfl
@[simp] theorem setResult_idx (s : State) (r : TxResult) : (s.setResult r).idx = s.idx := rfl
@[simp] theorem setResult_pc (s : State) (r : TxResult) : (s.setResult r).pc = s.pc := rfl
@[simp] theorem setResult_sp (s : State) (r : TxResult) : (s.setResult r).sp = s.sp := rfl
@[simp] theorem setResult_stack (s : State) (r : TxResult) : (s.setResult r).stack = s.stack := rfl
@[simp] theorem setResult_mem (s : State) (r : TxResult) : (s.setResult r).mem = s.mem := rfl
@[simp] theorem setResult_dt (s : State) (r : TxResult) : (s.setResult r).dt = s.dt := rfl
@[simp] theorem setResult_st (s : State) (r : TxResult) : (s.setResult r).st = s.st := rfl
@[simp] theorem setResult_fb (s : State) (r : TxResult) : (s.setResult r).fb = s.fb := rfl
@[simp] theorem setResult_keys (s : State) (r : TxResult) : (s.setResult r).keys = s.keys := rfl
@[simp] theorem setResult_lastKey (s : State) (r : TxResult) : (s.setResult r).lastKey = s.lastKey := rfl
@[simp] theorem setResult_cI (s : State) (r : TxResult) : (s.setResult r).cI = s.cI := rfl
@[simp] theorem setResult_cD (s : State) (r : TxResult) : (s.setResult r).cD = s.cD := rfl
@[simp] theorem setResult_cS (s : State) (r : TxResult) : (s.setResult r).cS = s.cS := rfl
@[simp] theorem setResult_params (s : State) (r : TxResult) : (s.setResult r).params = s.params := rfl
@[simp] theorem setResult_result (s : State) (r : TxResult) : (s.setResult r).result = r := rfl
@[simp] theorem setResult_hostMoves (s : State) (r : TxResult) : (s.setResult r).hostMoves = s.hostMoves := rfl
@[simp] theorem setResult_randomTape (s : State) (r : TxResult) : (s.setResult r).randomTape = s.randomTape := rfl
@[simp] theorem setResult_randomDraws (s : State) (r : TxResult) : (s.setResult r).randomDraws = s.randomDraws := rfl
@[simp] theorem setResult_keyUps (s : State) (r : TxResult) : (s.setResult r).keyUps = s.keyUps := rfl

@[simp] theorem setHostMoves_regs (s : State) (ms : List HostMove) : (s.setHostMoves ms).regs = s.regs := rfl
@[simp] theorem setHostMoves_idx (s : State) (ms : List HostMove) : (s.setHostMoves ms).idx = s.idx := rfl
@[simp] theorem setHostMoves_pc (s : State) (ms : List HostMove) : (s.setHostMoves ms).pc = s.pc := rfl
@[simp] theorem setHostMoves_sp (s : State) (ms : List HostMove) : (s.setHostMoves ms).sp = s.sp := rfl
@[simp] theorem setHostMoves_stack (s : State) (ms : List HostMove) : (s.setHostMoves ms).stack = s.stack := rfl
@[simp] theorem setHostMoves_mem (s : State) (ms : List HostMove) : (s.setHostMoves ms).mem = s.mem := rfl
@[simp] theorem setHostMoves_dt (s : State) (ms : List HostMove) : (s.setHostMoves ms).dt = s.dt := rfl
@[simp] theorem setHostMoves_st (s : State) (ms : List HostMove) : (s.setHostMoves ms).st = s.st := rfl
@[simp] theorem setHostMoves_fb (s : State) (ms : List HostMove) : (s.setHostMoves ms).fb = s.fb := rfl
@[simp] theorem setHostMoves_keys (s : State) (ms : List HostMove) : (s.setHostMoves ms).keys = s.keys := rfl
@[simp] theorem setHostMoves_lastKey (s : State) (ms : List HostMove) : (s.setHostMoves ms).lastKey = s.lastKey := rfl
@[simp] theorem setHostMoves_cI (s : State) (ms : List HostMove) : (s.setHostMoves ms).cI = s.cI := rfl
@[simp] theorem setHostMoves_cD (s : State) (ms : List HostMove) : (s.setHostMoves ms).cD = s.cD := rfl
@[simp] theorem setHostMoves_cS (s : State) (ms : List HostMove) : (s.setHostMoves ms).cS = s.cS := rfl
@[simp] theorem setHostMoves_params (s : State) (ms : List HostMove) : (s.setHostMoves ms).params = s.params := rfl
@[simp] theorem setHostMoves_result (s : State) (ms : List HostMove) : (s.setHostMoves ms).result = s.result := rfl
@[simp] theorem setHostMoves_hostMoves (s : State) (ms : List HostMove) : (s.setHostMoves ms).hostMoves = ms := rfl
@[simp] theorem setHostMoves_randomTape (s : State) (ms : List HostMove) : (s.setHostMoves ms).randomTape = s.randomTape := rfl
@[simp] theorem setHostMoves_randomDraws (s : State) (ms : List HostMove) : (s.setHostMoves ms).randomDraws = s.randomDraws := rfl
@[simp] theorem setHostMoves_keyUps (s : State) (ms : List HostMove) : (s.setHostMoves ms).keyUps = s.keyUps := rfl

@[simp] theorem setRandom_regs (s : State) (tape : List Byte) (n : Nat) : (s.setRandom tape n).regs = s.regs := rfl
@[simp] theorem setRandom_idx (s : State) (tape : List Byte) (n : Nat) : (s.setRandom tape n).idx = s.idx := rfl
@[simp] theorem setRandom_pc (s : State) (tape : List Byte) (n : Nat) : (s.setRandom tape n).pc = s.pc := rfl
@[simp] theorem setRandom_sp (s : State) (tape : List Byte) (n : Nat) : (s.setRandom tape n).sp = s.sp := rfl
@[simp] theorem setRandom_stack (s : State) (tape : List Byte) (n : Nat) : (s.setRandom tape n).stack = s.stack := rfl
@[simp] theorem setRandom_mem (s : State) (tape : List Byte) (n : Nat) : (s.setRandom tape n).mem = s.mem := rfl
@[simp] theorem setRandom_dt (s : State) (tape : List Byte) (n : Nat) : (s.setRandom tape n).dt = s.dt := rfl
@[simp] theorem setRandom_st (s : State) (tape : List Byte) (n : Nat) : (s.setRandom tape n).st = s.st := rfl
@[simp] theorem setRandom_fb (s : State) (tape : List Byte) (n : Nat) : (s.setRandom tape n).fb = s.fb := rfl
@[simp] theorem setRandom_keys (s : State) (tape : List Byte) (n : Nat) : (s.setRandom tape n).keys = s.keys := rfl
@[simp] theorem setRandom_lastKey (s : State) (tape : List Byte) (n : Nat) : (s.setRandom tape n).lastKey = s.lastKey := rfl
@[simp] theorem setRandom_cI (s : State) (tape : List Byte) (n : Nat) : (s.setRandom tape n).cI = s.cI := rfl
@[simp] theorem setRandom_cD (s : State) (tape : List Byte) (n : Nat) : (s.setRandom tape n).cD = s.cD := rfl
@[simp] theorem setRandom_cS (s : State) (tape : List Byte) (n : Nat) : (s.setRandom tape n).cS = s.cS := rfl
@[simp] theorem setRandom_params (s : State) (tape : List Byte) (n : Nat) : (s.setRandom tape n).params = s.params := rfl
@[simp] theorem setRandom_result (s : State) (tape : List Byte) (n : Nat) : (s.setRandom tape n).result = s.result := rfl
@[simp] theorem setRandom_hostMoves (s : State) (tape : List Byte) (n : Nat) : (s.setRandom tape n).hostMoves = s.hostMoves := rfl
@[simp] theorem setRandom_randomTape (s : State) (tape : List Byte) (n : Nat) : (s.setRandom tape n).randomTape = tape := rfl
@[simp] theorem setRandom_randomDraws (s : State) (tape : List Byte) (n : Nat) : (s.setRandom tape n).randomDraws = n := rfl
@[simp] theorem setRandom_keyUps (s : State) (tape : List Byte) (n : Nat) : (s.setRandom tape n).keyUps = s.keyUps := rfl

@[simp] theorem countKeyUp_regs (s : State) : (s.countKeyUp).regs = s.regs := rfl
@[simp] theorem countKeyUp_idx (s : State) : (s.countKeyUp).idx = s.idx := rfl
@[simp] theorem countKeyUp_pc (s : State) : (s.countKeyUp).pc = s.pc := rfl
@[simp] theorem countKeyUp_sp (s : State) : (s.countKeyUp).sp = s.sp := rfl
@[simp] theorem countKeyUp_stack (s : State) : (s.countKeyUp).stack = s.stack := rfl
@[simp] theorem countKeyUp_mem (s : State) : (s.countKeyUp).mem = s.mem := rfl
@[simp] theorem countKeyUp_dt (s : State) : (s.countKeyUp).dt = s.dt := rfl
@[simp] theorem countKeyUp_st (s : State) : (s.countKeyUp).st = s.st := rfl
@[simp] theorem countKeyUp_fb (s : State) : (s.countKeyUp).fb = s.fb := rfl
@[simp] theorem countKeyUp_keys (s : State) : (s.countKeyUp).keys = s.keys := rfl
@[simp] theorem countKeyUp_lastKey (s : State) : (s.countKeyUp).lastKey = s.lastKey := rfl
@[simp] theorem countKeyUp_cI (s : State) : (s.countKeyUp).cI = s.cI := rfl
@[simp] theorem countKeyUp_cD (s : State) : (s.countKeyUp).cD = s.cD := rfl
@[simp] theorem countKeyUp_cS (s : State) : (s.countKeyUp).cS = s.cS := rfl
@[simp] theorem countKeyUp_params (s : State) : (s.countKeyUp).params = s.params := rfl
@[simp] theorem countKeyUp_result (s : State) : (s.countKeyUp).result = s.result := rfl
@[simp] theorem countKeyUp_hostMoves (s : State) : (s.countKeyUp).hostMoves = s.hostMoves := rfl
@[simp] theorem countKeyUp_randomTape (s : State) : (s.countKeyUp).randomTape = s.randomTape := rfl
@[simp] theorem countKeyUp_randomDraws (s : State) : (s.countKeyUp).randomDraws = s.randomDraws := rfl
@[simp] theorem countKeyUp_keyUps (s : State) : (s.countKeyUp).keyUps = s.keyUps + 1 := rfl

/-! Reads after updates. -/

theorem V_setV (s : State) (i j : RegisterIndex) (v : Byte) :
    (s.setV i v).V j = if i = j then v else s.V j := by
  simp [V, Vector.getElem_set, Fin.ext_iff]

@[simp] theorem V_setV_same (s : State) (i : RegisterIndex) (v : Byte) : (s.setV i v).V i = v := by
  simp [V_setV]

theorem V_setV_other (s : State) {i j : RegisterIndex} (v : Byte) (h : i ≠ j) :
    (s.setV i v).V j = s.V j := by
  simp [V_setV, h]

@[simp] theorem V_setIdx (s : State) (a : Address) (r : RegisterIndex) : (s.setIdx a).V r = s.V r := rfl
@[simp] theorem V_setPc (s : State) (t : Word16) (r : RegisterIndex) : (s.setPc t).V r = s.V r := rfl
@[simp] theorem V_setStack (s : State) (k : Vector Word16 16) (p : Fin 17) (r : RegisterIndex) : (s.setStack k p).V r = s.V r := rfl
@[simp] theorem V_setMem (s : State) (m : Memory) (r : RegisterIndex) : (s.setMem m).V r = s.V r := rfl
@[simp] theorem V_setFb (s : State) (f : FrameBuffer) (r : RegisterIndex) : (s.setFb f).V r = s.V r := rfl
@[simp] theorem V_setDT (s : State) (v : Byte) (r : RegisterIndex) : (s.setDT v).V r = s.V r := rfl
@[simp] theorem V_setST (s : State) (v : Byte) (r : RegisterIndex) : (s.setST v).V r = s.V r := rfl
@[simp] theorem V_setKey (s : State) (k : KeyIndex) (b : Bool) (r : RegisterIndex) : (s.setKey k b).V r = s.V r := rfl
@[simp] theorem V_setLastKey (s : State) (o : Option KeyIndex) (r : RegisterIndex) : (s.setLastKey o).V r = s.V r := rfl
@[simp] theorem V_setCountdowns (s : State) (i d t : Nat) (r : RegisterIndex) : (s.setCountdowns i d t).V r = s.V r := rfl
@[simp] theorem V_setResult (s : State) (res : TxResult) (r : RegisterIndex) : (s.setResult res).V r = s.V r := rfl
@[simp] theorem V_setHostMoves (s : State) (ms : List HostMove) (r : RegisterIndex) : (s.setHostMoves ms).V r = s.V r := rfl
@[simp] theorem V_setRandom (s : State) (tape : List Byte) (n : Nat) (r : RegisterIndex) : (s.setRandom tape n).V r = s.V r := rfl
@[simp] theorem V_countKeyUp (s : State) (r : RegisterIndex) : (s.countKeyUp).V r = s.V r := rfl

@[simp] theorem byteAt_setV (s : State) (i : RegisterIndex) (v : Byte) (adr : Nat) : (s.setV i v).byteAt adr = s.byteAt adr := rfl
@[simp] theorem byteAt_setIdx (s : State) (a : Address) (adr : Nat) : (s.setIdx a).byteAt adr = s.byteAt adr := rfl
@[simp] theorem byteAt_setPc (s : State) (t : Word16) (adr : Nat) : (s.setPc t).byteAt adr = s.byteAt adr := rfl
@[simp] theorem byteAt_setStack (s : State) (k : Vector Word16 16) (p : Fin 17) (adr : Nat) : (s.setStack k p).byteAt adr = s.byteAt adr := rfl
@[simp] theorem byteAt_setFb (s : State) (f : FrameBuffer) (adr : Nat) : (s.setFb f).byteAt adr = s.byteAt adr := rfl
@[simp] theorem byteAt_setDT (s : State) (v : Byte) (adr : Nat) : (s.setDT v).byteAt adr = s.byteAt adr := rfl
@[simp] theorem byteAt_setST (s : State) (v : Byte) (adr : Nat) : (s.setST v).byteAt adr = s.byteAt adr := rfl
@[simp] theorem byteAt_setKey (s : State) (k : KeyIndex) (b : Bool) (adr : Nat) : (s.setKey k b).byteAt adr = s.byteAt adr := rfl
@[simp] theorem byteAt_setLastKey (s : State) (o : Option KeyIndex) (adr : Nat) : (s.setLastKey o).byteAt adr = s.byteAt adr := rfl
@[simp] theorem byteAt_setCountdowns (s : State) (i d t : Nat) (adr : Nat) : (s.setCountdowns i d t).byteAt adr = s.byteAt adr := rfl
@[simp] theorem byteAt_setResult (s : State) (r : TxResult) (adr : Nat) : (s.setResult r).byteAt adr = s.byteAt adr := rfl
@[simp] theorem byteAt_setHostMoves (s : State) (ms : List HostMove) (adr : Nat) : (s.setHostMoves ms).byteAt adr = s.byteAt adr := rfl
@[simp] theorem byteAt_setRandom (s : State) (tape : List Byte) (n : Nat) (adr : Nat) : (s.setRandom tape n).byteAt adr = s.byteAt adr := rfl
@[simp] theorem byteAt_countKeyUp (s : State) (adr : Nat) : (s.countKeyUp).byteAt adr = s.byteAt adr := rfl
@[simp] theorem byteAt_setMem (s : State) (m : Memory) (adr : Nat) : (s.setMem m).byteAt adr = m.read adr := rfl

/-- Registers are what they read as. -/
theorem regs_eq_of_V {s t : State} (h : ∀ r, t.V r = s.V r) : t.regs = s.regs := by
  apply Vector.ext
  intro i hi
  exact h ⟨i, hi⟩

end Sys2Proof.Machine.State
end

