-- ==== Sys2Proof/Laws/Backend.lean ====
section
/-! SUPPORT. What the capability calls can do: the pixels of a draw, the key scan, the random byte. -/

namespace Sys2Proof.Machine

namespace Cap

/-- A draw is a fold of `drawPixel` over a list of (pixel, bit); this lemma says what such a fold does to one pixel and to
the collision bit, when no pixel is visited twice. -/
theorem foldl_drawPixel (w h : Nat) (ps : List (Pixel × Bool)) :
    (ps.map Prod.fst).Nodup → ∀ acc : Bool × FrameBuffer,
    (∀ q, (ps.foldl (fun acc p => drawPixel w h p.1 p.2 acc) acc).2.isOn q =
      (acc.2.isOn q ^^ decide ((q, true) ∈ ps ∧ q.px < w ∧ q.py < h))) ∧
    ((ps.foldl (fun acc p => drawPixel w h p.1 p.2 acc) acc).1 = true ↔
      acc.1 = true ∨ ∃ q, (q, true) ∈ ps ∧ q.px < w ∧ q.py < h ∧ acc.2.isOn q = true) := by
  induction ps with
  | nil => intro _ acc; simp
  | cons p ps ih =>
    intro hnd acc
    rw [List.map_cons, List.nodup_cons] at hnd
    obtain ⟨ih1, ih2⟩ := ih hnd.2 (drawPixel w h p.1 p.2 acc)
    have hnot : ∀ b, (p.1, b) ∉ ps := fun b hb => hnd.1 (List.mem_map.mpr ⟨_, hb, rfl⟩)
    obtain ⟨pp, pb⟩ := p
    simp only at hnot ih1 ih2
    by_cases hb : (pb && decide (pp.px < w) && decide (pp.py < h)) = true
    · have hd : drawPixel w h pp pb acc = (acc.1 || acc.2.isOn pp, acc.2.toggle pp) := by
        unfold drawPixel; rw [if_pos hb]
      simp only [Bool.and_eq_true, decide_eq_true_eq] at hb
      obtain ⟨⟨rfl, hx⟩, hy⟩ := hb
      rw [List.foldl_cons]
      simp only [hd] at ih1 ih2 ⊢
      constructor
      · intro q
        rw [ih1, FrameBuffer.isOn_toggle]
        by_cases hq : pp = q
        · subst hq
          have h1 : decide ((pp, true) ∈ ps ∧ pp.px < w ∧ pp.py < h) = false := by simp [hnot]
          have h2 : decide ((pp, true) ∈ (pp, true) :: ps ∧ pp.px < w ∧ pp.py < h) = true := by simp [hx, hy]
          rw [h1, h2]
          simp
        · have hq' : q ≠ pp := fun e => hq e.symm
          simp [hq, hq']
      · rw [ih2]
        simp only [Bool.or_eq_true, List.mem_cons, Prod.mk.injEq, and_true, FrameBuffer.isOn_toggle]
        constructor
        · rintro ((h1 | h1) | ⟨q, hq, hqx, hqy, ho⟩)
          · exact Or.inl h1
          · exact Or.inr ⟨pp, Or.inl rfl, hx, hy, h1⟩
          · have : pp ≠ q := by rintro rfl; exact hnot _ hq
            rw [if_neg this] at ho
            exact Or.inr ⟨q, Or.inr hq, hqx, hqy, ho⟩
        · rintro (h1 | ⟨q, hq | hq, hqx, hqy, ho⟩)
          · exact Or.inl (Or.inl h1)
          · subst hq; exact Or.inl (Or.inr ho)
          · have : pp ≠ q := by rintro rfl; exact hnot _ hq
            exact Or.inr ⟨q, hq, hqx, hqy, by rw [if_neg this]; exact ho⟩
    · have hd : drawPixel w h pp pb acc = acc := by unfold drawPixel; rw [if_neg hb]
      rw [List.foldl_cons]
      simp only [hd] at ih1 ih2 ⊢
      have hno : ∀ q, q = pp → q.px < w → q.py < h → pb ≠ true := by
        rintro q rfl hx hy rfl; exact hb (by simp [hx, hy])
      constructor
      · intro q
        rw [ih1]
        congr 1
        apply decide_eq_decide.mpr
        constructor
        · rintro ⟨hm, hx, hy⟩; exact ⟨List.mem_cons_of_mem _ hm, hx, hy⟩
        · rintro ⟨hm, hx, hy⟩
          rcases List.mem_cons.mp hm with he | hm
          · injection he with h1 h2; exact absurd h2.symm (hno q h1 hx hy)
          · exact ⟨hm, hx, hy⟩
      · rw [ih2]
        constructor
        · rintro (h1 | ⟨q, hq, hr⟩)
          · exact Or.inl h1
          · exact Or.inr ⟨q, List.mem_cons_of_mem _ hq, hr⟩
        · rintro (h1 | ⟨q, hq, hx, hy, ho⟩)
          · exact Or.inl h1
          · rcases List.mem_cons.mp hq with he | hq
            · injection he with h2 h3; exact absurd h3.symm (hno q h2 hx hy)
            · exact Or.inr ⟨q, hq, hx, hy, ho⟩

/-- The pixels of a sprite in the order of the draw, each with its bit. -/
def spritePixels (ox : Nat) : Nat → List Byte → List (Pixel × Bool)
  | _, [] => []
  | yy, row :: rows =>
    (List.range 8).map (fun b => (⟨ox + b, yy⟩, row.getLsbD (7 - b))) ++ spritePixels ox (yy + 1) rows

theorem drawRows_eq_foldl (w h ox : Nat) (rows : List Byte) : ∀ (yy : Nat) (acc : Bool × FrameBuffer),
    drawRows w h ox yy rows acc =
      (spritePixels ox yy rows).foldl (fun acc p => drawPixel w h p.1 p.2 acc) acc := by
  induction rows with
  | nil => intro yy acc; rfl
  | cons row rows ih =>
    intro yy acc
    rw [drawRows, ih, spritePixels, List.foldl_append, List.foldl_map]
    rfl

theorem mem_spritePixels (ox : Nat) (rows : List Byte) : ∀ (yy : Nat) (q : Pixel) (b : Bool),
    (q, b) ∈ spritePixels ox yy rows ↔ ox ≤ q.px ∧ q.px < ox + 8 ∧ yy ≤ q.py ∧ q.py < yy + rows.length ∧
      (rows.getD (q.py - yy) 0#8).getLsbD (7 - (q.px - ox)) = b := by
  induction rows with
  | nil =>
    intro yy q b
    have : ¬ (yy ≤ q.py ∧ q.py < yy + 0) := by omega
    simp only [spritePixels, List.not_mem_nil, List.length_nil, false_iff]
    tauto
  | cons row rows ih =>
    intro yy q b
    obtain ⟨qx, qy⟩ := q
    simp only [spritePixels, List.mem_append, List.mem_map, List.mem_range, Prod.mk.injEq, Pixel.mk.injEq, ih,
      List.length_cons]
    constructor
    · rintro (⟨c, hc, ⟨rfl, rfl⟩, hb⟩ | ⟨h1, h2, h3, h4, hb⟩)
      · exact ⟨by omega, by omega, le_refl _, by omega, by simpa using hb⟩
      · refine ⟨h1, h2, by omega, by omega, ?_⟩
        rw [show qy - yy = (qy - (yy + 1)) + 1 by omega]
        simpa using hb
    · rintro ⟨h1, h2, h3, h4, hb⟩
      by_cases hy : yy = qy
      · subst hy
        exact Or.inl ⟨qx - ox, by omega, ⟨by omega, rfl⟩, by simpa using hb⟩
      · refine Or.inr ⟨h1, h2, by omega, by omega, ?_⟩
        rw [show qy - yy = (qy - (yy + 1)) + 1 by omega] at hb
        simpa using hb

theorem spritePixels_nodup (ox : Nat) (rows : List Byte) : ∀ yy : Nat,
    ((spritePixels ox yy rows).map Prod.fst).Nodup := by
  induction rows with
  | nil => intro yy; exact List.nodup_nil
  | cons row rows ih =>
    intro yy
    rw [spritePixels, List.map_append, List.map_map]
    refine List.Nodup.append ?_ (ih (yy + 1)) ?_
    · refine List.Nodup.map (fun a b hab => ?_) List.nodup_range
      simp only [Function.comp_apply, Pixel.mk.injEq, and_true] at hab
      omega
    · intro q h1 h2
      obtain ⟨c, _, rfl⟩ := List.mem_map.mp h1
      obtain ⟨⟨q', b⟩, hq, heq⟩ := List.mem_map.mp h2
      have hr := (mem_spritePixels ox rows (yy + 1) q' b).mp hq
      simp only [Function.comp_apply] at heq
      rw [heq] at hr
      simp only at hr
      omega

/-- What a draw does to every pixel, and its collision bit (R282). -/
theorem drawRows_spec (w h ox yy : Nat) (rows : List Byte) (acc : Bool × FrameBuffer) :
    (∀ q, (drawRows w h ox yy rows acc).2.isOn q =
      (acc.2.isOn q ^^ decide ((q, true) ∈ spritePixels ox yy rows ∧ q.px < w ∧ q.py < h))) ∧
    ((drawRows w h ox yy rows acc).1 = true ↔
      acc.1 = true ∨ ∃ q, (q, true) ∈ spritePixels ox yy rows ∧ q.px < w ∧ q.py < h ∧ acc.2.isOn q = true) := by
  rw [drawRows_eq_foldl]
  exact foldl_drawPixel w h _ (spritePixels_nodup ox rows yy) acc

/-- A draw changes the frame buffer only. -/
theorem draw_snd (px py : Byte) (rows : List Byte) (s : State) :
    (draw px py rows s).2 = s.setFb (draw px py rows s).2.fb := rfl

theorem drawPixel_wf (w h : Nat) (p : Pixel) (b : Bool) (acc : Bool × FrameBuffer)
    (hacc : FrameBuffer.wf w h acc.2 = true) : FrameBuffer.wf w h (drawPixel w h p b acc).2 = true := by
  unfold drawPixel
  split
  · rename_i hc
    simp only [Bool.and_eq_true, decide_eq_true_eq] at hc
    exact FrameBuffer.toggle_wf w h _ p ⟨hc.1.2, hc.2⟩ hacc
  · exact hacc

theorem drawRow_wf (w h ox yy : Nat) (row : Byte) (acc : Bool × FrameBuffer)
    (hacc : FrameBuffer.wf w h acc.2 = true) : FrameBuffer.wf w h (drawRow w h ox yy row acc).2 = true := by
  unfold drawRow
  generalize List.range 8 = bs
  induction bs generalizing acc with
  | nil => exact hacc
  | cons b bs ih => exact ih _ (drawPixel_wf w h _ _ acc hacc)

theorem drawRows_wf (w h ox : Nat) (rows : List Byte) : ∀ (yy : Nat) (acc : Bool × FrameBuffer),
    FrameBuffer.wf w h acc.2 = true → FrameBuffer.wf w h (drawRows w h ox yy rows acc).2 = true := by
  induction rows with
  | nil => intro yy acc h; exact h
  | cons row rows ih => intro yy acc hacc; exact ih _ _ (drawRow_wf w h ox yy row acc hacc)

/-- One draw of the random source: the byte and what is left of the tape (R288). -/
theorem random_tape (s : State) (r : Byte) (rest : List Byte) (h : s.randomTape = r :: rest) :
    random s = (r, s.setRandom rest (s.randomDraws + 1)) := by
  simp [random, h]

theorem random_free (s : State) (h : s.randomTape = []) :
    random s = (Config.freeRandomByte s.randomDraws, s.setRandom [] (s.randomDraws + 1)) := by
  simp [random, h]

end Cap

/-- The scan of a list of keys keeps the last pressed one (R204). -/
theorem scan_foldl (s : State) (ks : List KeyIndex) : ks.Pairwise (· < ·) → ∀ start : Option KeyIndex,
    (ks.foldl (fun found k => if Cap.isPressed k s then some k else found) start =
      start ∧ ∀ k ∈ ks, Cap.isPressed k s = false) ∨
    ∃ k ∈ ks, Cap.isPressed k s = true ∧
      ks.foldl (fun found k => if Cap.isPressed k s then some k else found) start = some k ∧
      ∀ j ∈ ks, Cap.isPressed j s = true → j ≤ k := by
  induction ks with
  | nil => intro _ start; exact Or.inl ⟨rfl, by simp⟩
  | cons k ks ih =>
    intro hp start
    rw [List.pairwise_cons] at hp
    rw [List.foldl_cons]
    rcases ih hp.2 (if Cap.isPressed k s then some k else start) with ⟨he, hall⟩ | ⟨j, hj, hpj, he, hmax⟩
    · cases hk : Cap.isPressed k s with
      | false =>
        refine Or.inl ⟨by rw [hk] at he; simpa using he, ?_⟩
        intro j hj
        rcases List.mem_cons.mp hj with rfl | hj
        · exact hk
        · exact hall j hj
      | true =>
        refine Or.inr ⟨k, by simp, hk, by rw [hk] at he; simpa using he, ?_⟩
        intro j hj hpj
        rcases List.mem_cons.mp hj with rfl | hj
        · exact le_refl _
        · rw [hall j hj] at hpj; exact absurd hpj (by simp)
    · refine Or.inr ⟨j, List.mem_cons_of_mem _ hj, hpj, he, ?_⟩
      intro i hi hpi
      rcases List.mem_cons.mp hi with rfl | hi
      · exact le_of_lt (hp.1 j hj)
      · exact hmax i hi hpi

/-- What the key scan finds: nothing when no key is down, else the highest key that is down (R204). -/
theorem scanKeys_cases (s : State) :
    (scanKeys s = none ∧ ∀ k, Cap.isPressed k s = false) ∨
    ∃ k, scanKeys s = some k ∧ Cap.isPressed k s = true ∧ ∀ j, Cap.isPressed j s = true → j ≤ k := by
  have hsorted : (List.finRange 16).Pairwise (· < ·) := List.pairwise_lt_finRange 16
  rcases scan_foldl s (List.finRange 16) hsorted none with ⟨h, hall⟩ | ⟨k, _, hk, h, hmax⟩
  · exact Or.inl ⟨h, fun k => hall k (List.mem_finRange k)⟩
  · exact Or.inr ⟨k, h, hk, fun j hj => hmax j (List.mem_finRange j) hj⟩

end Sys2Proof.Machine
end

