-- ==== Sys2Proof/Laws/Decode.lean ====
section
/-! SUPPORT. The fields of a word built from its nibbles, and the conversions of the operand types. -/

namespace Sys2Proof

theorem encodeNat_lt (i : Instr) : encodeNat i < 65536 := by
  have hx : ∀ x : Fin 16, x.val ≤ 15 := fun x => by omega
  have hk : ∀ k : Byte, k.toNat ≤ 255 := fun k => by have := k.isLt; omega
  have hn : ∀ n : Address, n.toNat ≤ 4095 := fun n => by have := n.isLt; omega
  cases i <;> simp only [encodeNat] <;> grind

theorem encode_toNat (i : Instr) : (encode i).toNat = encodeNat i := by
  have := encodeNat_lt i
  simp only [encode, BitVec.toNat_ofNat]
  omega

theorem field_eq (w : Word16) (hi lo : Nat) : field w hi lo = w.toNat / 2 ^ lo % 2 ^ (hi - lo + 1) := rfl

theorem field_low (w : Word16) : field w 7 0 = w.toNat % 256 := by rw [field_eq]; omega

theorem fieldN3_eq (w : Word16) : fieldN3 w = w.toNat / 4096 := by
  have := w.isLt
  simp only [fieldN3, field]
  omega

theorem fieldX_val (w : Word16) : (fieldX w).val = w.toNat / 256 % 16 := by
  simp [fieldX, field, Fin.ofNat]

theorem fieldY_val (w : Word16) : (fieldY w).val = w.toNat / 16 % 16 := by
  simp [fieldY, field, Fin.ofNat]

theorem fieldN_val (w : Word16) : (fieldN w).val = w.toNat % 16 := by
  simp [fieldN, field, Fin.ofNat]

theorem fieldKK_toNat (w : Word16) : (fieldKK w).toNat = w.toNat % 256 := by
  simp [fieldKK, field]

theorem fieldNNN_toNat (w : Word16) : (fieldNNN w).toNat = w.toNat % 4096 := by
  simp [fieldNNN, field]

/-- A register index is the `x` field of a word when their numbers agree; and so on for the other operand types. -/
theorem fieldX_of {w : Word16} {x : RegisterIndex} (h : w.toNat / 256 % 16 = x.val) : fieldX w = x :=
  Fin.ext (by rw [fieldX_val, h])

theorem fieldY_of {w : Word16} {y : RegisterIndex} (h : w.toNat / 16 % 16 = y.val) : fieldY w = y :=
  Fin.ext (by rw [fieldY_val, h])

theorem fieldN_of {w : Word16} {n : Nibble} (h : w.toNat % 16 = n.val) : fieldN w = n :=
  Fin.ext (by rw [fieldN_val, h])

theorem fieldKK_of {w : Word16} {k : Byte} (h : w.toNat % 256 = k.toNat) : fieldKK w = k :=
  BitVec.eq_of_toNat_eq (by rw [fieldKK_toNat, h])

theorem fieldNNN_of {w : Word16} {a : Address} (h : w.toNat % 4096 = a.toNat) : fieldNNN w = a :=
  BitVec.eq_of_toNat_eq (by rw [fieldNNN_toNat, h])

/-! ## The masks of the opcode map (R96) as arithmetic -/

/-- The mask `F000` keeps the major nibble. -/
theorem mask_high (w : Word16) : (w &&& 0xF000#16).toNat = w.toNat / 4096 * 4096 := by
  have hw := w.isLt
  have h : w.toNat &&& (15 <<< 12) = ((w.toNat >>> 12) &&& 15) <<< 12 := by
    apply Nat.eq_of_testBit_eq
    intro i
    simp only [Nat.testBit_and, Nat.testBit_shiftLeft, Nat.testBit_shiftRight]
    by_cases hi : 12 ≤ i
    · simp [hi]
    · simp [hi]
  rw [BitVec.toNat_and, show (0xF000#16).toNat = 15 <<< 12 by decide, h,
    show 15 = 2 ^ 4 - 1 by decide, Nat.and_two_pow_sub_one_eq_mod, Nat.shiftLeft_eq, Nat.shiftRight_eq_div_pow]
  omega

/-- The masks `F00F` and `F0FF` keep the major nibble and the low bits. -/
theorem mask_low (w : Word16) (n : Nat) (hn : n ≤ 12) (m : Word16) (hm : m.toNat = 0xF000 + (2 ^ n - 1)) :
    (w &&& m).toNat = w.toNat / 4096 * 4096 + w.toNat % 2 ^ n := by
  have hp : 2 ^ n ≤ 2 ^ 12 := Nat.pow_le_pow_right (by decide) hn
  have h1 := mask_high w
  rw [BitVec.toNat_and, show (0xF000#16).toNat = 15 <<< 12 by decide] at h1
  have hm' : m.toNat = 15 <<< 12 ||| (2 ^ n - 1) := by
    rw [← Nat.shiftLeft_add_eq_or_of_lt (by omega), hm, Nat.shiftLeft_eq]
  rw [BitVec.toNat_and, hm', Nat.and_or_distrib_left, h1, Nat.and_two_pow_sub_one_eq_mod]
  have hlt : w.toNat % 2 ^ n < 2 ^ 12 := lt_of_lt_of_le (Nat.mod_lt _ (by positivity)) hp
  have := Nat.shiftLeft_add_eq_or_of_lt hlt (w.toNat / 4096)
  rw [Nat.shiftLeft_eq] at this
  exact this.symm

/-- Acceptance by a row (R95), as numbers. -/
theorem accepts_iff (r : OpcodeRow) (w : Word16) :
    r.accepts w = true ↔ (w &&& r.mask).toNat = r.pattern.toNat := by
  rw [OpcodeRow.accepts, beq_iff_eq, ← BitVec.toNat_inj]

theorem accepts_full (k : Nat) (p w : Word16) :
    (OpcodeRow.mk k p 0xFFFF#16).accepts w = decide (w.toNat = p.toNat) := by
  rw [Bool.eq_iff_iff, accepts_iff, decide_eq_true_iff]
  simp only
  rw [show (0xFFFF#16) = BitVec.allOnes 16 by decide, BitVec.and_allOnes]

theorem accepts_major (k : Nat) (p w : Word16) :
    (OpcodeRow.mk k p 0xF000#16).accepts w = decide (w.toNat / 4096 * 4096 = p.toNat) := by
  rw [Bool.eq_iff_iff, accepts_iff, decide_eq_true_iff]
  simp only
  rw [mask_high]

theorem accepts_minor4 (k : Nat) (p w : Word16) :
    (OpcodeRow.mk k p 0xF00F#16).accepts w = decide (w.toNat / 4096 * 4096 + w.toNat % 16 = p.toNat) := by
  rw [Bool.eq_iff_iff, accepts_iff, decide_eq_true_iff]
  simp only
  rw [mask_low w 4 (by decide) _ (by decide)]
  exact Iff.rfl

theorem accepts_minor8 (k : Nat) (p w : Word16) :
    (OpcodeRow.mk k p 0xF0FF#16).accepts w = decide (w.toNat / 4096 * 4096 + w.toNat % 256 = p.toNat) := by
  rw [Bool.eq_iff_iff, accepts_iff, decide_eq_true_iff]
  simp only
  rw [mask_low w 8 (by decide) _ (by decide)]
  exact Iff.rfl

end Sys2Proof
end

