-- ==== Sys2Proof/Laws/Memory.lean ====
section
/-! SUPPORT. The laws of memory: a read after a write to the same address gives the value written, every other address is
left alone, and every operation keeps the canonical form. -/

namespace Sys2Proof.Machine.Memory

theorem read_insert (m : Memory) (c : Host.Cell) (h : ∀ d ∈ m, d.1 ≠ c.1) (a : Nat) :
    Memory.read (Memory.insert c m) a = if c.1 = a then c.2 else Memory.read m a := by
  induction m with
  | nil => simp [insert, read]
  | cons d m ih =>
    have hd : d.1 ≠ c.1 := h d (by simp)
    have ih := ih fun e he => h e (by simp [he])
    simp only [insert]
    split
    · simp [read]
    · simp only [read, ih]
      by_cases hda : d.1 = a
      · have : c.1 ≠ a := fun hc => hd (by omega)
        simp [hda, this]
      · simp [hda]

theorem read_erase_other (m : Memory) {a b : Nat} (h : a ≠ b) :
    Memory.read (Memory.erase m a) b = Memory.read m b := by
  induction m with
  | nil => rfl
  | cons d m ih =>
    unfold erase at ih ⊢
    by_cases hd : d.1 = a
    · have : d.1 ≠ b := by omega
      simp [hd, read, h, ih]
    · simp [hd, read, ih]

theorem read_erase_same (m : Memory) (a : Nat) : Memory.read (Memory.erase m a) a = Memory.unlisted a := by
  induction m with
  | nil => rfl
  | cons d m ih =>
    unfold erase at ih ⊢
    by_cases hd : d.1 = a
    · simp [hd, ih]
    · simp [hd, read, ih]

theorem erase_absent (m : Memory) (a : Nat) : ∀ d ∈ Memory.erase m a, d.1 ≠ a := by
  intro d hd
  simpa using (List.mem_filter.mp hd).2

/-- A read after a write, at any address (R71). -/
theorem read_write (m : Memory) (a b : Nat) (v : Byte) :
    Memory.read (Memory.write m a v) b = if a = b then v else Memory.read m b := by
  unfold write
  split
  · rename_i hv
    by_cases hab : a = b
    · subst hab; simp [read_erase_same, hv]
    · simp [hab, read_erase_other m hab]
  · rw [read_insert _ _ (fun d hd => erase_absent m a d hd)]
    by_cases hab : a = b
    · simp [hab]
    · simp [hab, read_erase_other m hab]

@[simp] theorem read_write_same (m : Memory) (a : Nat) (v : Byte) :
    Memory.read (Memory.write m a v) a = v := by
  simp [read_write]

theorem read_write_other (m : Memory) {a b : Nat} (v : Byte) (h : a ≠ b) :
    Memory.read (Memory.write m a v) b = Memory.read m b := by
  simp [read_write, h]

/-! ## The canonical form -/

theorem wf_iff (m : Memory) :
    Memory.wf m = true ↔ m.Pairwise (fun c d => c.1 < d.1) ∧
      ∀ c ∈ m, c.1 < Config.memSize ∧ c.2 ≠ Memory.unlisted c.1 := by
  simp [wf, cellsWf]

theorem mem_insert (m : Memory) (c d : Host.Cell) : d ∈ Memory.insert c m ↔ d = c ∨ d ∈ m := by
  induction m with
  | nil => simp [insert]
  | cons e m ih =>
    simp only [insert]
    split
    · simp
    · simp [ih]; tauto

theorem insert_rising (m : Memory) (c : Host.Cell) (h : m.Pairwise (fun c d => c.1 < d.1))
    (hc : ∀ d ∈ m, d.1 ≠ c.1) : (Memory.insert c m).Pairwise (fun c d => c.1 < d.1) := by
  induction m with
  | nil => simp [insert]
  | cons e m ih =>
    rw [List.pairwise_cons] at h
    have he : e.1 ≠ c.1 := hc e (by simp)
    simp only [insert]
    split
    · rename_i hlt
      refine List.pairwise_cons.mpr ⟨?_, List.pairwise_cons.mpr h⟩
      intro d hd
      rcases List.mem_cons.mp hd with rfl | hd
      · exact hlt
      · have := h.1 d hd; omega
    · rename_i hlt
      refine List.pairwise_cons.mpr ⟨?_, ih h.2 fun d hd => hc d (by simp [hd])⟩
      intro d hd
      rcases (mem_insert m c d).mp hd with rfl | hd
      · omega
      · exact h.1 d hd

theorem erase_wf (m : Memory) (a : Nat) (h : Memory.wf m = true) : Memory.wf (Memory.erase m a) = true := by
  rw [wf_iff] at h ⊢
  exact ⟨h.1.filter _, fun c hc => h.2 c (List.mem_filter.mp hc).1⟩

/-- A write inside the address space keeps the canonical form. -/
theorem write_wf (m : Memory) (a : Nat) (v : Byte) (ha : a < Config.memSize) (h : Memory.wf m = true) :
    Memory.wf (Memory.write m a v) = true := by
  have he := erase_wf m a h
  unfold write
  split
  · exact he
  · rename_i hv
    rw [wf_iff] at he ⊢
    refine ⟨insert_rising _ _ he.1 (fun d hd => erase_absent m a d hd), ?_⟩
    intro c hc
    rcases (mem_insert _ _ _).mp hc with rfl | hc
    · exact ⟨ha, hv⟩
    · exact he.2 c hc

theorem read_of_rising (m : Memory) (c : Host.Cell) (h : m.Pairwise (fun c d => c.1 < d.1)) (hc : c ∈ m) :
    Memory.read m c.1 = c.2 := by
  induction m with
  | nil => simp at hc
  | cons d m ih =>
    rw [List.pairwise_cons] at h
    rcases List.mem_cons.mp hc with rfl | hc
    · simp [read]
    · have := h.1 c hc
      have hne : d.1 ≠ c.1 := by omega
      simp [read, hne, ih h.2 hc]

theorem read_absent (m : Memory) (a : Nat) (h : ∀ c ∈ m, c.1 ≠ a) : Memory.read m a = Memory.unlisted a := by
  induction m with
  | nil => rfl
  | cons d m ih =>
    have := h d (by simp)
    simp [read, this, ih fun c hc => h c (by simp [hc])]

/-- Two canonical memories that read alike are the same data. -/
theorem eq_of_read (m n : Memory) (hm : Memory.wf m = true) (hn : Memory.wf n = true)
    (h : ∀ a, Memory.read m a = Memory.read n a) : m = n := by
  rw [wf_iff] at hm hn
  have sub : ∀ (m n : Memory), m.Pairwise (fun c d => c.1 < d.1) →
      (∀ c ∈ m, c.1 < Config.memSize ∧ c.2 ≠ Memory.unlisted c.1) → n.Pairwise (fun c d => c.1 < d.1) →
      (∀ a, Memory.read m a = Memory.read n a) → ∀ c ∈ m, c ∈ n := by
    intro m n hm hm' hn h c hc
    have hr := read_of_rising m c hm hc
    by_contra hcn
    have hex : ∃ d ∈ n, d.1 = c.1 := by
      by_contra hno
      have habs := read_absent n c.1 (fun d hd hdc => hno ⟨d, hd, hdc⟩)
      exact (hm' c hc).2 (by rw [← hr, h, habs])
    obtain ⟨d, hd, hdc⟩ := hex
    have hr' := read_of_rising n d hn hd
    have : d = c := Prod.ext hdc (by rw [← hr', hdc, ← h, hr])
    exact hcn (this ▸ hd)
  refine List.Perm.eq_of_pairwise (le := fun c d : Host.Cell => c.1 < d.1) ?_ hm.1 hn.1 ?_
  · intro a b _ _ hab hba; omega
  · have nd : ∀ k : Memory, k.Pairwise (fun c d => c.1 < d.1) → k.Nodup := fun k hk =>
      hk.imp (fun {c d} hcd hne => by subst hne; omega)
    exact (List.perm_ext_iff_of_nodup (nd m hm.1) (nd n hn.1)).mpr fun c =>
      ⟨sub m n hm.1 hm.2 hn.1 h c, sub n m hn.1 hn.2 hm.1 (fun a => (h a).symm) c⟩

theorem writeList_wf (vs : List Byte) : ∀ (m : Memory) (a : Nat), a + vs.length ≤ Config.memSize →
    Memory.wf m = true → Memory.wf (Memory.writeList m a vs) = true := by
  induction vs with
  | nil => intro m a _ h; exact h
  | cons v vs ih =>
    intro m a ha h
    simp only [List.length_cons] at ha
    exact ih _ _ (by omega) (write_wf m a v (by omega) h)

end Sys2Proof.Machine.Memory
end

