-- ==== Sys2Proof/Laws/Ops.lean ====
section
/-! SUPPORT. One lemma per shared operation that says everything it can do: accesses, block transfers, the call stack, and
the ways an instruction ends. -/

namespace Sys2Proof.Machine

/-! ## Accesses -/

theorem memRead_inside {a : Nat} (s : State) (h : a < Config.memSize) : memRead a s = .ok (s.byteAt a) := by
  simp [memRead, h]

theorem memRead_outside {a : Nat} (s : State) (h : ¬ a < Config.memSize) :
    memRead a s = .error (.addressRange a) := by
  simp [memRead, h]

theorem memWrite_inside {a : Nat} (v : Byte) (s : State) (h : a < Config.memSize) :
    memWrite a v s = .ok (s.setMem (Memory.write s.mem a v)) := by
  simp [memWrite, h]

theorem memWrite_outside {a : Nat} (v : Byte) (s : State) (h : ¬ a < Config.memSize) :
    memWrite a v s = .error (.addressRange a) := by
  simp [memWrite, h]

theorem setI_inside {v : Nat} (s : State) (h : v ≤ 4095) : setI v s = .ok (s.setIdx (BitVec.ofNat 12 v)) := by
  simp [setI, h]

theorem setI_outside {v : Nat} (s : State) (h : ¬ v ≤ 4095) : setI v s = .error (.addressRange v) := by
  simp [setI, h]

theorem wordOfBytes_toNat (hi lo : Byte) : (wordOfBytes hi lo).toNat = hi.toNat * 256 + lo.toNat := by
  have := hi.isLt
  have := lo.isLt
  simp only [wordOfBytes, BitVec.toNat_ofNat]
  omega

theorem wordOfBytes_of_word (w : Word16) : wordOfBytes (highByte w) (lowByte w) = w := by
  have := w.isLt
  apply BitVec.eq_of_toNat_eq
  rw [wordOfBytes_toNat]
  simp only [highByte, lowByte, BitVec.toNat_ofNat]
  omega

theorem memReadWord_inside {a : Nat} (s : State) (h : a + 1 < Config.memSize) :
    memReadWord a s = .ok (wordOfBytes (s.byteAt a) (s.byteAt (a + 1))) := by
  simp [memReadWord, memRead_inside s h, memRead_inside s (show a < Config.memSize by omega)]

theorem memReadWord_outside {a : Nat} (s : State) (h : ¬ a + 1 < Config.memSize) :
    ∃ b, memReadWord a s = .error (.addressRange b) := by
  unfold memReadWord
  by_cases ha : a < Config.memSize
  · rw [memRead_inside s ha, memRead_outside s h]; exact ⟨_, rfl⟩
  · rw [memRead_outside s ha]; exact ⟨_, rfl⟩

/-! ## Blocks -/

/-- A block of bytes read: the bytes at the addresses, in order (R65). -/
theorem readBlock_inside (n : Nat) : ∀ (a : Nat) (s : State), (n = 0 ∨ a + n ≤ Config.memSize) →
    readBlock a n s = .ok ((List.range n).map fun i => s.byteAt (a + i)) := by
  induction n with
  | zero => intro a s _; simp [readBlock]
  | succ n ih =>
    intro a s h
    have h : a + (n + 1) ≤ Config.memSize := by omega
    rw [readBlock, memRead_inside s (by omega)]
    simp only [ih (a + 1) s (by omega), List.range_succ_eq_map, List.map_cons, List.map_map]
    simp only [Nat.add_zero, Except.ok.injEq, List.cons.injEq, true_and, List.map_inj_left]
    intro i _
    simp only [Function.comp_apply]
    congr 1
    omega

/-- A block that runs past the end of memory faults on the first address behind it. -/
theorem readBlock_outside (n : Nat) : ∀ (a : Nat) (s : State), a ≤ Config.memSize → n ≠ 0 →
    ¬ a + n ≤ Config.memSize → readBlock a n s = .error (.addressRange Config.memSize) := by
  induction n with
  | zero => intro a s _ h; exact absurd rfl h
  | succ n ih =>
    intro a s ha _ h
    by_cases hlt : a < Config.memSize
    · have hn : n ≠ 0 := by rintro rfl; omega
      rw [readBlock, memRead_inside s hlt, ih (a + 1) s (by omega) hn (by omega)]
    · have : a = Config.memSize := by omega
      subst this
      rw [readBlock, memRead_outside s (by omega)]

/-- A block of bytes stored: memory is written in order and nothing else changes (R65). -/
theorem storeBlock_inside (vs : List Byte) : ∀ (a : Nat) (s : State), (vs = [] ∨ a + vs.length ≤ Config.memSize) →
    storeBlock a vs s = .ok (s.setMem (Memory.writeList s.mem a vs)) := by
  induction vs with
  | nil => intro a s _; rfl
  | cons v vs ih =>
    intro a s h
    have h : a + (vs.length + 1) ≤ Config.memSize := by simpa using h
    rw [storeBlock, memWrite_inside v s (by omega)]
    simp only [ih (a + 1) _ (Or.inr (by omega))]
    rfl

/-- A block stored past the end of memory faults on the first address behind it. -/
theorem storeBlock_outside (vs : List Byte) : ∀ (a : Nat) (s : State), a ≤ Config.memSize → vs ≠ [] →
    ¬ a + vs.length ≤ Config.memSize → storeBlock a vs s = .error (.addressRange Config.memSize) := by
  induction vs with
  | nil => intro a s _ h; exact absurd rfl h
  | cons v vs ih =>
    intro a s ha _ h
    simp only [List.length_cons] at h
    by_cases hlt : a < Config.memSize
    · have hn : vs ≠ [] := by rintro rfl; simp at h; omega
      rw [storeBlock, memWrite_inside v s hlt]
      exact ih (a + 1) _ (by omega) hn (by omega)
    · have : a = Config.memSize := by omega
      subst this
      rw [storeBlock, memWrite_outside v s (by omega)]

/-- What memory reads as after a list of bytes has been written. -/
theorem Memory.read_writeList (vs : List Byte) : ∀ (m : Memory) (a b : Nat),
    Memory.read (Memory.writeList m a vs) b =
      if a ≤ b ∧ b < a + vs.length then vs.getD (b - a) 0#8 else Memory.read m b := by
  induction vs with
  | nil =>
    intro m a b
    have : ¬ (a ≤ b ∧ b < a + 0) := by omega
    simp [Memory.writeList]
  | cons v vs ih =>
    intro m a b
    rw [Memory.writeList, ih, Memory.read_write]
    simp only [List.length_cons]
    by_cases h1 : a + 1 ≤ b ∧ b < a + 1 + vs.length
    · have h2 : a ≤ b ∧ b < a + (vs.length + 1) := by omega
      have h3 : b - a = (b - (a + 1)) + 1 := by omega
      simp only [h1, h2, and_self, if_true, h3, List.getD_cons_succ]
    · by_cases hab : a = b
      · subst hab; simp
      · have h2 : ¬ (a ≤ b ∧ b < a + (vs.length + 1)) := by omega
        rw [if_neg h1, if_neg h2, if_neg hab]

/-- Writing what unlisted addresses read as lists nothing. -/
theorem Memory.writeList_unlisted (vs : List Byte) : ∀ a : Nat,
    (∀ j, j < vs.length → vs.getD j 0#8 = Memory.unlisted (a + j)) → Memory.writeList [] a vs = [] := by
  induction vs with
  | nil => intro a _; rfl
  | cons v vs ih =>
    intro a h
    have hv : v = Memory.unlisted a := h 0 (by simp)
    have hw : Memory.write [] a v = [] := by rw [Memory.write, if_pos hv, Memory.erase, List.filter_nil]
    rw [Memory.writeList, hw]
    refine ih (a + 1) fun j hj => ?_
    have := h (j + 1) (by simpa using hj)
    rwa [List.getD_cons_succ, ← Nat.add_assoc, Nat.add_right_comm] at this

/-- The default image with no payload is the memory that lists nothing. -/
theorem imageMemory_default (entry : Address) : imageMemory defaultFont entry [] = [] := by
  have h : Memory.writeList [] 0 defaultFont.toList = [] :=
    Memory.writeList_unlisted _ 0 fun j _ => by rw [Nat.zero_add]; rfl
  rw [imageMemory, h, Memory.writeList]

/-- `State.reset` is construction from the default image (R38, R350). -/
theorem reset_eq_ofImage : State.reset = State.ofImage defaultParams defaultFont defaultEntry [] := by
  rw [State.ofImage, imageMemory_default, State.reset]

/-! ## Blocks of registers -/

@[simp] theorem regsThrough_length (x : RegisterIndex) (s : State) : (regsThrough x s).length = x.val + 1 := by
  have := x.isLt
  simp only [regsThrough, List.length_take, Vector.length_toList]
  omega

theorem regsThrough_getD (x r : RegisterIndex) (s : State) (h : r ≤ x) :
    (regsThrough x s).getD r.val 0#8 = s.V r := by
  have hx := x.isLt
  have hr : r.val < x.val + 1 := by have : r.val ≤ x.val := h; omega
  have hlen : r.val < (regsThrough x s).length := by simpa using hr
  rw [List.getD_eq_getElem?_getD, List.getElem?_eq_getElem hlen]
  simp [regsThrough, State.V]

theorem V_setVNat (i : Nat) (v : Byte) (s : State) (r : RegisterIndex) :
    (setVNat i v s).V r = if i = r.val then v else s.V r := by
  unfold setVNat
  split
  · rw [State.V_setV]
    simp [Fin.ext_iff]
  · have := r.isLt
    have : i ≠ r.val := by omega
    simp [this]

/-- What the registers read as after a block has been loaded. -/
theorem V_setRegsFrom (vs : List Byte) : ∀ (i : Nat) (s : State) (r : RegisterIndex),
    (setRegsFrom i vs s).V r =
      if i ≤ r.val ∧ r.val < i + vs.length then vs.getD (r.val - i) 0#8 else s.V r := by
  induction vs with
  | nil =>
    intro i s r
    have : ¬ (i ≤ r.val ∧ r.val < i + 0) := by omega
    simp [setRegsFrom]
  | cons v vs ih =>
    intro i s r
    rw [setRegsFrom, ih, V_setVNat]
    simp only [List.length_cons]
    by_cases h1 : i + 1 ≤ r.val ∧ r.val < i + 1 + vs.length
    · have h2 : i ≤ r.val ∧ r.val < i + (vs.length + 1) := by omega
      have h3 : r.val - i = (r.val - (i + 1)) + 1 := by omega
      simp only [h1, h2, and_self, if_true, h3, List.getD_cons_succ]
    · by_cases hi : i = r.val
      · subst hi; simp
      · have h2 : ¬ (i ≤ r.val ∧ r.val < i + (vs.length + 1)) := by omega
        rw [if_neg h1, if_neg h2, if_neg hi]

/-- Loading a block of registers changes registers only. -/
theorem setRegsFrom_eq (vs : List Byte) : ∀ (i : Nat) (s : State),
    ∃ regs, setRegsFrom i vs s = { s with regs := regs } := by
  induction vs with
  | nil => intro i s; exact ⟨s.regs, rfl⟩
  | cons v vs ih =>
    intro i s
    obtain ⟨regs, h⟩ := ih (i + 1) (setVNat i v s)
    refine ⟨regs, ?_⟩
    rw [setRegsFrom, h]
    unfold setVNat
    split <;> rfl

/-! ## The call stack -/

theorem pushReturn_full (t : Word16) (s : State) (h : s.sp.val = 16) : pushReturn t s = none := by
  simp [pushReturn, h]

theorem pushReturn_room (t : Word16) (s : State) (h : s.sp.val < 16) :
    pushReturn t s = some (s.setStack (s.stack.set s.sp.val t h) ⟨s.sp.val + 1, by omega⟩) := by
  simp [pushReturn, h]

theorem popReturn_empty (s : State) (h : s.sp.val = 0) : popReturn s = none := by
  simp [popReturn, h]

theorem popReturn_some (s : State) (h : s.sp.val ≠ 0) :
    popReturn s = some (s.stack[s.sp.val - 1]'(by omega), s.setStack s.stack ⟨s.sp.val - 1, by omega⟩) := by
  simp [popReturn, h]

/-! ## How an instruction ends -/

@[simp] theorem orFault_ok {α : Type} (a : α) (k : α → StepOutcome) : orFault (.ok a) k = k a := rfl

@[simp] theorem orFault_error {α : Type} (f : Fault) (k : α → StepOutcome) :
    orFault (.error f) k = .fault f := rfl

/-- `next()` always ends in a next state: only `pc` and the result change. -/
theorem nextPc_eq (s : State) : nextPc s = .next ((s.setPc (s.pc + 2#16)).setResult .ok) := rfl

theorem skipPc_eq (s : State) : skipPc s = .next ((s.setPc (s.pc + 4#16)).setResult .ok) := rfl

theorem jumpTo_eq (t : Word16) (s : State) : jumpTo t s = .next ((s.setPc t).setResult .ok) := rfl

theorem stayPc_eq (s : State) : stayPc s = .next (s.setResult .ok) := rfl

theorem raiseError_eq (e : ErrorKind) (s : State) : raiseError e s = .next (s.setResult (.error e)) := rfl

theorem skipIf_eq (c : Bool) (s : State) :
    skipIf c s = .next ((s.setPc (s.pc + if c then 4#16 else 2#16)).setResult .ok) := by
  cases c <;> rfl

/-- `V[x] <- r`, then `VF <- flag` (R130): the flag survives in `V[15]`, the result in every other `V[x]`. -/
theorem V_writeWithFlag (x : RegisterIndex) (r flag : Byte) (s : State) (j : RegisterIndex) :
    (writeWithFlag x r flag s).V j = if j = flagReg then flag else if j = x then r else s.V j := by
  unfold writeWithFlag
  rw [State.V_setV, State.V_setV]
  by_cases h1 : j = flagReg
  · simp [h1]
  · have h1' : flagReg ≠ j := fun e => h1 e.symm
    by_cases h2 : j = x
    · rw [if_neg h1', if_pos h2.symm, if_neg h1, if_pos h2]
    · have h2' : x ≠ j := fun e => h2 e.symm
      simp [h1, h1', h2, h2']

end Sys2Proof.Machine
end

