-- ==== Sys2Proof/Laws/Exec.lean ====
section
/-! SUPPORT. For every meaning that has a case split or a fault, the lemmas that say what it answers in each case; every other
meaning is one direct `nextPc`, `jumpTo` or `skipIf`. -/

namespace Sys2Proof.Machine

/-! ## Index register and memory -/

theorem execLdI_eq (nnn : Address) (s : State) : execLdI nnn s = nextPc (s.setIdx nnn) := by
  rw [execLdI, setI_inside _ (by omega), orFault_ok, BitVec.ofNat_toNat, BitVec.setWidth_eq]

theorem execLdF_eq (x : RegisterIndex) (s : State) :
    execLdF x s = nextPc (s.setIdx (BitVec.ofNat 12 (glyphAddr s x))) := by
  rw [execLdF, setI_inside _ (by simp only [glyphAddr, Config.fontStride]; omega), orFault_ok]

theorem execAddI_inside (x : RegisterIndex) (s : State) (h : indexPlusReg s x ≤ 4095) :
    execAddI x s = nextPc (s.setIdx (BitVec.ofNat 12 (indexPlusReg s x))) := by
  rw [execAddI, setI_inside _ h, orFault_ok]

theorem execAddI_outside (x : RegisterIndex) (s : State) (h : ¬ indexPlusReg s x ≤ 4095) :
    execAddI x s = .fault (.addressRange (indexPlusReg s x)) := by
  rw [execAddI, setI_outside _ h, orFault_error]

theorem execLdB_inside (x : RegisterIndex) (s : State) (h : indexAddr s 2 ≤ 4095) :
    execLdB x s = nextPc (s.setMem (Memory.writeList s.mem (indexAddr s 0) (bcdDigits (s.V x)))) := by
  have hl : (bcdDigits (s.V x)).length = 3 := rfl
  simp only [indexAddr] at h
  rw [execLdB, storeBlock_inside _ _ _ (Or.inr (by rw [hl]; simp only [indexAddr, Config.memSize]; omega)), orFault_ok]

theorem execLdB_outside (x : RegisterIndex) (s : State) (h : ¬ indexAddr s 2 ≤ 4095) :
    execLdB x s = .fault (.addressRange 4096) := by
  have hi := s.idx.isLt
  have hl : (bcdDigits (s.V x)).length = 3 := rfl
  simp only [indexAddr] at h
  rw [execLdB, storeBlock_outside _ _ _ (by simp only [indexAddr, Config.memSize]; omega) (by simp [bcdDigits])
    (by rw [hl]; simp only [indexAddr, Config.memSize]; omega), orFault_error]
  rfl

theorem execStoreRegs_inside (x : RegisterIndex) (s : State) (h : indexAfterBlock s x ≤ 4095) :
    execStoreRegs x s = nextPc ((s.setMem (Memory.writeList s.mem (indexAddr s 0) (regsThrough x s))).setIdx
      (BitVec.ofNat 12 (indexAfterBlock s x))) := by
  have hb : indexAddr s 0 + (regsThrough x s).length ≤ Config.memSize := by
    simp only [indexAfterBlock, regsThrough_length, indexAddr, Config.memSize] at *; omega
  rw [execStoreRegs, storeBlock_inside _ _ _ (Or.inr hb), orFault_ok, setI_inside _ h, orFault_ok]

theorem execStoreRegs_outside (x : RegisterIndex) (s : State) (h : ¬ indexAfterBlock s x ≤ 4095) :
    execStoreRegs x s = .fault (.addressRange 4096) := by
  have hi := s.idx.isLt
  have hl := regsThrough_length x s
  rw [execStoreRegs]
  by_cases h2 : indexAddr s 0 + (regsThrough x s).length ≤ Config.memSize
  · have he : indexAfterBlock s x = 4096 := by
      simp only [hl, indexAddr, Config.memSize, indexAfterBlock] at *; omega
    rw [storeBlock_inside _ _ _ (Or.inr h2), orFault_ok, he, setI_outside _ (by omega), orFault_error]
  · rw [storeBlock_outside _ _ _ (by simp only [indexAddr, Config.memSize]; omega)
      (by intro hn; rw [hn] at hl; cases hl) h2, orFault_error]
    rfl

theorem execLoadRegs_inside (x : RegisterIndex) (s : State) (h : indexAfterBlock s x ≤ 4095) :
    execLoadRegs x s =
      nextPc ((setRegsFrom 0 ((List.range (x.val + 1)).map fun i => s.byteAt (indexAddr s 0 + i)) s).setIdx
        (BitVec.ofNat 12 (indexAfterBlock s x))) := by
  have hb : indexAddr s 0 + (x.val + 1) ≤ Config.memSize := by
    simp only [indexAfterBlock, indexAddr, Config.memSize] at *; omega
  rw [execLoadRegs, readBlock_inside _ _ _ (Or.inr hb), orFault_ok, setI_inside _ h, orFault_ok]

theorem execLoadRegs_outside (x : RegisterIndex) (s : State) (h : ¬ indexAfterBlock s x ≤ 4095) :
    execLoadRegs x s = .fault (.addressRange 4096) := by
  have hi := s.idx.isLt
  rw [execLoadRegs]
  by_cases h2 : indexAddr s 0 + (x.val + 1) ≤ Config.memSize
  · have he : indexAfterBlock s x = 4096 := by
      simp only [indexAddr, Config.memSize, indexAfterBlock] at *; omega
    rw [readBlock_inside _ _ _ (Or.inr h2), orFault_ok, he, setI_outside _ (by omega), orFault_error]
  · rw [readBlock_outside _ _ _ (by simp only [indexAddr, Config.memSize]; omega) (by omega) h2, orFault_error]
    rfl

/-! ## Calls and returns -/

theorem execCall_room (nnn : Address) (s : State) (h : s.sp.val < 16) :
    execCall nnn s = jumpTo (targetPc nnn)
      (s.setStack (s.stack.set s.sp.val (returnPc s) h) ⟨s.sp.val + 1, by omega⟩) := by
  rw [execCall, pushReturn_room _ _ h]

theorem execCall_full (nnn : Address) (s : State) (h : s.sp.val = 16) :
    execCall nnn s = raiseError .stackOverflow s := by
  rw [execCall, pushReturn_full _ _ h]

theorem execRet_some (s : State) (h : s.sp.val ≠ 0) :
    execRet s = jumpTo (s.stack[s.sp.val - 1]'(by omega)) (s.setStack s.stack ⟨s.sp.val - 1, by omega⟩) := by
  rw [execRet, popReturn_some _ h]

theorem execRet_empty (s : State) (h : s.sp.val = 0) : execRet s = raiseError .stackUnderflow s := by
  rw [execRet, popReturn_empty _ h]

/-! ## Display, keypad, random -/

theorem execDrw_inside (x y : RegisterIndex) (n : Nibble) (s : State)
    (h : n.val = 0 ∨ s.idx.toNat + n.val - 1 ≤ 4095) :
    execDrw x y n s =
      let r := Cap.draw (s.V x) (s.V y) ((List.range n.val).map fun i => s.byteAt (indexAddr s 0 + i)) s
      nextPc (r.2.setV flagReg (collisionFlag r.1)) := by
  have hb : n.val = 0 ∨ indexAddr s 0 + n.val ≤ Config.memSize := by
    simp only [indexAddr, Config.memSize]; omega
  rw [execDrw, readBlock_inside _ _ _ hb, orFault_ok]

theorem execDrw_outside (x y : RegisterIndex) (n : Nibble) (s : State)
    (h : ¬ (n.val = 0 ∨ s.idx.toNat + n.val - 1 ≤ 4095)) :
    execDrw x y n s = .fault (.addressRange 4096) := by
  have hi := s.idx.isLt
  rw [execDrw, readBlock_outside _ _ _ (by simp only [indexAddr, Config.memSize]; omega) (by omega)
    (by simp only [indexAddr, Config.memSize]; omega), orFault_error]
  rfl

theorem keyOperand_key (s : State) (x : RegisterIndex) (h : (s.V x).toNat < 16) :
    keyOperand s x = .ok ⟨(s.V x).toNat, h⟩ := by
  simp [keyOperand, h]

theorem keyOperand_other (s : State) (x : RegisterIndex) (h : ¬ (s.V x).toNat < 16) :
    keyOperand s x = .error (.invalidKey (s.V x)) := by
  simp [keyOperand, h]

theorem execSkp_key (x : RegisterIndex) (s : State) (h : (s.V x).toNat < 16) :
    execSkp x s = skipIf (s.keys[(s.V x).toNat]) s := by
  rw [execSkp, keyOperand_key s x h]; rfl

theorem execSkp_other (x : RegisterIndex) (s : State) (h : ¬ (s.V x).toNat < 16) :
    execSkp x s = raiseError (.invalidKey (s.V x)) s := by
  rw [execSkp, keyOperand_other s x h]

theorem execSknp_key (x : RegisterIndex) (s : State) (h : (s.V x).toNat < 16) :
    execSknp x s = skipIf (!s.keys[(s.V x).toNat]) s := by
  rw [execSknp, keyOperand_key s x h]; rfl

theorem execSknp_other (x : RegisterIndex) (s : State) (h : ¬ (s.V x).toNat < 16) :
    execSknp x s = raiseError (.invalidKey (s.V x)) s := by
  rw [execSknp, keyOperand_other s x h]

/-- What `LD Vx,K` can do: stay, or take the highest key that is down (R204). -/
theorem execLdVxK_cases (x : RegisterIndex) (s : State) :
    ((∀ k : KeyIndex, s.keys[k.val] = false) ∧ execLdVxK x s = stayPc s) ∨
    ∃ k : KeyIndex, s.keys[k.val] = true ∧ (∀ j : KeyIndex, s.keys[j.val] = true → j ≤ k) ∧
      execLdVxK x s = nextPc (s.setV x (BitVec.ofNat 8 k.val)) := by
  rcases scanKeys_cases s with ⟨h, hall⟩ | ⟨k, h, hk, hmax⟩
  · exact Or.inl ⟨hall, by rw [execLdVxK, h]⟩
  · exact Or.inr ⟨k, hk, hmax, by rw [execLdVxK, h]⟩

/-- What `RND Vx,kk` does: it draws one byte and stores it masked (R208). -/
theorem execRnd_eq (x : RegisterIndex) (kk : Byte) (s : State) :
    ∃ (r : Byte) (tape : List Byte), execRnd x kk s =
      nextPc ((s.setRandom tape (s.randomDraws + 1)).setV x (r &&& kk)) := by
  cases h : s.randomTape with
  | nil => exact ⟨_, _, by rw [execRnd, Cap.random_free s h]⟩
  | cons r rest => exact ⟨_, _, by rw [execRnd, Cap.random_tape s r rest h]⟩

/-! ## All instructions -/

/-- Everything an instruction that goes on can change: an error changes the result only; otherwise the CPU state, the display, the
timers and the random source may change, and nothing else (R14, R15). -/
def MayChange (s t : State) : Prop :=
  (∃ e, t = s.setResult (.error e)) ∨
  ∃ regs idx pc sp stack mem dt st fb tape draws, t = { s with
    regs := regs, idx := idx, pc := pc, sp := sp, stack := stack, mem := mem, dt := dt, st := st, fb := fb,
    randomTape := tape, randomDraws := draws, result := .ok }

/-- The inversion lemma of `exec`: the frame every instruction keeps. -/
theorem exec_mayChange {i : Instr} {s t : State} (h : exec i s = .next t) : MayChange s t := by
  have ok : ∀ (q : State) (p : Word16), jumpTo p q = .next t → (∃ regs idx pc sp stack mem dt st fb tape draws, q = { s with
        regs := regs, idx := idx, pc := pc, sp := sp, stack := stack, mem := mem, dt := dt, st := st, fb := fb,
        randomTape := tape, randomDraws := draws }) →
      MayChange s t := by
    rintro q p h ⟨regs, idx, pc, sp, stack, mem, dt, st, fb, tape, draws, rfl⟩
    cases h
    exact Or.inr ⟨regs, idx, p, sp, stack, mem, dt, st, fb, tape, draws, rfl⟩
  cases i
  case addI x =>
    simp only [exec] at h
    by_cases hc : indexPlusReg s x ≤ 4095
    · rw [execAddI_inside _ _ hc] at h; exact ok _ _ h ⟨_, _, _, _, _, _, _, _, _, _, _, rfl⟩
    · rw [execAddI_outside _ _ hc] at h; cases h
  case ldB x =>
    simp only [exec] at h
    by_cases hc : indexAddr s 2 ≤ 4095
    · rw [execLdB_inside _ _ hc] at h; exact ok _ _ h ⟨_, _, _, _, _, _, _, _, _, _, _, rfl⟩
    · rw [execLdB_outside _ _ hc] at h; cases h
  case storeRegs x =>
    simp only [exec] at h
    by_cases hc : indexAfterBlock s x ≤ 4095
    · rw [execStoreRegs_inside _ _ hc] at h; exact ok _ _ h ⟨_, _, _, _, _, _, _, _, _, _, _, rfl⟩
    · rw [execStoreRegs_outside _ _ hc] at h; cases h
  case loadRegs x =>
    simp only [exec] at h
    by_cases hc : indexAfterBlock s x ≤ 4095
    · rw [execLoadRegs_inside _ _ hc] at h
      obtain ⟨regs, hs⟩ := setRegsFrom_eq ((List.range (x.val+1)).map fun i => s.byteAt (indexAddr s 0 + i)) 0 s
      rw [hs] at h
      exact ok _ _ h ⟨_, _, _, _, _, _, _, _, _, _, _, rfl⟩
    · rw [execLoadRegs_outside _ _ hc] at h; cases h
  case drw x y n =>
    simp only [exec] at h
    by_cases hc : n.val = 0 ∨ s.idx.toNat + n.val - 1 ≤ 4095
    · rw [execDrw_inside _ _ _ _ hc] at h; exact ok _ _ h ⟨_, _, _, _, _, _, _, _, _, _, _, rfl⟩
    · rw [execDrw_outside _ _ _ _ hc] at h; cases h
  case ldI n => rw [exec, execLdI_eq] at h; exact ok _ _ h ⟨_, _, _, _, _, _, _, _, _, _, _, rfl⟩
  case ldF n => rw [exec, execLdF_eq] at h; exact ok _ _ h ⟨_, _, _, _, _, _, _, _, _, _, _, rfl⟩
  case call n =>
    simp only [exec] at h
    by_cases hc : s.sp.val < 16
    · rw [execCall_room _ _ hc] at h; exact ok _ _ h ⟨_, _, _, _, _, _, _, _, _, _, _, rfl⟩
    · rw [execCall_full _ _ (by omega)] at h; cases h; exact Or.inl ⟨_, rfl⟩
  case ret =>
    simp only [exec] at h
    by_cases hc : s.sp.val = 0
    · rw [execRet_empty _ hc] at h; cases h; exact Or.inl ⟨_, rfl⟩
    · rw [execRet_some _ hc] at h; exact ok _ _ h ⟨_, _, _, _, _, _, _, _, _, _, _, rfl⟩
  case skp x =>
    simp only [exec] at h
    by_cases hc : (s.V x).toNat < 16
    · rw [execSkp_key _ _ hc, skipIf_eq] at h; exact ok s _ h ⟨_, _, _, _, _, _, _, _, _, _, _, rfl⟩
    · rw [execSkp_other _ _ hc] at h; cases h; exact Or.inl ⟨_, rfl⟩
  case sknp x =>
    simp only [exec] at h
    by_cases hc : (s.V x).toNat < 16
    · rw [execSknp_key _ _ hc, skipIf_eq] at h; exact ok s _ h ⟨_, _, _, _, _, _, _, _, _, _, _, rfl⟩
    · rw [execSknp_other _ _ hc] at h; cases h; exact Or.inl ⟨_, rfl⟩
  case ldVxK x =>
    simp only [exec] at h
    rcases execLdVxK_cases x s with ⟨_, e⟩ | ⟨k, _, _, e⟩
    · rw [e] at h; exact ok _ _ h ⟨_, _, _, _, _, _, _, _, _, _, _, rfl⟩
    · rw [e] at h; exact ok _ _ h ⟨_, _, _, _, _, _, _, _, _, _, _, rfl⟩
  case rnd x kk =>
    simp only [exec] at h
    obtain ⟨r, tape, e⟩ := execRnd_eq x kk s
    rw [e] at h; exact ok _ _ h ⟨_, _, _, _, _, _, _, _, _, _, _, rfl⟩
  case seImm | sneImm | seReg | sneReg =>
    simp only [exec, execSeImm, execSneImm, execSeReg, execSneReg, skipIf_eq] at h
    exact ok s _ h ⟨_, _, _, _, _, _, _, _, _, _, _, rfl⟩
  all_goals exact ok _ _ h ⟨_, _, _, _, _, _, _, _, _, _, _, rfl⟩

end Sys2Proof.Machine
end

