-- ==== Sys2Proof/Laws/Engine.lean ====
section
/-! SUPPORT. The cases of fetch, of `execute_next` and of a step. -/

namespace Sys2Proof.Machine

theorem fetch_inside (s : State) (h : s.pc.toNat ≤ 4094) :
    fetch s = .ok (wordOfBytes (s.byteAt s.pc.toNat) (s.byteAt (s.pc.toNat + 1))) :=
  memReadWord_inside s (by simp only [Config.memSize]; omega)

theorem fetch_outside (s : State) (h : ¬ s.pc.toNat ≤ 4094) : ∃ b, fetch s = .error (.addressRange b) :=
  memReadWord_outside s (by simp only [Config.memSize]; omega)

/-- A fetch that answers a word was made from a pc of at most 4094 (R231). -/
theorem pc_of_fetch {s : State} {w : Word16} (h : fetch s = .ok w) : s.pc.toNat ≤ 4094 := by
  by_contra hn
  obtain ⟨b, hb⟩ := fetch_outside s hn
  rw [hb] at h
  exact absurd h (by simp)

/-- What `execute_next` can do (R230, R317): fault in the fetch, the error of an unrecognised word, or the instruction. -/
theorem executeNext_cases (s : State) :
    (∃ f, fetch s = .error f ∧ executeNext s = .fault f) ∨
    (∃ w e, fetch s = .ok w ∧ decode w = .error e ∧ executeNext s = raiseError (.unknownOpcode w) s) ∨
    (∃ w i, fetch s = .ok w ∧ decode w = .ok i ∧ executeNext s = exec i s) := by
  unfold executeNext
  cases hf : fetch s with
  | error f => exact Or.inl ⟨f, rfl, rfl⟩
  | ok w =>
    refine Or.inr ?_
    cases hd : decode w with
    | error e => exact Or.inl ⟨w, e, rfl, hd, by simp [execWord, hd]⟩
    | ok i => exact Or.inr ⟨w, i, rfl, hd, by simp [execWord, hd]⟩

/-- A transaction that goes on: it changed the result only, or it ran the decoded instruction. -/
theorem executeNext_next {s t : State} (h : executeNext s = .next t) :
    (∃ e, t = s.setResult (.error e)) ∨ ∃ w i, fetch s = .ok w ∧ decode w = .ok i ∧ exec i s = .next t := by
  rcases executeNext_cases s with ⟨f, _, e⟩ | ⟨w, e', _, _, e⟩ | ⟨w, i, h1, h2, e⟩
  · rw [e] at h; cases h
  · rw [e] at h; cases h; exact Or.inl ⟨_, rfl⟩
  · rw [e] at h; exact Or.inr ⟨w, i, h1, h2, h⟩

/-- The frame of a transaction. -/
theorem executeNext_mayChange {s t : State} (h : executeNext s = .next t) : MayChange s t := by
  rcases executeNext_next h with h | ⟨w, i, _, _, h⟩
  · exact Or.inl h
  · exact exec_mayChange h

/-- With no move of the host listed, a step is one `execute_next`. -/
theorem step_engine (s : State) (h : s.hostMoves = []) : step s = executeNext s := by
  simp [step, h]

/-- With a move of the host listed, a step performs the first one. -/
theorem step_host (s : State) (m : HostMove) (rest : List HostMove) (h : s.hostMoves = m :: rest) :
    step s = perform m (s.setHostMoves rest) := by
  simp [step, h]

end Sys2Proof.Machine
end

