-- ==== Sys2Proof/Laws/PerInstr.lean ====
section
/-! SUPPORT. Statements made once per instruction. Family FieldsFit: every operand of the instruction is in the range of
its field, so that "operand validation never fails" (spec/30_encoding.md R94). -/

namespace Sys2Proof.Laws.FieldsFit

/-- The operands of the instruction are in range (R93, R94). -/
def Statement (i : Instr) : Prop := i.wf = true

theorem register_fits (x : Fin 16) : decide (x.val < 16) = true := decide_eq_true x.isLt

theorem byte_fits (k : Byte) : decide (k.toNat < 256) = true := decide_eq_true k.isLt

theorem address_fits (a : Address) : decide (a.toNat < Config.memSize) = true := decide_eq_true a.isLt

theorem register_byte_fit (x : Fin 16) (k : Byte) : (decide (x.val < 16) && decide (k.toNat < 256)) = true := by
  rw [register_fits, byte_fits, Bool.and_self]

theorem registers_fit (x y : Fin 16) : (decide (x.val < 16) && decide (y.val < 16)) = true := by
  rw [register_fits, register_fits, Bool.and_self]

theorem sprite_fits (x y n : Fin 16) :
    (decide (x.val < 16) && decide (y.val < 16) && decide (n.val < 16)) = true := by
  rw [registers_fit, register_fits, Bool.and_self]

theorem cls : Statement (.cls) := rfl

theorem ret : Statement (.ret) := rfl

theorem jp (nnn : Address) : Statement (.jp nnn) := address_fits nnn

theorem call (nnn : Address) : Statement (.call nnn) := address_fits nnn

theorem seImm (x : RegisterIndex) (kk : Byte) : Statement (.seImm x kk) := register_byte_fit x kk

theorem sneImm (x : RegisterIndex) (kk : Byte) : Statement (.sneImm x kk) := register_byte_fit x kk

theorem seReg (x y : RegisterIndex) : Statement (.seReg x y) := registers_fit x y

theorem ldImm (x : RegisterIndex) (kk : Byte) : Statement (.ldImm x kk) := register_byte_fit x kk

theorem addImm (x : RegisterIndex) (kk : Byte) : Statement (.addImm x kk) := register_byte_fit x kk

theorem ldReg (x y : RegisterIndex) : Statement (.ldReg x y) := registers_fit x y

theorem orReg (x y : RegisterIndex) : Statement (.orReg x y) := registers_fit x y

theorem andReg (x y : RegisterIndex) : Statement (.andReg x y) := registers_fit x y

theorem xorReg (x y : RegisterIndex) : Statement (.xorReg x y) := registers_fit x y

theorem addReg (x y : RegisterIndex) : Statement (.addReg x y) := registers_fit x y

theorem sub (x y : RegisterIndex) : Statement (.sub x y) := registers_fit x y

theorem shr (x y : RegisterIndex) : Statement (.shr x y) := registers_fit x y

theorem subn (x y : RegisterIndex) : Statement (.subn x y) := registers_fit x y

theorem shl (x y : RegisterIndex) : Statement (.shl x y) := registers_fit x y

theorem sneReg (x y : RegisterIndex) : Statement (.sneReg x y) := registers_fit x y

theorem ldI (nnn : Address) : Statement (.ldI nnn) := address_fits nnn

theorem jpV0 (nnn : Address) : Statement (.jpV0 nnn) := address_fits nnn

theorem rnd (x : RegisterIndex) (kk : Byte) : Statement (.rnd x kk) := register_byte_fit x kk

theorem drw (x y : RegisterIndex) (n : Nibble) : Statement (.drw x y n) := sprite_fits x y n

theorem skp (x : RegisterIndex) : Statement (.skp x) := register_fits x

theorem sknp (x : RegisterIndex) : Statement (.sknp x) := register_fits x

theorem ldVxDT (x : RegisterIndex) : Statement (.ldVxDT x) := register_fits x

theorem ldVxK (x : RegisterIndex) : Statement (.ldVxK x) := register_fits x

theorem ldDTVx (x : RegisterIndex) : Statement (.ldDTVx x) := register_fits x

theorem ldSTVx (x : RegisterIndex) : Statement (.ldSTVx x) := register_fits x

theorem addI (x : RegisterIndex) : Statement (.addI x) := register_fits x

theorem ldF (x : RegisterIndex) : Statement (.ldF x) := register_fits x

theorem ldB (x : RegisterIndex) : Statement (.ldB x) := register_fits x

theorem storeRegs (x : RegisterIndex) : Statement (.storeRegs x) := register_fits x

theorem loadRegs (x : RegisterIndex) : Statement (.loadRegs x) := register_fits x

end Sys2Proof.Laws.FieldsFit
end

