-- ==== Sys2Proof/Laws/Scheduler.lean ====
section
/-! SUPPORT. The pieces of `advance`: the length of a step, the events, one unfolding of the loop and the
induction over it. -/

namespace Sys2Proof.Machine

theorem stepLength_le_rem (rem : Nat) (s : State) : stepLength rem s ≤ rem := by
  simp only [stepLength]; omega

theorem stepLength_le_cI (rem : Nat) (s : State) : stepLength rem s ≤ s.cI := by
  simp only [stepLength]; omega

theorem stepLength_le_cD (rem : Nat) (s : State) : stepLength rem s ≤ s.cD := by
  simp only [stepLength]; omega

theorem stepLength_le_cS (rem : Nat) (s : State) : stepLength rem s ≤ s.cS := by
  simp only [stepLength]; omega

/-- A step of time moves the three countdowns and nothing else. -/
theorem elapse_eq (m : Nat) (s : State) : elapse m s = s.setCountdowns (s.cI - m) (s.cD - m) (s.cS - m) := rfl

@[simp] theorem elapse_cI (m : Nat) (s : State) : (elapse m s).cI = s.cI - m := rfl
@[simp] theorem elapse_cD (m : Nat) (s : State) : (elapse m s).cD = s.cD - m := rfl
@[simp] theorem elapse_cS (m : Nat) (s : State) : (elapse m s).cS = s.cS - m := rfl
@[simp] theorem elapse_params (m : Nat) (s : State) : (elapse m s).params = s.params := rfl
@[simp] theorem elapse_result (m : Nat) (s : State) : (elapse m s).result = s.result := rfl

/-- The value of a timer after a tick (R255). -/
theorem tickDown_toNat (v : Byte) : (tickDown v).toNat = v.toNat - 1 := by
  unfold tickDown
  split
  · rename_i h; subst h; rfl
  · rename_i h
    have h0 : v.toNat ≠ 0 := fun e => h (BitVec.eq_of_toNat_eq (by simpa using e))
    have := v.isLt
    rw [BitVec.toNat_sub]
    simp only [BitVec.toNat_ofNat]
    omega

@[simp] theorem delayTick_cI (s : State) : (delayTick s).cI = s.cI := by unfold delayTick; split <;> rfl
@[simp] theorem delayTick_cS (s : State) : (delayTick s).cS = s.cS := by unfold delayTick; split <;> rfl
@[simp] theorem delayTick_params (s : State) : (delayTick s).params = s.params := by unfold delayTick; split <;> rfl
@[simp] theorem delayTick_result (s : State) : (delayTick s).result = s.result := by unfold delayTick; split <;> rfl
theorem delayTick_cD (s : State) : (delayTick s).cD = if s.cD = 0 then s.params.periodD else s.cD := by
  unfold delayTick; split <;> rfl

@[simp] theorem soundTick_cI (s : State) : (soundTick s).cI = s.cI := by unfold soundTick; split <;> rfl
@[simp] theorem soundTick_cD (s : State) : (soundTick s).cD = s.cD := by unfold soundTick; split <;> rfl
@[simp] theorem soundTick_params (s : State) : (soundTick s).params = s.params := by unfold soundTick; split <;> rfl
@[simp] theorem soundTick_result (s : State) : (soundTick s).result = s.result := by unfold soundTick; split <;> rfl
theorem soundTick_cS (s : State) : (soundTick s).cS = if s.cS = 0 then s.params.periodS else s.cS := by
  unfold soundTick; split <;> rfl

/-- The loop has nothing left to do when the duration is used up (R252). -/
@[simp] theorem advanceLoop_zero (fuel : Nat) (s : State) : advanceLoop fuel 0 s = .next s := by
  cases fuel <;> simp [advanceLoop]

/-- One iteration of the loop (R252). -/
theorem advanceLoop_succ (fuel rem : Nat) (s : State) (h : rem ≠ 0) :
    advanceLoop (fuel + 1) rem s =
      match instructionEvent (elapse (stepLength rem s) s) with
      | .fault f => .fault f
      | .refused r => .refused r
      | .next t =>
        if t.result = .ok then advanceLoop fuel (rem - stepLength rem s) (soundTick (delayTick t))
        else .next t := by
  rw [advanceLoop]
  exact if_neg h

/-- What an instruction event can do when it goes on (R254, R258): nothing while the countdown is not 0; else it is one
`execute_next`, whose error is passed on with `cI` still 0, and whose `ok` restarts the countdown. -/
theorem instructionEvent_cases {s t : State} (h : instructionEvent s = .next t) :
    (s.cI ≠ 0 ∧ t = s) ∨
    (s.cI = 0 ∧ ∃ u, executeNext s = .next u ∧
      ((u.result = .ok ∧ t = u.setCountdowns u.params.periodI u.cD u.cS) ∨ (u.result ≠ .ok ∧ t = u))) := by
  unfold instructionEvent at h
  split at h
  · rename_i h0
    refine Or.inr ⟨h0, ?_⟩
    cases he : executeNext s with
    | next u =>
      rw [he] at h
      simp only at h
      split at h
      · rename_i hr; injection h with h; exact ⟨u, rfl, Or.inl ⟨hr, h.symm⟩⟩
      · rename_i hr; injection h with h; exact ⟨u, rfl, Or.inr ⟨hr, h.symm⟩⟩
    | fault f => rw [he] at h; simp at h
    | refused r => rw [he] at h; simp at h
  · rename_i h0
    injection h with h
    exact Or.inl ⟨h0, h.symm⟩

/-- The induction over the loop of `advance`: what elapsing, an instruction event and the two ticks keep holds at the end. -/
theorem advanceLoop_induct (P : State → Prop) (hElapse : ∀ m s, P s → P (elapse m s))
    (hInstr : ∀ s t, P s → s.cI = 0 → executeNext s = .next t →
      P t ∧ (t.result = .ok → P (t.setCountdowns t.params.periodI t.cD t.cS)))
    (hDelay : ∀ s, P s → P (delayTick s)) (hSound : ∀ s, P s → P (soundTick s)) :
    ∀ (fuel rem : Nat) (s t : State), P s → advanceLoop fuel rem s = .next t → P t := by
  intro fuel
  induction fuel with
  | zero => intro rem s t hs h; cases h; exact hs
  | succ fuel ih =>
    intro rem s t hs h
    by_cases hr : rem = 0
    · subst hr
      rw [advanceLoop_zero] at h
      cases h
      exact hs
    · rw [advanceLoop_succ _ _ _ hr] at h
      have hel := hElapse (stepLength rem s) s hs
      cases hi : instructionEvent (elapse (stepLength rem s) s) with
      | fault f => rw [hi] at h; cases h
      | refused f => rw [hi] at h; cases h
      | next u =>
        rw [hi] at h
        simp only at h
        have hu : P u := by
          rcases instructionEvent_cases hi with ⟨_, rfl⟩ | ⟨h0, v, hv, ⟨hr, rfl⟩ | ⟨hr, rfl⟩⟩
          · exact hel
          · exact (hInstr _ _ hel h0 hv).2 hr
          · exact (hInstr _ _ hel h0 hv).1
        split at h
        · exact ih _ _ _ (hSound _ (hDelay _ hu)) h
        · cases h; exact hu

/-- `advance` is its loop, on a machine whose periods are admitted (R252). -/
theorem advance_eq (d : Nat) (s : State) (h : s.params.periodsWf = true) :
    advance d s = advanceLoop (d + 2) d (s.setResult .ok) := by
  simp [advance, h]

theorem advance_refused (d : Nat) (s : State) (h : s.params.periodsWf ≠ true) :
    advance d s = .refused .zeroPeriod := by
  simp [advance, h]

theorem periodsWf_iff (p : Params) : p.periodsWf = true ↔ 1 ≤ p.periodI ∧ 1 ≤ p.periodD ∧ 1 ≤ p.periodS := by
  simp [Params.periodsWf, and_assoc]

theorem timeUnitWf_iff (u : TimeUnit) : u.wf = true ↔ 1 ≤ u.num ∧ 1 ≤ u.den := by
  simp [TimeUnit.wf]

theorem paramsWf_iff (p : Params) :
    p.wf = true ↔ 1 ≤ p.screenW ∧ 1 ≤ p.screenH ∧ p.timeUnit.wf = true ∧ p.periodsWf = true := by
  simp [Params.wf, and_assoc]

/-- `tickPeriod60Hz` answers `n` exactly when `n` units are 1/60 s: `n * (num / den) = 1/60` (R262). -/
theorem tickPeriod60Hz_iff (u : TimeUnit) (h : u.wf = true) (n : Nat) : tickPeriod60Hz u = some n ↔ 60 * n * u.num = u.den := by
  obtain ⟨hn, hd⟩ := (timeUnitWf_iff u).mp h
  have hpos : 0 < 60 * u.num := by omega
  simp only [tickPeriod60Hz]
  constructor
  · intro he
    split at he
    · rename_i hc
      cases he
      rw [Nat.mul_right_comm, Nat.mul_div_cancel' (Nat.dvd_of_mod_eq_zero hc.2)]
    · cases he
  · intro he
    have : u.den = 60 * u.num * n := by rw [← he, Nat.mul_right_comm]
    rw [if_pos ⟨by omega, by rw [this, Nat.mul_mod_right]⟩, this, Nat.mul_div_cancel_left n hpos]

/-- A period of 1/60 s is a period that is admitted. -/
theorem tickPeriod60Hz_pos (u : TimeUnit) (h : u.wf = true) (n : Nat) (he : tickPeriod60Hz u = some n) : 1 ≤ n := by
  obtain ⟨_, hd⟩ := (timeUnitWf_iff u).mp h
  have := (tickPeriod60Hz_iff u h n).mp he
  rcases Nat.eq_zero_or_pos n with rfl | hn
  · omega
  · exact hn

/-- The tick periods of `State.reset` are the 60 Hz default (R9, R262). -/
theorem defaultParams_ticks :
    tickPeriod60Hz defaultParams.timeUnit = some defaultParams.periodD ∧ defaultParams.periodS = defaultParams.periodD := by
  decide

end Sys2Proof.Machine
end

