-- ==== Sys2Proof/Tests/Slice0.lean ====
section
/-! SUPPORT. Tests with expected results from the spec (spec/95_test_vectors.md, cited by its vector names; words written
out from spec/30_encoding.md R96), and for every statement with hypotheses a witness that meets them. -/

namespace Sys2Proof.Tests

open Sys2Proof.Machine Sys2Proof.Frame

/-! ## Helpers -/

/-- The reset state with some registers set. -/
def regs (l : List (RegisterIndex × Byte)) : State := l.foldl (fun s p => s.setV p.1 p.2) State.reset

/-- Bytes placed in memory. -/
def put (a : Nat) (bs : List Byte) (s : State) : State := s.setMem (Memory.writeList s.mem a bs)

/-- Keys held down. -/
def down (ks : List KeyIndex) (s : State) : State := ks.foldl (fun s k => s.setKey k true) s

/-- A call stack with `n` entries in use, all holding `t`. -/
def calls (n : Fin 17) (t : Word16) (s : State) : State := s.setStack (Vector.replicate 16 t) n

/-- One step that runs the word `w`. -/
def run (w : Nat) (s : State) : StepOutcome := step (s.withFetchWord 16 w)

/-- The outcome is a next state that satisfies the test. -/
def after (o : StepOutcome) (test : State → Bool) : Bool :=
  match o with
  | .next t => test t
  | .fault _ => false
  | .refused _ => false

/-- The outcome is the fault `AddressRange(a)`. -/
def faultsAt (a : Nat) : StepOutcome → Bool
  | .fault (.addressRange b) => a == b
  | .next _ => false
  | .refused _ => false

/-- The transaction ended in the error `e` with the pc, the stack pointer and the registers of `s`. -/
def errs (e : ErrorKind) (s : State) (o : StepOutcome) : Bool :=
  after o fun t => t.result == .error e && t.pc == s.pc && t.sp == s.sp && t.regs == s.regs

/-- `ok`, with the pc at `p`. -/
def okAt (p : Word16) (t : State) : Bool := t.result == .ok && t.pc == p

/-! ## The checks of WellFormed.lean refuse -/

theorem test_wf_register_16 : RegisterIndex.ofRaw 16 = none := by decide
theorem test_wf_register_15 : RegisterIndex.ofRaw 15 = some 15 := by decide
theorem test_wf_nibble_16 : Nibble.ofRaw 16 = none := by decide
theorem test_wf_key_16 : KeyIndex.ofRaw 16 = none := by decide
theorem test_wf_byte_256 : Byte.ofRaw 256 = none := by decide
theorem test_wf_address_4096 : Address.ofRaw 4096 = none := by decide
theorem test_wf_address_4095 : Address.ofRaw 4095 = some 0xFFF#12 := by decide
theorem test_wf_period_zero : Params.periodsWf { defaultParams with periodD := 0 } = false := by decide
theorem test_wf_screen_zero : Params.wf { defaultParams with screenW := 0 } = false := by decide
theorem test_wf_time_unit_zero : Params.wf { defaultParams with timeUnit := ⟨0, 600⟩ } = false := by decide
theorem test_wf_font_79 : Font.ofRaw (List.replicate 79 0#8) = none := by decide
theorem test_wf_font_default : Font.ofRaw defaultFont.toList = some defaultFont := by decide
theorem test_wf_default : Params.wf defaultParams = true := by decide
theorem test_wf_image_entry : imageWf 4095 [] = false := by decide
theorem test_wf_image_length : imageWf 4094 [0#8, 0#8, 0#8] = false := by decide
theorem test_wf_memory_redundant : Memory.wf [(0x300, 0#8)] = false := by decide
theorem test_wf_memory_order : Memory.wf [(0x301, 1#8), (0x300, 1#8)] = false := by decide
theorem test_wf_screen_outside : FrameBuffer.wf 64 32 [⟨64, 0⟩] = false := by decide

/-! ## Decoding: every row of the map, words from R96 and 95_test_vectors.md section 2.1 -/

theorem test_decode_cls : decode 0x00E0#16 = .ok .cls := by decide
theorem test_decode_ret : decode 0x00EE#16 = .ok .ret := by decide
theorem test_decode_jp : decode 0x1ABC#16 = .ok (.jp 0xABC#12) := by decide
theorem test_decode_call : decode 0x2FFF#16 = .ok (.call 0xFFF#12) := by decide
theorem test_decode_seImm : decode 0x3A7F#16 = .ok (.seImm 10 0x7F#8) := by decide
theorem test_decode_sneImm : decode 0x4310#16 = .ok (.sneImm 3 0x10#8) := by decide
theorem test_decode_seReg : decode 0x5120#16 = .ok (.seReg 1 2) := by decide
theorem test_decode_ldImm : decode 0x6A02#16 = .ok (.ldImm 10 0x02#8) := by decide
theorem test_decode_addImm : decode 0x7A05#16 = .ok (.addImm 10 0x05#8) := by decide
theorem test_decode_ldReg : decode 0x8120#16 = .ok (.ldReg 1 2) := by decide
theorem test_decode_orReg : decode 0x8F11#16 = .ok (.orReg 15 1) := by decide
theorem test_decode_andReg : decode 0x8012#16 = .ok (.andReg 0 1) := by decide
theorem test_decode_xorReg : decode 0x8013#16 = .ok (.xorReg 0 1) := by decide
theorem test_decode_addReg : decode 0x8AB4#16 = .ok (.addReg 10 11) := by decide
theorem test_decode_sub : decode 0x8F15#16 = .ok (.sub 15 1) := by decide
theorem test_decode_shr : decode 0x80F6#16 = .ok (.shr 0 15) := by decide
theorem test_decode_subn : decode 0x8127#16 = .ok (.subn 1 2) := by decide
theorem test_decode_shl : decode 0x8ABE#16 = .ok (.shl 10 11) := by decide
theorem test_decode_sneReg : decode 0x9120#16 = .ok (.sneReg 1 2) := by decide
theorem test_decode_ldI : decode 0xA2F0#16 = .ok (.ldI 0x2F0#12) := by decide
theorem test_decode_jpV0 : decode 0xB300#16 = .ok (.jpV0 0x300#12) := by decide
theorem test_decode_rnd : decode 0xC10F#16 = .ok (.rnd 1 0x0F#8) := by decide
theorem test_decode_drw : decode 0xD125#16 = .ok (.drw 1 2 5) := by decide
theorem test_decode_skp : decode 0xEC9E#16 = .ok (.skp 12) := by decide
theorem test_decode_sknp : decode 0xE2A1#16 = .ok (.sknp 2) := by decide
theorem test_decode_ldVxDT : decode 0xF307#16 = .ok (.ldVxDT 3) := by decide
theorem test_decode_ldVxK : decode 0xF50A#16 = .ok (.ldVxK 5) := by decide
theorem test_decode_ldDTVx : decode 0xF315#16 = .ok (.ldDTVx 3) := by decide
theorem test_decode_ldSTVx : decode 0xF318#16 = .ok (.ldSTVx 3) := by decide
theorem test_decode_addI : decode 0xF31E#16 = .ok (.addI 3) := by decide
theorem test_decode_ldF : decode 0xF429#16 = .ok (.ldF 4) := by decide
theorem test_decode_ldB : decode 0xF033#16 = .ok (.ldB 0) := by decide
theorem test_decode_storeRegs : decode 0xF255#16 = .ok (.storeRegs 2) := by decide
theorem test_decode_loadRegs : decode 0xFF65#16 = .ok (.loadRegs 15) := by decide

/-- The unrecognised words listed in section 2.1. -/
theorem test_decode_unrecognised :
    ([0x0000#16, 0x00E1#16, 0x00FD#16, 0x0123#16, 0x0FFF#16, 0x5121#16, 0x512F#16, 0x8128#16, 0x812D#16, 0x812F#16,
      0x9121#16, 0xE000#16, 0xE19F#16, 0xE1A2#16, 0xF100#16, 0xF130#16, 0xF154#16, 0xFFFF#16].all fun w =>
      decide (decode w = .error (.unknownOpcode w))) = true := by decide

/-- A table word goes through bytes, high byte first. -/
theorem test_decodeTableWord : decodeTableWord 16 0xD125 = some (.drw 1 2 5) := by decide
theorem test_decodeTableWord_refused : decodeTableWord 16 0x8128 = none := by decide
theorem test_encode_drw : encode (.drw 1 2 5) = 0xD125#16 := by decide

/-- Two rows of the map never accept one word: any two differ in a bit both rows fix (R95). -/
theorem test_rows_disjoint :
    opcodeMap.Pairwise (fun r r' => r.pattern &&& r'.mask ≠ r'.pattern &&& r.mask) := by decide

/-! ## Loads and ALU (vectors A1 to A34) -/

theorem test_A1 : after (run 0x6A02 State.reset) (fun t => okAt 0x202#16 t && t.V 10 == 0x02#8) = true := by decide
theorem test_A2 : after (run 0x6F2A State.reset) (fun t => okAt 0x202#16 t && t.V 15 == 0x2A#8) = true := by decide
theorem test_A3 : after (run 0x7001 (regs [(0, 0xFF#8)]))
    (fun t => okAt 0x202#16 t && t.V 0 == 0#8 && t.V 15 == 0#8) = true := by decide
theorem test_A4 : after (run 0x70FF (regs [(15, 1#8)]))
    (fun t => okAt 0x202#16 t && t.V 0 == 0xFF#8 && t.V 15 == 1#8) = true := by decide
theorem test_A6 : after (run 0x8010 (regs [(1, 0x2A#8), (15, 1#8)]))
    (fun t => okAt 0x202#16 t && t.V 0 == 0x2A#8 && t.V 1 == 0x2A#8 && t.V 15 == 1#8) = true := by decide
theorem test_A7 : after (run 0x8011 (regs [(0, 0xF0#8), (1, 0x0F#8), (15, 1#8)]))
    (fun t => okAt 0x202#16 t && t.V 0 == 0xFF#8 && t.V 15 == 0#8) = true := by decide
theorem test_A11 : after (run 0x8F11 (regs [(15, 1#8), (1, 6#8)]))
    (fun t => okAt 0x202#16 t && t.V 15 == 0#8 && t.V 1 == 6#8) = true := by decide
theorem test_A8 : after (run 0x8012 (regs [(0, 0xF0#8), (1, 0x3C#8), (15, 1#8)]))
    (fun t => okAt 0x202#16 t && t.V 0 == 0x30#8 && t.V 15 == 0#8) = true := by decide
theorem test_A9 : after (run 0x8013 (regs [(0, 0xFF#8), (1, 0x0F#8), (15, 1#8)]))
    (fun t => okAt 0x202#16 t && t.V 0 == 0xF0#8 && t.V 15 == 0#8) = true := by decide
theorem test_A10 : after (run 0x8003 (regs [(0, 0x5A#8), (15, 1#8)]))
    (fun t => okAt 0x202#16 t && t.V 0 == 0#8 && t.V 15 == 0#8) = true := by decide
theorem test_A14 : after (run 0x8014 (regs [(0, 0x80#8), (1, 0x7F#8), (15, 1#8)]))
    (fun t => okAt 0x202#16 t && t.V 0 == 0xFF#8 && t.V 15 == 0#8) = true := by decide
theorem test_A17 : after (run 0x8F14 (regs [(15, 0xF0#8), (1, 0x20#8)]))
    (fun t => okAt 0x202#16 t && t.V 15 == 1#8) = true := by decide
theorem test_A19 : after (run 0x8015 (regs [(0, 5#8), (1, 7#8)]))
    (fun t => okAt 0x202#16 t && t.V 0 == 0xFE#8 && t.V 15 == 0#8) = true := by decide
theorem test_A20 : after (run 0x8015 (regs [(0, 7#8), (1, 7#8)]))
    (fun t => okAt 0x202#16 t && t.V 0 == 0#8 && t.V 15 == 1#8) = true := by decide
theorem test_A23 : after (run 0x8017 (regs [(0, 5#8), (1, 7#8)]))
    (fun t => okAt 0x202#16 t && t.V 0 == 2#8 && t.V 15 == 1#8) = true := by decide
theorem test_A24 : after (run 0x8017 (regs [(0, 7#8), (1, 5#8)]))
    (fun t => okAt 0x202#16 t && t.V 0 == 0xFE#8 && t.V 15 == 0#8) = true := by decide
theorem test_A26 : after (run 0x8016 (regs [(0, 0xAA#8), (1, 5#8)]))
    (fun t => okAt 0x202#16 t && t.V 0 == 2#8 && t.V 1 == 5#8 && t.V 15 == 1#8) = true := by decide
theorem test_A29 : after (run 0x80F6 (regs [(15, 3#8)]))
    (fun t => okAt 0x202#16 t && t.V 0 == 1#8 && t.V 15 == 1#8) = true := by decide
theorem test_A31 : after (run 0x801E (regs [(1, 0x81#8)]))
    (fun t => okAt 0x202#16 t && t.V 0 == 2#8 && t.V 1 == 0x81#8 && t.V 15 == 1#8) = true := by decide
theorem test_A33 : after (run 0x801E (regs [(1, 0x40#8)]))
    (fun t => okAt 0x202#16 t && t.V 0 == 0x80#8 && t.V 15 == 0#8) = true := by decide

/-! ## Skips and control transfer (vectors B1 to B24) -/

theorem test_B1 : after (run 0x3310 (regs [(3, 0x10#8)])) (okAt 0x204#16) = true := by decide
theorem test_B2 : after (run 0x3311 (regs [(3, 0x10#8)])) (okAt 0x202#16) = true := by decide
theorem test_B3 : after (run 0x4310 (regs [(3, 0x10#8)])) (okAt 0x202#16) = true := by decide
theorem test_B4 : after (run 0x4311 (regs [(3, 0x10#8)])) (okAt 0x204#16) = true := by decide
theorem test_B5 : after (run 0x5120 (regs [(1, 9#8), (2, 9#8)])) (okAt 0x204#16) = true := by decide
theorem test_B6 : after (run 0x5120 (regs [(1, 9#8), (2, 8#8)])) (okAt 0x202#16) = true := by decide
theorem test_B8 : after (run 0x9120 (regs [(1, 9#8), (2, 8#8)])) (okAt 0x204#16) = true := by decide
theorem test_B9 : after (run 0x9120 (regs [(1, 9#8), (2, 9#8)])) (okAt 0x202#16) = true := by decide
theorem test_B11 : after (run 0x3000 (State.reset.setPc 0xFFC#16))
    (fun t => okAt 0x1000#16 t && faultsAt 0x1000 (step t)) = true := by decide
theorem test_B12 : after (run 0x1ABC State.reset) (okAt 0xABC#16) = true := by decide
theorem test_B13 : after (run 0x1201 State.reset) (okAt 0x201#16) = true := by decide
theorem test_B16 : after (run 0xB300 (regs [(0, 4#8)])) (okAt 0x304#16) = true := by decide
theorem test_B17 : after (run 0xBFFF (regs [(0, 0xFF#8)]))
    (fun t => okAt 0x10FE#16 t && faultsAt 0x10FE (step t)) = true := by decide
theorem test_B20 : after (run 0x2300 (calls 15 0#16 State.reset))
    (fun t => okAt 0x300#16 t && t.sp == 16 && t.stack[15] == 0x202#16) = true := by decide
theorem test_B21 : errs .stackOverflow (calls 16 0#16 State.reset) (run 0x2300 (calls 16 0#16 State.reset)) = true := by
  decide
theorem test_B22 : after (run 0x00EE (calls 1 0x206#16 State.reset)) (fun t => okAt 0x206#16 t && t.sp == 0) = true := by
  decide
theorem test_B23 : errs .stackUnderflow State.reset (run 0x00EE State.reset) = true := by decide

/-! ## Index register and memory (vectors M1 to M26) -/

theorem test_M2 : after (run 0xAFFF State.reset) (fun t => okAt 0x202#16 t && t.idx == 0xFFF#12) = true := by decide
theorem test_M4 : after (run 0xF01E ((regs [(0, 0xFF#8), (15, 7#8)]).setIdx 0xF00#12))
    (fun t => okAt 0x202#16 t && t.idx == 0xFFF#12 && t.V 15 == 7#8) = true := by decide
theorem test_M6 : faultsAt 0x1000 (run 0xF01E ((regs [(0, 1#8)]).setIdx 0xFFF#12)) = true := by decide
theorem test_M8 : after (run 0xF429 (regs [(4, 0x0F#8)])) (fun t => okAt 0x202#16 t && t.idx == 0x04B#12) = true := by
  decide
theorem test_M10 : after (run 0xF429 (regs [(4, 0xFF#8)])) (fun t => okAt 0x202#16 t && t.idx == 0x4FB#12) = true := by
  decide
theorem test_M11 : after (run 0xF033 ((regs [(0, 0xFE#8)]).setIdx 0x300#12))
    (fun t => okAt 0x202#16 t && t.byteAt 0x300 == 2#8 && t.byteAt 0x301 == 5#8 && t.byteAt 0x302 == 4#8 &&
      t.idx == 0x300#12) = true := by decide
theorem test_M17 : faultsAt 0x1000 (run 0xF033 ((regs [(0, 0x7B#8)]).setIdx 0xFFE#12)) = true := by decide
theorem test_M18 : after (run 0xF255 ((regs [(0, 1#8), (1, 2#8), (2, 3#8), (3, 4#8)]).setIdx 0x400#12))
    (fun t => okAt 0x202#16 t && t.byteAt 0x400 == 1#8 && t.byteAt 0x401 == 2#8 && t.byteAt 0x402 == 3#8 &&
      t.byteAt 0x403 == 0#8 && t.idx == 0x403#12) = true := by decide
theorem test_M21 : faultsAt 0x1000 (run 0xF055 ((regs [(0, 0xAB#8)]).setIdx 0xFFF#12)) = true := by decide
theorem test_M24 : after (run 0xF265 (put 0x300 [2#8, 5#8, 4#8, 9#8] ((regs [(3, 0x77#8)]).setIdx 0x300#12)))
    (fun t => okAt 0x202#16 t && t.V 0 == 2#8 && t.V 1 == 5#8 && t.V 2 == 4#8 && t.V 3 == 0x77#8 &&
      t.idx == 0x303#12) = true := by decide
theorem test_M26 : after (run 0xFF65 State.reset)
    (fun t => okAt 0x202#16 t && t.V 0 == 0xF0#8 && t.V 5 == 0x20#8 && t.V 15 == 0xF0#8 && t.idx == 0x010#12) = true := by
  decide

/-! ## Display, keypad, timers, random (vectors W0 to W12, K1 to K13, T-1 to T-4, R-1 to R-4) -/

theorem test_W0 : after (run 0x00E0 ((regs [(15, 1#8)]).setFb [⟨0, 0⟩, ⟨63, 31⟩]))
    (fun t => okAt 0x202#16 t && t.fb == [] && t.V 15 == 1#8) = true := by decide
theorem test_W8 : after (run 0xD012 (put 0x300 [0xFF#8, 0x81#8] ((regs [(0, 0xFF#8), (1, 0xFF#8)]).setIdx 0x300#12)))
    (fun t => okAt 0x202#16 t && t.fb == [⟨63, 31⟩] && t.V 15 == 0#8) = true := by decide
theorem test_W5 : after (run 0xD011 (put 0x300 [0x40#8] (((regs [(15, 1#8)]).setIdx 0x300#12).setFb [⟨0, 0⟩])))
    (fun t => okAt 0x202#16 t && t.fb == [⟨0, 0⟩, ⟨1, 0⟩] && t.V 15 == 0#8) = true := by decide
theorem test_K3 : after (run 0xE29E (down [15] (regs [(2, 15#8)]))) (okAt 0x204#16) = true := by decide
theorem test_K5 : errs (.invalidKey 0x17#8) (regs [(2, 0x17#8)]) (run 0xE29E (down [7] (regs [(2, 0x17#8)]))) = true := by
  decide
theorem test_K6 : after (run 0xE2A1 (down [7] (regs [(2, 7#8)]))) (okAt 0x202#16) = true := by decide
theorem test_K8 : errs (.invalidKey 0xFF#8) (regs [(2, 0xFF#8)]) (run 0xE2A1 (regs [(2, 0xFF#8)])) = true := by decide
theorem test_K9 : after (run 0xF50A (regs [(5, 0x33#8)])) (fun t => okAt 0x200#16 t && t.V 5 == 0x33#8) = true := by
  decide
theorem test_K11 : after (run 0xF50A (down [9, 3] (regs [(5, 0x33#8)])))
    (fun t => okAt 0x202#16 t && t.V 5 == 9#8) = true := by decide
theorem test_T1 : after (run 0xF307 (State.reset.setDT 0x2A#8))
    (fun t => okAt 0x202#16 t && t.V 3 == 0x2A#8 && t.dt == 0x2A#8) = true := by decide
theorem test_T2 : after (run 0xF315 (regs [(3, 0x3C#8)]))
    (fun t => okAt 0x202#16 t && t.dt == 0x3C#8 && t.st == 0#8) = true := by decide
theorem test_T4 : after (run 0xF318 (regs [(3, 4#8)]))
    (fun t => okAt 0x202#16 t && t.st == 4#8 && t.dt == 0#8) = true := by decide
theorem test_R1 : after (run 0xC10F (State.reset.setRandom [0xA7#8] 0))
    (fun t => okAt 0x202#16 t && t.V 1 == 7#8 && t.randomTape == []) = true := by decide
theorem test_R4 : after (run 0xCF0F (State.reset.setRandom [0xFF#8] 0))
    (fun t => okAt 0x202#16 t && t.V 15 == 0x0F#8) = true := by decide

/-! ## Fetch, host, scheduler (vectors E1 to E6; runs T1, T4, T5) -/

theorem test_E1 : errs (.unknownOpcode 0#16) State.reset (step State.reset) = true := by decide
theorem test_E2 : errs (.unknownOpcode 0x0123#16) State.reset (run 0x0123 State.reset) = true := by decide
theorem test_E5 : faultsAt 0x1000 (step (State.reset.setPc 0xFFF#16)) = true := by decide
theorem test_E6 : after (step (put 0x201 [0x60#8, 0x12#8] (State.reset.setPc 0x201#16)))
    (fun t => okAt 0x203#16 t && t.V 0 == 0x12#8) = true := by decide

/-- R296: a key event between two transactions. -/
theorem test_key_down : after (step (State.reset.setHostMoves [.keyDown 9, .executeNext]))
    (fun t => t.keys[9] && t.lastKey == some 9 && t.hostMoves == [.executeNext]) = true := by decide
theorem test_key_up : after (step ((down [9, 3] State.reset).setHostMoves [.keyUp 9]))
    (fun t => !t.keys[9] && t.keys[3]) = true := by decide

/-- A program at `200` under the given periods, countdowns at their periods (D19). -/
def timed (pi pd ps : Nat) (prog : List Byte) : State :=
  State.construct { defaultParams with periodI := pi, periodD := pd, periodS := ps } 0x200#12
    (Memory.writeList [] 0x200 prog)

/-- R262: 1/60 s is 10 units of 1/600 s, and no whole number of milliseconds. -/
theorem test_tick_period : tickPeriod60Hz ⟨1, 600⟩ = some 10 ∧ tickPeriod60Hz ⟨1, 1000⟩ = none := by decide

/-- R69: `FONT` is an argument; a payload may lie over part of it. -/
theorem test_image_font :
    let s := State.ofImage defaultParams (Vector.replicate 80 7#8) 0x04E#12 [1#8]
    s.pc = 0x04E#16 ∧ s.byteAt 0 = 7#8 ∧ s.byteAt 0x04D = 7#8 ∧ s.byteAt 0x04E = 1#8 ∧ s.byteAt 0x04F = 7#8 ∧
      s.byteAt 0x050 = 0#8 := by
  simp [State.ofImage, State.construct, State.byteAt, imageMemory, Memory.read_writeList, Memory.read, Memory.unlisted,
    fontLow, fontHigh]

/-- The countdowns. -/
def countdowns (a b c : Nat) (t : State) : Bool := t.cI == a && t.cD == b && t.cS == c

theorem test_run_T1_1 : after (advance 1 (timed 2 5 5 [0x12#8, 0x00#8])) (countdowns 1 4 4) = true := by decide
theorem test_run_T1_5 : after (advance 5 (timed 2 5 5 [0x12#8, 0x00#8])) (countdowns 1 5 5) = true := by decide
theorem test_run_T1_10 : after (advance 10 (timed 2 5 5 [0x12#8, 0x00#8])) (countdowns 2 5 5) = true := by decide

/-- T4: the tick of an instant comes after the instruction of that instant. -/
theorem test_run_T4 :
    after (advance 15 (timed 5 5 5 [0x60#8, 0x05#8, 0xF0#8, 0x15#8, 0xF1#8, 0x07#8, 0x12#8, 0x06#8]))
      (fun t => okAt 0x206#16 t && t.V 1 == 4#8 && t.dt == 3#8 && countdowns 5 5 5 t) = true := by decide

/-- T5: an error ends the advance at once, and a later one fails again at once. -/
theorem test_run_T5 : after (advance 10 (timed 2 4 4 [0x60#8, 0x01#8, 0x00#8, 0xEE#8]))
    (fun t => t.result == .error .stackUnderflow && t.pc == 0x202#16 && t.V 0 == 1#8 && countdowns 0 0 0 t &&
      after (advance 3 t) (fun u => u == t)) = true := by decide

/-! ## Witnesses: for every statement with hypotheses, an input that meets them, one for each clause -/

theorem witness_DecodeOfEncode : (Instr.drw 15 15 15).wf = true := by decide
theorem witness_EncodeOfDecode : decode 0xFF65#16 = .ok (.loadRegs 15) := by decide
theorem witness_DecodeMatchesOpcodeMap : decode 0x812E#16 = .ok (.shl 1 2) := by decide
theorem witness_UnrecognisedWords_no_row :
    (opcodeMap.all fun r => !r.accepts 0x8128#16) = true ∧ decode 0x8128#16 = .error (.unknownOpcode 0x8128#16) := by
  decide
theorem witness_UnrecognisedWords_row :
    (opcodeMap.any fun r => r.accepts 0x8127#16) = true ∧ decode 0x8127#16 = .ok (.subn 1 2) := by decide
theorem witness_DecoderSignalsAgree : decode 0xE09E#16 = .ok (.skp 0) := by decide

/-- A state with a word at the highest pc that can be fetched from. -/
def atTop (w : Word16) : State := put 4094 [highByte w, lowByte w] (State.reset.setPc 4094#16)

theorem witness_StepRunsDecodedInstruction_engine :
    (atTop 0x6012#16).pc.toNat + 1 < Config.memSize ∧ (atTop 0x6012#16).hostMoves = [] ∧
    decode (wordOfBytes ((atTop 0x6012#16).byteAt 4094) ((atTop 0x6012#16).byteAt 4095)) = .ok (.ldImm 0 0x12#8) := by
  decide
theorem witness_StepRunsDecodedInstruction_host :
    ((atTop 0x6012#16).setHostMoves [.executeNext, .advance 3]).hostMoves = .executeNext :: [.advance 3] := by decide
theorem witness_FetchIsBigEndian_inside : (atTop 0#16).pc.toNat ≤ 4094 := by decide
theorem witness_FetchIsBigEndian_outside : 4094 < (State.reset.setPc 4095#16).pc.toNat := by decide
theorem witness_UnknownOpcodeChangesNothing :
    fetch State.reset = .ok 0#16 ∧ decode 0#16 = .error (.unknownOpcode 0#16) := by decide
theorem witness_ErrorsAreExactlyTheTable_call : Errs (.call 0#12) (calls 16 0#16 State.reset) .stackOverflow :=
  ⟨by decide, rfl⟩
theorem witness_ErrorsAreExactlyTheTable_ret : Errs .ret State.reset .stackUnderflow := ⟨by decide, rfl⟩
theorem witness_ErrorsAreExactlyTheTable_skp : Errs (.skp 2) (regs [(2, 16#8)]) (.invalidKey 16#8) :=
  ⟨by decide, by decide⟩
theorem witness_ErrorsAreExactlyTheTable_sknp : Errs (.sknp 2) (regs [(2, 16#8)]) (.invalidKey 16#8) :=
  ⟨by decide, by decide⟩
theorem witness_ErrorsLeaveStateUnchanged :
    after (exec .ret State.reset) (fun t => t.result == .error .stackUnderflow) = true := by decide
theorem witness_ErrorsRepeat_engine :
    after (executeNext State.reset) (fun t => t.result == .error (.unknownOpcode 0#16)) = true := by decide
theorem witness_ErrorsRepeat_scheduler :
    after (advance 1 State.reset) (fun t => t.result == .error (.unknownOpcode 0#16)) = true := by decide

/-- The CPU state is the same in both. -/
def sameCpu (s t : State) : Bool :=
  t.regs == s.regs && t.idx == s.idx && t.pc == s.pc && t.sp == s.sp && t.stack == s.stack && t.mem == s.mem

theorem witness_OnlyWaits_key : after (exec (.ldVxK 5) State.reset) (fun t => t.result == .ok && sameCpu State.reset t)
    = true := by decide
theorem witness_OnlyWaits_jump : after (exec (.jp 0xFFF#12) (State.reset.setPc 0xFFF#16))
    (fun t => t.result == .ok && sameCpu (State.reset.setPc 0xFFF#16) t) = true := by decide
theorem witness_OnlyWaits_offset :
    after (exec (.jpV0 0xFFF#12) ((regs [(0, 0xFF#8)]).setPc 0x10FE#16))
      (fun t => t.result == .ok && sameCpu ((regs [(0, 0xFF#8)]).setPc 0x10FE#16) t) = true := by decide
theorem witness_StoredBytesAreFetched :
    (State.reset.setIdx 0xFEF#12).idx.toNat + (15 : RegisterIndex).val + 1 ≤ 4095 ∧
    (14 : RegisterIndex).val + 1 = (15 : RegisterIndex).val ∧ (15 : RegisterIndex) ≤ 15 := by decide
theorem witness_FinishedProgramsStandStill :
    (atTop 0x1FFE#16).finished = true ∧ (atTop 0x1FFE#16).params.periodsWf = true := by decide
theorem witness_CallPushesReturnAddress :
    (calls 15 0#16 State.reset).sp.val < 16 ∧ (calls 16 0#16 State.reset).sp.val = 16 := by decide
theorem witness_ReturnPopsReturnAddress :
    0 < (calls 1 0x206#16 State.reset).sp.val ∧ (calls 0 0#16 State.reset).sp.val = 0 := by decide
theorem witness_ReturnComesBackAfterCall :
    after (exec (.call 0x300#12) (calls 15 0#16 State.reset))
      (fun t => t.result == .ok && after (exec .ret t) (fun v => v.pc == 0x202#16)) = true := by decide
theorem witness_AddToIndex :
    ((regs [(0, 0xFF#8)]).setIdx 0xF00#12).idx.toNat + ((regs [(0, 0xFF#8)]).setIdx 0xF00#12 |>.V 0).toNat ≤ 4095 ∧
    4095 < ((regs [(0, 1#8)]).setIdx 0xFFF#12).idx.toNat + ((regs [(0, 1#8)]).setIdx 0xFFF#12 |>.V 0).toNat := by decide
theorem witness_StoreBcd :
    indexAddr (State.reset.setIdx 0xFFD#12) 2 ≤ 4095 ∧ 4095 < indexAddr (State.reset.setIdx 0xFFE#12) 2 := by decide
/-- For StoreRegisterBlock and LoadRegisterBlock. -/
theorem witness_RegisterBlocks :
    indexAfterBlock (State.reset.setIdx 0xFEF#12) 15 ≤ 4095 ∧ 4095 < indexAfterBlock (State.reset.setIdx 0xFF0#12) 15 := by
  decide
theorem witness_DrawSprite_completes :
    ((0 : Nibble).val = 0 ∨ (State.reset.setIdx 0xFFF#12).idx.toNat + (0 : Nibble).val - 1 ≤ 4095) ∧
    ((1 : Nibble).val = 0 ∨ (State.reset.setIdx 0xFFF#12).idx.toNat + (1 : Nibble).val - 1 ≤ 4095) := by decide
theorem witness_DrawSprite_faults :
    1 ≤ (2 : Nibble).val ∧ 4095 < (State.reset.setIdx 0xFFF#12).idx.toNat + (2 : Nibble).val - 1 := by decide

/-- The corner pixel is targeted by a one-row sprite whose origin is there (W8). -/
theorem witness_DrawSprite_collision :
    Targeted defaultParams 0xFF#8 0xFF#8 [0xFF#8] ⟨63, 31⟩ ∧ FrameBuffer.isOn [⟨63, 31⟩] ⟨63, 31⟩ = true := by
  unfold Targeted; decide
theorem witness_DrawSprite_no_collision :
    ∀ p, ¬ (Targeted defaultParams 0#8 0#8 [] p ∧ FrameBuffer.isOn State.reset.fb p = true) :=
  fun _ h => absurd h.2 (by simp [State.reset, State.construct, FrameBuffer.isOn])
theorem witness_DrawTwiceRestores : State.reset.fb = [] := rfl
theorem witness_KeySkips_key : ((regs [(2, 15#8)]).V 2).toNat = (15 : KeyIndex).val := by decide
theorem witness_KeySkips_down : (down [15] State.reset).keys[15] = true ∧ State.reset.keys[15] = false := by decide
theorem witness_KeySkips_invalid : 15 < ((regs [(2, 16#8)]).V 2).toNat := by decide
theorem witness_WaitForKey_none : ∀ k : KeyIndex, State.reset.keys[k.val] = false := by decide
theorem witness_WaitForKey_highest :
    (down [15, 0] State.reset).keys[(15 : KeyIndex).val] = true ∧
    ∀ j : KeyIndex, (down [15, 0] State.reset).keys[j.val] = true → j ≤ 15 := by decide
theorem witness_RandomIsMasked :
    (State.reset.setRandom [0xA7#8] 0).randomTape = 0xA7#8 :: [] ∧ State.reset.randomTape = [] := by decide
/-- For PcPolicy, CpuWritesAreTheTable, DeviceWritesAreTheTable: an instruction that goes on. -/
theorem witness_exec_next : after (exec (.loadRegs 15) (State.reset.setIdx 0xFEF#12)) (okAt 0x202#16) = true := by decide
theorem witness_exec_next_call : after (exec (.call 0xFFF#12) (calls 15 0#16 State.reset)) (okAt 0xFFF#16) = true := by
  decide
/-- For FaultsAreExactlyTheRangeCases: an instruction that faults. -/
theorem witness_exec_fault : faultsAt 4096 (exec (.storeRegs 15) (State.reset.setIdx 0xFF0#12)) = true := by decide
theorem witness_ReadsReturnTheLastWrite :
    4095 < Config.memSize ∧ Memory.wf State.reset.mem = true ∧ memRead 4095 State.reset = .ok 0#8 := by decide
theorem witness_TicksFloorAtZero :
    (State.reset.setCountdowns 1 0 0).cD = 0 ∧ (State.reset.setCountdowns 1 0 0).cS = 0 := by decide
theorem witness_ShortAdvanceFiresNothing :
    State.reset.params.periodsWf = true ∧ (9 < (State.reset.setCountdowns 10 10 10).cI ∧
      9 < (State.reset.setCountdowns 10 10 10).cD ∧ 9 < (State.reset.setCountdowns 10 10 10).cS) := by decide

/-- A machine at a self-jump whose three countdowns are all 1. -/
def tie : State := (put 0x200 [0x12#8, 0x00#8] State.reset).setCountdowns 1 1 1

/-- A machine at a self-jump with the countdowns `i`, `d`, `s`. -/
def due (i d s : Nat) : State := tie.setCountdowns i d s

/-- Only the delay tick is due, only the sound tick, both. -/
theorem witness_TiesRunInstructionFirst_ticks :
    tie.params.periodsWf = true ∧ (NextInstant 3 3 (due 4 3 5) ∧ 3 < (due 4 3 5).cI) ∧
    (NextInstant 3 9 (due 4 5 3) ∧ 3 < (due 4 5 3).cI) ∧ (NextInstant 0 1 (due 1 0 0) ∧ 0 < (due 1 0 0).cI) := by
  unfold NextInstant; decide

/-- Only the instruction is due, the instruction and one tick, all three; the instruction returns `ok`. -/
theorem witness_TiesRunInstructionFirst_ok :
    (NextInstant 3 3 (due 3 4 5) ∧ (due 3 4 5).cI = 3) ∧ (NextInstant 3 3 (due 3 3 5) ∧ (due 3 3 5).cI = 3) ∧
    (NextInstant 3 9 (due 3 4 3) ∧ (due 3 4 3).cI = 3) ∧ (NextInstant 1 1 (due 1 1 1) ∧ (due 1 1 1).cI = 1) ∧
    (NextInstant 0 1 (due 0 0 0) ∧ (due 0 0 0).cI = 0) ∧
    after (executeNext ((due 3 4 5).setCountdowns 0 (4 - 3) (5 - 3))) (fun u => u.result == .ok) = true ∧
    after (executeNext ((due 0 0 0).setCountdowns 0 0 0)) (fun u => u.result == .ok) = true := by
  unfold NextInstant; decide

/-- At reset the instruction and nothing else is due after one time unit, and it is an error. -/
theorem witness_TiesRunInstructionFirst_error :
    NextInstant 1 9 State.reset ∧ State.reset.cI = 1 ∧
    after (executeNext (State.reset.setCountdowns 0 (State.reset.cD - 1) (State.reset.cS - 1)))
      (fun u => u.result == .error (.unknownOpcode 0#16)) = true := by
  unfold NextInstant; decide
theorem witness_AdvanceLeavesCountdownsReady :
    tie.cI ≤ tie.params.periodI ∧ tie.cD ≤ tie.params.periodD ∧ tie.cS ≤ tie.params.periodS ∧
    after (advance 1 tie) (fun t => t.result == .ok) = true := by decide
theorem witness_AdvanceLeavesCountdownsReady_zero :
    CountdownsReady tie ∧ after (advance 0 tie) (fun t => t.result == .ok) = true := by
  unfold CountdownsReady; decide
theorem witness_AdvanceCountdownFormula :
    CountdownsReady tie ∧ after (advance 21 tie) (fun t => t.result == .ok) = true := by
  unfold CountdownsReady; decide
theorem witness_SplitInvariance_error :
    after (advance (0 + 1) State.reset) (fun t => t.result == .error (.unknownOpcode 0#16)) = true ∧
    after (advance (1 + 4) State.reset) (fun t => t.result == .error (.unknownOpcode 0#16)) = true := by decide
theorem witness_SplitInvariance : after (advance (3 + 4) tie) (fun t => t.result == .ok) = true := by decide
/-- An error at a three-way tie, two time units before the end of the duration. -/
theorem witness_AdvancePassesErrorsOn_error :
    State.reset.params.periodsWf = true ∧ NextInstant 3 5 (State.reset.setCountdowns 3 3 3) ∧
    (State.reset.setCountdowns 3 3 3).cI = 3 ∧
    after (executeNext ((State.reset.setCountdowns 3 3 3).setCountdowns 0 (3 - 3) (3 - 3)))
      (fun u => u.result == .error (.unknownOpcode 0#16)) = true ∧
    after (advance 5 (State.reset.setCountdowns 3 3 3)) (fun t => t.result == .error (.unknownOpcode 0#16)) = true := by
  unfold NextInstant; decide
theorem witness_AdvancePassesErrorsOn_fault :
    NextInstant 1 1 (State.reset.setPc 4095#16) ∧ (State.reset.setPc 4095#16).cI = 1 ∧
    faultsAt 4096 (executeNext ((State.reset.setPc 4095#16).setCountdowns 0 (10 - 1) (10 - 1))) = true ∧
    faultsAt 4096 (advance 1 (State.reset.setPc 4095#16)) = true := by
  unfold NextInstant; decide
theorem witness_AdvanceTerminates :
    State.reset.params.periodsWf = true ∧ (timed 0 5 5 []).params.periodsWf = false := by decide
theorem witness_HostKeyEvents :
    (State.reset.setHostMoves [.keyDown 15]).hostMoves = .keyDown 15 :: [] ∧
    (State.reset.setHostMoves [.keyUp 0]).hostMoves = .keyUp 0 :: [] := by decide
theorem witness_OnlyTheHostWritesTheKeypad :
    after (step (tie.setHostMoves [.advance 1])) (fun t => t.keys == tie.keys) = true := by decide
theorem witness_LastKeyInfluencesNothing :
    after (executeNext tie) (fun t => t.result == .ok) = true ∧ after (advance 1 tie) (fun t => t.result == .ok) = true ∧
    faultsAt 4096 (executeNext (State.reset.setPc 4095#16)) = true ∧
    faultsAt 4096 (advance 1 (State.reset.setPc 4095#16)) = true := by decide

/-- A machine with a period of 0, whose `advance` is refused. -/
theorem witness_LastKeyInfluencesNothing_refused : ∃ r, advance 1 (timed 0 5 5 []) = .refused r := ⟨.zeroPeriod, rfl⟩
theorem witness_ImageMemory :
    (0xFFF#12).toNat + ([7#8] : List Byte).length ≤ Config.memSize ∧ 0 < ([7#8] : List Byte).length ∧
    4094 < (0xFFF#12).toNat ∧ (0xFFE#12).toNat + ([7#8] : List Byte).length ≤ 4095 := by decide
theorem witness_ConstructionMeetsInvariant : defaultParams.wf = true ∧ Memory.wf [(4095, 7#8)] = true := by decide

/-- The machine of `tie` meets the invariant, and it steps. -/
theorem witness_StepKeepsInvariant :
    tie.Inv ∧ after (step tie) (fun t => t.result == .ok) = true :=
  ⟨⟨by decide, by decide, by decide, by decide, by decide, by decide, by decide, by decide⟩, by decide⟩

end Sys2Proof.Tests
end

section
/-! PROOF. The unrecognised-opcode error (R102). The rows of the map with one major nibble all compare the same number of
low bits, so a word is rejected by the map exactly when those bits are none of the minor codes of its group; the decoder,
which goes by the major nibble first (R98), errs in the same case. -/

namespace Sys2Proof

/-- The major nibble of a row's match. -/
def OpcodeRow.major (r : OpcodeRow) : Nat := r.pattern.toNat / 4096

/-- The low 12 bits of a row's match. -/
def OpcodeRow.minor (r : OpcodeRow) : Nat := r.pattern.toNat % 4096

/-- How many low bits select the operation in the group of major nibble `m` (R98). -/
def minorWidth : Nat → Nat
  | 0 => 12
  | 5 | 8 | 9 => 4
  | 14 | 15 => 8
  | _ => 0

/-- The minor codes of the rows in the group of major nibble `m`. -/
def minorsOf (m : Nat) : List Nat := (opcodeMap.filter fun r => r.major = m).map OpcodeRow.minor

/-- The bits of a word that select the operation in its group. -/
def minorBits (w : Word16) : Nat := w.toNat % 2 ^ minorWidth (fieldN3 w)

theorem fieldN3_lt (w : Word16) : fieldN3 w < 16 := by
  have := w.isLt
  rw [fieldN3_eq]
  omega

theorem minorWidth_le (m : Nat) : minorWidth m ≤ 12 := by
  unfold minorWidth
  split <;> decide

theorem mask_toNat_of_mem_opcodeMap :
    ∀ r ∈ opcodeMap, r.mask.toNat = 0xF000 + (2 ^ minorWidth r.major - 1) := by decide

/-- A row of the map accepts the words of its group that carry its minor code. -/
theorem accepts_iff_major_minor {r : OpcodeRow} (hr : r ∈ opcodeMap) (w : Word16) :
    r.accepts w = true ↔ r.major = fieldN3 w ∧ r.minor = minorBits w := by
  have hle := minorWidth_le r.major
  have hlow : w.toNat % 2 ^ minorWidth r.major < 4096 :=
    lt_of_lt_of_le (Nat.mod_lt _ (by positivity)) (Nat.pow_le_pow_right (by decide) hle)
  have hmajor : fieldN3 w = w.toNat / 4096 := fieldN3_eq w
  rw [accepts_iff, mask_low w _ hle _ (mask_toNat_of_mem_opcodeMap r hr)]
  constructor
  · intro h
    have hm : r.major = fieldN3 w := by rw [OpcodeRow.major]; omega
    refine ⟨hm, ?_⟩
    rw [minorBits, ← hm, OpcodeRow.minor]
    omega
  · rintro ⟨hm, hn⟩
    rw [minorBits, ← hm, OpcodeRow.minor] at hn
    rw [← hn]
    rw [OpcodeRow.major] at hm
    omega

theorem opcodeMap_rejects_iff (w : Word16) :
    (∀ r ∈ opcodeMap, r.accepts w = false) ↔ minorBits w ∉ minorsOf (fieldN3 w) := by
  simp only [minorsOf, List.mem_map, List.mem_filter, decide_eq_true_eq, ← Bool.not_eq_true]
  constructor
  · rintro h ⟨r, ⟨hr, hmajor⟩, hminor⟩
    exact h r hr ((accepts_iff_major_minor hr w).mpr ⟨hmajor, hminor⟩)
  · intro h r hr hacc
    obtain ⟨hmajor, hminor⟩ := (accepts_iff_major_minor hr w).mp hacc
    exact h ⟨r, ⟨hr, hmajor⟩, hminor⟩

/-! ## The groups of the decoder (R98) -/

theorem decode8_eq_error_iff (w : Word16) :
    decode8 w = .error (.unknownOpcode w) ↔ w.toNat % 16 ∉ [0, 1, 2, 3, 4, 5, 6, 7, 14] := by
  rw [decode8, fieldN_val]
  split <;> simp_all

theorem decodeE_eq_error_iff (w : Word16) :
    decodeE w = .error (.unknownOpcode w) ↔ w.toNat % 256 ∉ [0x9E, 0xA1] := by
  rw [decodeE, field_low]
  split <;> simp_all

theorem decodeF_eq_error_iff (w : Word16) :
    decodeF w = .error (.unknownOpcode w) ↔
      w.toNat % 256 ∉ [0x07, 0x0A, 0x15, 0x18, 0x1E, 0x29, 0x33, 0x55, 0x65] := by
  rw [decodeF, field_low]
  split <;> simp_all

/-- The two groups that have a row for the low nibble 0 only. -/
theorem ite_fieldN_eq_error_iff (w : Word16) (i : Instr) :
    (if (fieldN w).val = 0 then .ok i else .error (.unknownOpcode w) : Except DecodeError Instr) =
      .error (.unknownOpcode w) ↔ w.toNat % 16 ∉ [0] := by
  rw [fieldN_val]
  split <;> simp_all

/-- A group whose operation no low bits select holds the minor code 0: every word of it is recognised. -/
theorem zero_mem_minorsOf : ∀ m < 16, minorWidth m = 0 → 0 ∈ minorsOf m := by decide

theorem minorBits_mem_minorsOf {w : Word16} (h : minorWidth (fieldN3 w) = 0) :
    minorBits w ∈ minorsOf (fieldN3 w) := by
  rw [minorBits, h, Nat.pow_zero, Nat.mod_one]
  exact zero_mem_minorsOf _ (fieldN3_lt w) h

/-- In the group of `CLS` and `RET` the minor bits are the whole word. -/
theorem minorBits_eq_toNat {w : Word16} (h : fieldN3 w = 0) : minorBits w = w.toNat := by
  rw [minorBits, h, minorWidth]
  rw [fieldN3_eq] at h
  omega

/-- Each group of the decoder errs on the minor bits that are no minor code of its rows. The lists of codes above are
`minorsOf` of their groups by computation. -/
theorem decode_eq_error_iff (w : Word16) :
    decode w = .error (.unknownOpcode w) ↔ minorBits w ∉ minorsOf (fieldN3 w) := by
  have hlt := fieldN3_lt w
  unfold decode
  split
  case h_1 h =>
    rw [minorBits_eq_toNat h, h, show minorsOf 0 = [0x00E0, 0x00EE] by decide]
    split_ifs <;> simp_all
  case h_6 h | h_10 h => rw [ite_fieldN_eq_error_iff, minorBits, h]; rfl
  case h_9 h => rw [decode8_eq_error_iff, minorBits, h]; rfl
  case h_15 h => rw [decodeE_eq_error_iff, minorBits, h]; rfl
  case h_16 h => rw [decodeF_eq_error_iff, minorBits, h]; rfl
  case h_2 h | h_3 h | h_4 h | h_5 h | h_7 h | h_8 h | h_11 h | h_12 h | h_13 h | h_14 h =>
    have hmem := minorBits_mem_minorsOf (w := w) (by rw [h]; rfl)
    simp [hmem]
  case h_17 =>
    simp only [imp_false] at *
    omega

/-- Settles O5: the map rejects a word, and the decoder errs on it, in the same case, that its minor bits are no code of
its group. -/
theorem unrecognisedWordsAreErrors : Obligations.UnrecognisedWordsAreErrors := fun w =>
  ⟨(opcodeMap_rejects_iff w).trans (decode_eq_error_iff w).symm, rfl⟩

end Sys2Proof
end

section
/-! PROOF. `LD Vx,kk` (R131). The encoding is read back field by field; the meaning is one register write followed by
`next()`, whose outcome is stated for any register and value. -/

namespace Sys2Proof

open Sys2Proof.Machine Sys2Proof.Frame

/-! ## Encoding -/

theorem decode_major_six {w : Word16} (h : fieldN3 w = 6) : decode w = .ok (.ldImm (fieldX w) (fieldKK w)) := by
  simp only [decode, h]

theorem decode_encode_ldImm (x : RegisterIndex) (kk : Byte) : decode (encode (.ldImm x kk)) = .ok (.ldImm x kk) := by
  have hw : (encode (.ldImm x kk)).toNat = 0x6000 + x.val * 256 + kk.toNat := encode_toNat _
  have hx := x.isLt
  have hk := kk.isLt
  have hmajor : fieldN3 (encode (.ldImm x kk)) = 6 := by rw [fieldN3_eq]; omega
  have hfieldX : fieldX (encode (.ldImm x kk)) = x := fieldX_of (by omega)
  have hfieldKK : fieldKK (encode (.ldImm x kk)) = kk := fieldKK_of (by omega)
  rw [decode_major_six hmajor, hfieldX, hfieldKK]

/-- An instruction that decodes from its own word is encoded by that word's number. -/
theorem encodes_encodeNat {i : Instr} (h : decode (encode i) = .ok i) : Encodes (encodeNat i) i :=
  ⟨encodeNat_lt i, h, rfl⟩

/-! ## Meaning -/

theorem exec_ldImm (x : RegisterIndex) (kk : Byte) (s : State) : exec (.ldImm x kk) s = nextPc (s.setV x kk) := rfl

theorem sameRegsExcept_setV (x : RegisterIndex) (v : Byte) (s : State) :
    SameRegsExcept (fun r => r = x) s (s.setV x v) :=
  fun _ hr => State.V_setV_other s v (Ne.symm hr)

/-- One register write and `next()`: the rule of every load into a register (R15, R24). -/
theorem nextPc_setV_outcome (x : RegisterIndex) (v : Byte) (s : State) :
    ∃ t, nextPc (s.setV x v) = .next t ∧ t.V x = v ∧ SameRegsExcept (fun r => r = x) s t ∧
      EndsAt (s.pc + 2#16) t ∧ SameBeyondRegs s t := by
  refine ⟨_, nextPc_eq _, ?value, ?registers, ?ending, ?beyond⟩
  case value => simp
  case registers => exact sameRegsExcept_setV x v s
  case ending => simp [EndsAt]
  case beyond =>
    simp [SameBeyondRegs, SameStack, SameMem, SameDevices, SameScreen, SameTimers, SameKeys, SameSched, SameRandom,
      SameHost]

/-- Settles O17: the word carries `x` and `kk` in their fields, and the meaning is the write of `kk` to `V[x]`. -/
theorem loadImmediate : Obligations.LoadImmediate := by
  intro x kk s
  refine ⟨encodes_encodeNat (decode_encode_ldImm x kk), ?_⟩
  rw [exec_ldImm]
  exact nextPc_setV_outcome x kk s

end Sys2Proof
end

section
/-! PROOF. `CLS` (R200, R281). The meaning is the clearing of the frame buffer followed by `next()`; the clearing turns
every pixel off and touches no other field. -/

namespace Sys2Proof

open Sys2Proof.Machine Sys2Proof.Frame

/-! ## Encoding -/

theorem decode_encode_cls : decode (encode .cls) = .ok .cls := by decide

/-! ## Meaning -/

theorem exec_cls (s : State) : exec .cls s = nextPc (Cap.clear s) := rfl

@[simp] theorem isOn_nil (p : Pixel) : FrameBuffer.isOn [] p = false := by simp [FrameBuffer.isOn]

/-- A replacement of the frame buffer and `next()`: the buffer is the new one, `pc + 2`, and nothing else changes (R24). -/
theorem nextPc_setFb_outcome (fb : FrameBuffer) (s : State) :
    ∃ t, nextPc (s.setFb fb) = .next t ∧ t.fb = fb ∧ EndsAt (s.pc + 2#16) t ∧ SameRegs s t ∧ t.idx = s.idx ∧
      SameStack s t ∧ SameMem s t ∧ SameTimers s t ∧ SameKeys s t ∧ SameSched s t ∧ SameRandom s t ∧ SameHost s t := by
  refine ⟨_, nextPc_eq _, ?screen, ?ending, ?frame⟩
  case screen => simp
  case ending => simp [EndsAt]
  case frame => simp [SameRegs, SameStack, SameMem, SameTimers, SameKeys, SameSched, SameRandom, SameHost]

/-- Settles O33: the word is read back as `CLS`, and the meaning is `next()` from the empty frame buffer, in which no pixel
is on. -/
theorem clearScreen : Obligations.ClearScreen := by
  refine ⟨encodes_encodeNat decode_encode_cls, fun s => ?_⟩
  obtain ⟨t, hnext, hfb, hrest⟩ := nextPc_setFb_outcome [] s
  have hoff : ∀ p, FrameBuffer.isOn t.fb p = false := fun p => by rw [hfb, isOn_nil]
  exact ⟨t, (exec_cls s).trans hnext, hoff, hrest⟩

end Sys2Proof
end

section
/-! PROOF. The unrecognised word in `execute_next` (R232). The transaction writes the result and nothing else, and the fetch
does not read the result, so the next transaction meets the same word. -/

namespace Sys2Proof

open Sys2Proof.Machine

@[simp] theorem fetch_setResult (s : State) (r : TxResult) : fetch (s.setResult r) = fetch s := rfl

@[simp] theorem setResult_setResult (s : State) (r r' : TxResult) : (s.setResult r).setResult r' = s.setResult r' := rfl

theorem executeNext_of_unrecognised {s : State} {w : Word16} {e : DecodeError} (hfetch : fetch s = .ok w)
    (hdecode : decode w = .error e) : executeNext s = .next (s.setResult (.error (.unknownOpcode w))) := by
  rw [executeNext, hfetch, orFault_ok, execWord, hdecode, raiseError_eq]

/-- Settles O9: the second transaction fetches the same word, and the result it writes is the one already there. -/
theorem unknownOpcodeChangesNothing : Obligations.UnknownOpcodeChangesNothing := by
  intro s w e hfetch hdecode
  have hagain : fetch (s.setResult (.error (.unknownOpcode w))) = .ok w := by rw [fetch_setResult, hfetch]
  refine ⟨executeNext_of_unrecognised hfetch hdecode, ?_⟩
  rw [executeNext_of_unrecognised hagain hdecode, setResult_setResult]

end Sys2Proof
end

section
/-! PROOF. The pc after an instruction (R24). An instruction that goes on ends in `next()`, `skip()`, a jump or an error, so
its pc is read off the way it ends. -/

namespace Sys2Proof

open Sys2Proof.Machine Sys2Proof.Frame

/-! ## The ways to end, read backwards -/

/-- What goes on behind an access was given the value of that access. -/
theorem orFault_eq_next {α : Type} {r : Except Fault α} {k : α → StepOutcome} {t : State}
    (h : orFault r k = .next t) : ∃ a, r = .ok a ∧ k a = .next t := by
  cases r with
  | ok a => exact ⟨a, rfl, h⟩
  | error f => cases h

theorem pc_of_jumpTo {p : Word16} {q t : State} (h : jumpTo p q = .next t) : t.pc = p := by
  cases h
  rfl

/-- `next()` after updates that leave the pc alone. -/
theorem pc_of_nextPc {s q t : State} (h : nextPc q = .next t) (hq : q.pc = s.pc) : t.pc = s.pc + 2#16 := by
  rw [pc_of_jumpTo h, hq]

theorem pc_of_skipIf {c : Bool} {s t : State} (h : skipIf c s = .next t) :
    t.pc = if c then s.pc + 4#16 else s.pc + 2#16 := by
  cases c <;> exact pc_of_jumpTo h

theorem pc_of_raiseError {e : ErrorKind} {s t : State} (h : raiseError e s = .next t) : t.pc = s.pc := by
  cases h
  rfl

/-! ## Accesses leave the pc alone -/

theorem pc_of_setI {v : Nat} {s q : State} (h : setI v s = .ok q) : q.pc = s.pc := by
  by_cases hv : v ≤ 4095
  · rw [setI_inside s hv] at h
    cases h
    rfl
  · rw [setI_outside s hv] at h
    cases h

theorem pc_of_storeBlock {vs : List Byte} : ∀ {a : Nat} {s q : State}, storeBlock a vs s = .ok q → q.pc = s.pc := by
  induction vs with
  | nil =>
    intro a s q h
    cases h
    rfl
  | cons v vs ih =>
    intro a s q h
    by_cases ha : a < Config.memSize
    · rw [storeBlock, memWrite_inside v s ha] at h
      have hrest : q.pc = (s.setMem (Memory.write s.mem a v)).pc := ih h
      rw [hrest, State.setMem_pc]
    · rw [storeBlock, memWrite_outside v s ha] at h
      cases h

theorem pc_setRegsFrom (i : Nat) (vs : List Byte) (s : State) : (setRegsFrom i vs s).pc = s.pc := by
  obtain ⟨regs, h⟩ := setRegsFrom_eq vs i s
  rw [h]

/-! ## The table -/

/-- The table of R24 holds of every instruction that goes on. -/
theorem exec_pc {i : Instr} {s t : State} (h : exec i s = .next t) : t.pc = pcAfter i s := by
  cases i
  case jp nnn => exact pc_of_jumpTo h
  case jpV0 nnn => exact pc_of_jumpTo h
  case call nnn =>
    simp only [exec] at h
    by_cases hsp : s.sp.val = 16
    · rw [execCall_full nnn s hsp] at h
      simpa [pcAfter, hsp] using pc_of_raiseError h
    · rw [execCall_room nnn s (by omega)] at h
      simpa [pcAfter, hsp, targetPc] using pc_of_jumpTo h
  case ret =>
    simp only [exec] at h
    by_cases hsp : s.sp.val = 0
    · rw [execRet_empty s hsp] at h
      simpa [pcAfter, hsp] using pc_of_raiseError h
    · rw [execRet_some s hsp] at h
      simpa [pcAfter, hsp] using pc_of_jumpTo h
  case seImm x kk => simpa [pcAfter] using pc_of_skipIf h
  case sneImm x kk => simpa [pcAfter] using pc_of_skipIf h
  case seReg x y => simpa [pcAfter] using pc_of_skipIf h
  case sneReg x y => simpa [pcAfter] using pc_of_skipIf h
  case skp x =>
    simp only [exec] at h
    by_cases hkey : (s.V x).toNat < 16
    · rw [execSkp_key x s hkey] at h
      simpa [pcAfter, hkey] using pc_of_skipIf h
    · rw [execSkp_other x s hkey] at h
      simpa [pcAfter, hkey] using pc_of_raiseError h
  case sknp x =>
    simp only [exec] at h
    by_cases hkey : (s.V x).toNat < 16
    · rw [execSknp_key x s hkey] at h
      rw [pc_of_skipIf h]
      cases hdown : s.keys[(s.V x).toNat] <;> simp [pcAfter, hkey, hdown]
    · rw [execSknp_other x s hkey] at h
      simpa [pcAfter, hkey] using pc_of_raiseError h
  case ldVxK x =>
    simp only [exec] at h
    obtain ⟨hnone, hstay⟩ | ⟨k, hk, -, hnext⟩ := execLdVxK_cases x s
    · rw [hstay] at h
      simpa [pcAfter, hnone] using pc_of_jumpTo h
    · rw [hnext] at h
      have hdown : ∃ k : KeyIndex, s.keys[k.val] = true := ⟨k, hk⟩
      simp only [pcAfter, if_pos hdown]
      exact pc_of_nextPc h rfl
  case rnd x kk =>
    obtain ⟨r, tape, hrnd⟩ := execRnd_eq x kk s
    exact pc_of_nextPc (hrnd.symm.trans h) rfl
  case drw x y n =>
    obtain ⟨rows, -, hnext⟩ := orFault_eq_next h
    exact pc_of_nextPc hnext rfl
  case ldI | addI | ldF =>
    obtain ⟨q, hq, hnext⟩ := orFault_eq_next h
    exact pc_of_nextPc hnext (pc_of_setI hq)
  case ldB x =>
    obtain ⟨q, hq, hnext⟩ := orFault_eq_next h
    exact pc_of_nextPc hnext (pc_of_storeBlock hq)
  case storeRegs x =>
    obtain ⟨q, hq, h'⟩ := orFault_eq_next h
    obtain ⟨q', hq', hnext⟩ := orFault_eq_next h'
    exact pc_of_nextPc hnext ((pc_of_setI hq').trans (pc_of_storeBlock hq))
  case loadRegs x =>
    obtain ⟨bytes, -, h'⟩ := orFault_eq_next h
    obtain ⟨q, hq, hnext⟩ := orFault_eq_next h'
    exact pc_of_nextPc hnext ((pc_of_setI hq).trans (pc_setRegsFrom 0 bytes s))
  all_goals exact pc_of_nextPc h rfl

end Sys2Proof
end

section
/-! PROOF. Standing still (R236). By the table of R24 the pc stays where it is only in an error, on a jump to itself and in
the key wait, besides calls and returns, which move the stack pointer. -/

namespace Sys2Proof

open Sys2Proof.Machine Sys2Proof.Frame

/-! ## Errors, calls and returns -/

/-- In the cases of the table of R310 the instruction ends in the error the table names. -/
theorem exec_of_errs {i : Instr} {s : State} {e : ErrorKind} (h : Errs i s e) : exec i s = raiseError e s := by
  cases i
  case call nnn =>
    obtain ⟨hsp, rfl⟩ := h
    exact execCall_full nnn s hsp
  case ret =>
    obtain ⟨hsp, rfl⟩ := h
    exact execRet_empty s hsp
  case skp x =>
    obtain ⟨hkey, rfl⟩ := h
    exact execSkp_other x s (by omega)
  case sknp x =>
    obtain ⟨hkey, rfl⟩ := h
    exact execSknp_other x s (by omega)
  all_goals exact h.elim

theorem not_errs_of_ok {i : Instr} {s t : State} {e : ErrorKind} (h : exec i s = .next t) (hok : t.result = .ok) :
    ¬ Errs i s e := by
  intro herrs
  rw [exec_of_errs herrs] at h
  cases h
  cases hok

theorem sp_of_call {nnn : Address} {s t : State} (h : exec (.call nnn) s = .next t) (hok : t.result = .ok) :
    t.sp.val = s.sp.val + 1 := by
  have hroom : s.sp.val ≠ 16 := fun hsp => not_errs_of_ok h hok ⟨hsp, rfl⟩
  rw [exec, execCall_room nnn s (by omega)] at h
  cases h
  rfl

theorem sp_of_ret {s t : State} (h : exec .ret s = .next t) (hok : t.result = .ok) : t.sp.val + 1 = s.sp.val := by
  have hsome : s.sp.val ≠ 0 := fun hsp => not_errs_of_ok h hok ⟨hsp, rfl⟩
  rw [exec, execRet_some s hsome] at h
  cases h
  exact Nat.sub_add_cancel (Nat.pos_of_ne_zero hsome)

/-! ## The key wait -/

theorem exec_ldVxK_of_no_key {x : RegisterIndex} {s : State} (h : ∀ k : KeyIndex, s.keys[k.val] = false) :
    exec (.ldVxK x) s = .next (s.setResult .ok) := by
  obtain ⟨-, hstay⟩ | ⟨k, hk, -⟩ := execLdVxK_cases x s
  · exact hstay
  · rw [h k] at hk
    cases hk

/-! ## Where the pc stays -/

/-- The rows of the table of R24 that can name the pc of the instruction itself. -/
theorem pcAfter_eq_pc {i : Instr} {s : State} (h : pcAfter i s = s.pc) :
    (∃ e, Errs i s e) ∨ (∃ nnn, i = .call nnn) ∨ i = .ret ∨ (∃ nnn, i = .jp nnn) ∨ (∃ nnn, i = .jpV0 nnn) ∨
      ∃ x, i = .ldVxK x ∧ ∀ k : KeyIndex, s.keys[k.val] = false := by
  cases i
  case call | ret | jp | jpV0 => simp
  case ldVxK x =>
    by_cases hdown : ∃ k : KeyIndex, s.keys[k.val] = true
    · simp only [pcAfter, if_pos hdown] at h
      simp at h
    · have hnone : ∀ k : KeyIndex, s.keys[k.val] = false := by simpa using hdown
      simp [hnone]
  case skp x | sknp x =>
    by_cases hkey : (s.V x).toNat < 16
    · simp only [pcAfter, dif_pos hkey] at h
      split at h <;> simp at h
    · exact .inl ⟨_, by omega, rfl⟩
  case seImm | sneImm | seReg | sneReg =>
    simp only [pcAfter] at h
    split at h <;> simp at h
  all_goals simp [pcAfter] at h

theorem targetPc_toNat (nnn : Address) : (targetPc nnn).toNat = nnn.toNat := by
  simp only [targetPc, BitVec.toNat_setWidth]
  omega

theorem offsetTargetPc_toNat (nnn : Address) (s : State) :
    (offsetTargetPc nnn s).toNat = nnn.toNat + (s.V offsetReg).toNat := by
  simp only [offsetTargetPc, BitVec.toNat_ofNat]
  omega

/-- Settles O14: of the instructions that can leave the pc where it is, an error does not return `ok`, and a call or a return
moves the stack pointer. -/
theorem onlyWaitsAndSelfJumpsStandStill : Obligations.OnlyWaitsAndSelfJumpsStandStill := by
  refine ⟨fun x s => exec_ldVxK_of_no_key, ?_⟩
  intro i s t h hok _ _ hpc hsp _ _
  have hstay : pcAfter i s = s.pc := (exec_pc h).symm.trans hpc
  obtain ⟨e, herrs⟩ | ⟨nnn, rfl⟩ | rfl | ⟨nnn, rfl⟩ | ⟨nnn, rfl⟩ | ⟨x, rfl, hnone⟩ := pcAfter_eq_pc hstay
  · exact absurd herrs (not_errs_of_ok h hok)
  · have := sp_of_call h hok
    rw [hsp] at this
    omega
  · have := sp_of_ret h hok
    rw [hsp] at this
    omega
  · exact .inr (.inl ⟨nnn, rfl, by rw [← hstay]; exact (targetPc_toNat nnn).symm⟩)
  · exact .inr (.inr ⟨nnn, rfl, by rw [← hstay]; exact (offsetTargetPc_toNat nnn s).symm⟩)
  · rw [exec_ldVxK_of_no_key hnone] at h
    cases h
    exact .inl ⟨⟨x, rfl⟩, hnone, rfl⟩

end Sys2Proof
end

section
/-! PROOF. The timer ticks (R255). A tick that is due is a write of its own timer followed by a write of the countdowns in which
only its own countdown changes; the value written is the truncated predecessor of the timer. -/

namespace Sys2Proof

open Sys2Proof.Machine

theorem delayTick_due {s : State} (h : s.cD = 0) :
    delayTick s = (s.setDT (tickDown s.dt)).setCountdowns s.cI s.params.periodD s.cS := if_pos h

theorem soundTick_due {s : State} (h : s.cS = 0) :
    soundTick s = (s.setST (tickDown s.st)).setCountdowns s.cI s.cD s.params.periodS := if_pos h

/-- The truncated predecessor, with its floor at 0 written as the case R255 makes of it. -/
theorem tickDown_toNat_floor (v : Byte) : (tickDown v).toNat = if 0 < v.toNat then v.toNat - 1 else 0 := by
  rw [tickDown_toNat]
  split <;> omega

/-- Settles O46: each tick is put as its two writes, and the written timer value is the predecessor with floor 0. -/
theorem ticksFloorAtZero : Obligations.TicksFloorAtZero := by
  intro s
  refine ⟨fun hdue => ?_, fun hdue => ?_⟩
  · rw [delayTick_due hdue]
    exact ⟨tickDown_toNat_floor s.dt, rfl, rfl⟩
  · rw [soundTick_due hdue]
    exact ⟨tickDown_toNat_floor s.st, rfl, rfl⟩

end Sys2Proof
end

section
/-! PROOF. The timer and key calls of the default backend (R283 to R286). The two writes are the state's own timer writes, so
their effects are the reading rules of those writes; the two queries return a field. -/

namespace Sys2Proof

open Sys2Proof.Machine

theorem getDelay_eq_dt (s : State) : Cap.getDelay s = s.dt := rfl

theorem setDelay_eq_setDT (v : Byte) (s : State) : Cap.setDelay v s = s.setDT v := rfl

theorem setSound_eq_setST (v : Byte) (s : State) : Cap.setSound v s = s.setST v := rfl

theorem isPressed_eq_keys (k : KeyIndex) (s : State) : Cap.isPressed k s = s.keys[k.val] := rfl

/-- A delay that was set is the delay read next (R283 after R284). -/
theorem getDelay_setDelay (v : Byte) (s : State) : Cap.getDelay (Cap.setDelay v s) = v := by
  rw [getDelay_eq_dt, setDelay_eq_setDT, State.setDT_dt]

/-- Settles O40: each write is put as the timer write of the state, whose reading rules give the timer and the countdown. -/
theorem capabilityCalls : Obligations.CapabilityCalls := by
  intro s v k
  refine ⟨getDelay_eq_dt s, ⟨?_, getDelay_setDelay v s, ?_, ?_⟩, ⟨?_, ?_, ?_⟩, isPressed_eq_keys k s⟩
  · rw [setDelay_eq_setDT, State.setDT_dt]
  · rw [setDelay_eq_setDT, State.setDT]
  · rw [setDelay_eq_setDT, State.setDT_cD]
  · rw [setSound_eq_setST, State.setST_st]
  · rw [setSound_eq_setST, State.setST]
  · rw [setSound_eq_setST, State.setST_cS]

end Sys2Proof
end

section
/-! PROOF. The round trips of the encoder and the decoder (R104). A word is put together from its fields, so a word whose
number is that of an instruction has the major nibble and the fields of it; and the fields of a word that decodes to an
instruction put the word together again. -/

namespace Sys2Proof

/-! ## The fields of a word given as a sum, one lemma per format (R92) -/

theorem fields_of_address {w : Word16} {k : Nat} {a : Address} (h : w.toNat = k + a.toNat) (hk : k % 4096 = 0) :
    fieldN3 w = k / 4096 ∧ fieldNNN w = a := by
  have ha := a.isLt
  exact ⟨by rw [fieldN3_eq]; omega, fieldNNN_of (by omega)⟩

theorem fields_of_byte {w : Word16} {k : Nat} {x : RegisterIndex} {kk : Byte}
    (h : w.toNat = k + x.val * 256 + kk.toNat) (hk : k % 4096 = 0) :
    fieldN3 w = k / 4096 ∧ fieldX w = x ∧ fieldKK w = kk := by
  have hx := x.isLt
  have hkk := kk.isLt
  exact ⟨by rw [fieldN3_eq]; omega, fieldX_of (by omega), fieldKK_of (by omega)⟩

theorem fields_of_sprite {w : Word16} {k : Nat} {x y : RegisterIndex} {n : Nibble}
    (h : w.toNat = k + x.val * 256 + y.val * 16 + n.val) (hk : k % 4096 = 0) :
    fieldN3 w = k / 4096 ∧ fieldX w = x ∧ fieldY w = y ∧ fieldN w = n := by
  have hx := x.isLt
  have hy := y.isLt
  have hn := n.isLt
  exact ⟨by rw [fieldN3_eq]; omega, fieldX_of (by omega), fieldY_of (by omega), fieldN_of (by omega)⟩

/-- The low nibble is the code of the operation (R98). -/
theorem fields_of_registers {w : Word16} {k : Nat} {x y : RegisterIndex} (h : w.toNat = k + x.val * 256 + y.val * 16)
    (hk : k % 4096 < 16) :
    fieldN3 w = k / 4096 ∧ fieldX w = x ∧ fieldY w = y ∧ (fieldN w).val = k % 4096 := by
  have hx := x.isLt
  have hy := y.isLt
  exact ⟨by rw [fieldN3_eq]; omega, fieldX_of (by omega), fieldY_of (by omega), by rw [fieldN_val]; omega⟩

/-- The low byte is the code of the operation (R98). -/
theorem fields_of_register {w : Word16} {k : Nat} {x : RegisterIndex} (h : w.toNat = k + x.val * 256)
    (hk : k % 4096 < 256) : fieldN3 w = k / 4096 ∧ fieldX w = x ∧ field w 7 0 = k % 4096 := by
  have hx := x.isLt
  exact ⟨by rw [fieldN3_eq]; omega, fieldX_of (by omega), by rw [field_low]; omega⟩

/-! ## Decode of encode -/

/-- The word with the number of an instruction decodes to it: its format's fields select the row and are the operands. -/
theorem decode_of_toNat {w : Word16} {i : Instr} (h : w.toNat = encodeNat i) : decode w = .ok i := by
  cases i
  case cls | ret =>
    have hmajor : fieldN3 w = 0 := by rw [fieldN3_eq, h]; rfl
    simp [decode, hmajor, h, encodeNat]
  case jp | call | ldI | jpV0 =>
    obtain ⟨hmajor, hnnn⟩ := fields_of_address h rfl
    simp [decode, hmajor, hnnn]
  case seImm | sneImm | ldImm | addImm | rnd =>
    obtain ⟨hmajor, hx, hkk⟩ := fields_of_byte h rfl
    simp [decode, hmajor, hx, hkk]
  case drw =>
    obtain ⟨hmajor, hx, hy, hn⟩ := fields_of_sprite h rfl
    simp [decode, hmajor, hx, hy, hn]
  case seReg | ldReg | orReg | andReg | xorReg | addReg | sub | shr | subn | shl | sneReg =>
    obtain ⟨hmajor, hx, hy, hn⟩ := fields_of_registers h (by decide)
    simp [decode, decode8, hmajor, hx, hy, hn]
  case skp | sknp =>
    obtain ⟨hmajor, hx, hkk⟩ := fields_of_register h (by decide)
    simp [decode, decodeE, hmajor, hx, hkk]
  case ldVxDT | ldVxK | ldDTVx | ldSTVx | addI | ldF | ldB | storeRegs | loadRegs =>
    obtain ⟨hmajor, hx, hkk⟩ := fields_of_register h (by decide)
    simp [decode, decodeF, hmajor, hx, hkk]

theorem decode_encode (i : Instr) : decode (encode i) = .ok i := decode_of_toNat (encode_toNat i)

theorem encodes (i : Instr) : Frame.Encodes (encodeNat i) i := encodes_encodeNat (decode_encode i)

theorem decodeBytes_encodeBytes (i : Instr) (rest : List Byte) :
    decodeBytes (encodeBytes i ++ rest) = .ok (i, rest) := by
  simp [encodeBytes, decodeBytes, Machine.wordOfBytes_of_word, decode_encode]

/-- Settles O2: the fields of the encoded word are the operands, and the two bytes are joined to that word again. -/
theorem decodeOfEncode : Obligations.DecodeOfEncode :=
  fun i _ => ⟨decode_encode i, decodeBytes_encodeBytes i⟩

/-! ## Encode of decode, group by group -/

theorem toNat_of_decode8 {w : Word16} {i : Instr} (h : decode8 w = .ok i) :
    encodeNat i = 0x8000 + w.toNat % 4096 := by
  have hn := fieldN_val w
  unfold decode8 at h
  split at h <;> cases h <;> simp only [encodeNat, fieldX_val, fieldY_val] <;> omega

theorem toNat_of_decodeE {w : Word16} {i : Instr} (h : decodeE w = .ok i) :
    encodeNat i = 0xE000 + w.toNat % 4096 := by
  have hlow := field_low w
  unfold decodeE at h
  split at h <;> cases h <;> simp only [encodeNat, fieldX_val] <;> omega

theorem toNat_of_decodeF {w : Word16} {i : Instr} (h : decodeF w = .ok i) :
    encodeNat i = 0xF000 + w.toNat % 4096 := by
  have hlow := field_low w
  unfold decodeF at h
  split at h <;> cases h <;> simp only [encodeNat, fieldX_val] <;> omega

/-- The fields of a recognised word, put together by the encoder, are the number of the word. -/
theorem encodeNat_of_decode {w : Word16} {i : Instr} (h : decode w = .ok i) : encodeNat i = w.toNat := by
  have hmajor := fieldN3_eq w
  have hn := fieldN_val w
  unfold decode at h
  split at h
  case h_1 =>
    split_ifs at h with hw hw' <;> cases h
    · exact hw.symm
    · exact hw'.symm
  case h_6 | h_10 =>
    split_ifs at h
    cases h
    simp only [encodeNat, fieldX_val, fieldY_val]
    omega
  case h_9 => have := toNat_of_decode8 h; omega
  case h_15 => have := toNat_of_decodeE h; omega
  case h_16 => have := toNat_of_decodeF h; omega
  case h_17 => cases h
  all_goals
    cases h
    simp only [encodeNat, fieldX_val, fieldY_val, fieldN_val, fieldKK_toNat, fieldNNN_toNat]
    omega

/-- Settles O3: the number of the encoded word is that of the word decoded. -/
theorem encodeOfDecode : Obligations.EncodeOfDecode := fun _ i h =>
  BitVec.eq_of_toNat_eq ((encode_toNat i).trans (encodeNat_of_decode h))

end Sys2Proof
end

section
/-! PROOF. The decoder and the opcode map (R95, R96, R103). Every instruction has a row, at the place of its operation id,
that accepts its word; no two rows have the same major nibble and minor code, so no other row does. -/

namespace Sys2Proof

theorem opcodeMap_length : opcodeMap.length = 34 := rfl

theorem opId_lt (i : Instr) : i.opId < opcodeMap.length := by
  rw [opcodeMap_length]
  cases i <;> simp [Instr.opId]

theorem opId_getElem_opcodeMap : ∀ k (h : k < opcodeMap.length), opcodeMap[k].opId = k := by decide

/-- The row of an instruction: the one its operation id numbers. -/
def Instr.row (i : Instr) : OpcodeRow := opcodeMap[i.opId]'(opId_lt i)

theorem row_mem_opcodeMap (i : Instr) : i.row ∈ opcodeMap := List.getElem_mem _

theorem row_opId (i : Instr) : i.row.opId = i.opId := opId_getElem_opcodeMap _ _

/-- The row of an instruction accepts the word with its number: the operands lie outside the row's mask. -/
theorem row_accepts {w : Word16} {i : Instr} (h : w.toNat = encodeNat i) : i.row.accepts w = true := by
  cases i
  case cls | ret => exact (accepts_full _ _ w).trans (decide_eq_true h)
  case jp a | call a | ldI a | jpV0 a =>
    have ha := a.isLt
    refine (accepts_major _ _ w).trans (decide_eq_true ?_)
    simp only [encodeNat] at h
    simp only [BitVec.toNat_ofNat]
    omega
  case seImm x kk | sneImm x kk | ldImm x kk | addImm x kk | rnd x kk =>
    have hkk := kk.isLt
    refine (accepts_major _ _ w).trans (decide_eq_true ?_)
    simp only [encodeNat] at h
    simp only [BitVec.toNat_ofNat]
    omega
  case drw x y n =>
    refine (accepts_major _ _ w).trans (decide_eq_true ?_)
    simp only [encodeNat] at h
    simp only [BitVec.toNat_ofNat]
    omega
  case seReg | ldReg | orReg | andReg | xorReg | addReg | sub | shr | subn | shl | sneReg =>
    refine (accepts_minor4 _ _ w).trans (decide_eq_true ?_)
    simp only [encodeNat] at h
    simp only [BitVec.toNat_ofNat]
    omega
  all_goals
    refine (accepts_minor8 _ _ w).trans (decide_eq_true ?_)
    simp only [encodeNat] at h
    simp only [BitVec.toNat_ofNat]
    omega

theorem row_eq_of_major_minor :
    ∀ r ∈ opcodeMap, ∀ r' ∈ opcodeMap, r.major = r'.major → r.minor = r'.minor → r = r' := by decide

theorem row_unique {r r' : OpcodeRow} {w : Word16} (hr : r ∈ opcodeMap) (hr' : r' ∈ opcodeMap)
    (h : r.accepts w = true) (h' : r'.accepts w = true) : r' = r := by
  obtain ⟨hmajor, hminor⟩ := (accepts_iff_major_minor hr w).mp h
  obtain ⟨hmajor', hminor'⟩ := (accepts_iff_major_minor hr' w).mp h'
  exact row_eq_of_major_minor r' hr' r hr (hmajor'.trans hmajor.symm) (hminor'.trans hminor.symm)

theorem row_accepts_of_decode {w : Word16} {i : Instr} (h : decode w = .ok i) : i.row.accepts w = true :=
  row_accepts (encodeNat_of_decode h).symm

/-- Settles O4: the row that the operation id numbers accepts the word, and no other row does. -/
theorem decodeMatchesOpcodeMap : Obligations.DecodeMatchesOpcodeMap := by
  intro w i h
  have hacc := row_accepts_of_decode h
  exact ⟨i.row, row_mem_opcodeMap i, row_opId i, hacc, fun r' hr' h' => row_unique (row_mem_opcodeMap i) hr' hacc h'⟩

/-! ## The signals of the decoder block -/

theorem decode8_error_eq {w : Word16} {e : DecodeError} (h : decode8 w = .error e) : e = .unknownOpcode w := by
  unfold decode8 at h
  split at h <;> cases h
  rfl

theorem decodeE_error_eq {w : Word16} {e : DecodeError} (h : decodeE w = .error e) : e = .unknownOpcode w := by
  unfold decodeE at h
  split at h <;> cases h
  rfl

theorem decodeF_error_eq {w : Word16} {e : DecodeError} (h : decodeF w = .error e) : e = .unknownOpcode w := by
  unfold decodeF at h
  split at h <;> cases h
  rfl

/-- The only error of the decoder on a word is the one that carries it (R102). -/
theorem decode_error_eq {w : Word16} {e : DecodeError} (h : decode w = .error e) : e = .unknownOpcode w := by
  unfold decode at h
  split at h
  case h_1 | h_6 | h_10 =>
    split_ifs at h
    cases h
    rfl
  case h_9 => exact decode8_error_eq h
  case h_15 => exact decodeE_error_eq h
  case h_16 => exact decodeF_error_eq h
  case h_17 =>
    cases h
    rfl
  all_goals cases h

/-- A word is recognised exactly when a row of the map accepts it (R102). -/
theorem exists_decode_iff (w : Word16) : (∃ i, decode w = .ok i) ↔ ∃ r ∈ opcodeMap, r.accepts w = true := by
  constructor
  · rintro ⟨i, h⟩
    exact ⟨i.row, row_mem_opcodeMap i, row_accepts_of_decode h⟩
  · rintro ⟨r, hr, hacc⟩
    cases hd : decode w with
    | ok i => exact ⟨i, rfl⟩
    | error e =>
      rw [decode_error_eq hd] at hd
      have hrej := (unrecognisedWordsAreErrors w).1.mpr hd r hr
      rw [hacc] at hrej
      cases hrej

/-- The search of the block finds the row of the instruction. -/
theorem find_row {w : Word16} {i : Instr} (h : decode w = .ok i) :
    opcodeMap.find? (fun r => r.accepts w) = some i.row := by
  have hacc := row_accepts_of_decode h
  cases hf : opcodeMap.find? (fun r => r.accepts w) with
  | none => exact absurd hacc (by simpa using List.find?_eq_none.mp hf _ (row_mem_opcodeMap i))
  | some r =>
    have hfound : r.accepts w = true := List.find?_some (p := fun r : OpcodeRow => r.accepts w) hf
    rw [row_unique (row_mem_opcodeMap i) (List.mem_of_find?_eq_some hf) hacc hfound]

theorem decoderSignals_opId {w : Word16} {i : Instr} (h : decode w = .ok i) :
    (decoderSignals w).opId.toNat = i.opId := by
  have hlt := opId_lt i
  rw [opcodeMap_length] at hlt
  simp only [decoderSignals, find_row h, row_opId, BitVec.toNat_ofNat]
  omega

/-- Settles O6: `valid` and `op_id` come from the map, in which the row of a recognised word is the one of its operation
id; the operand outputs are the fields. -/
theorem decoderSignalsAgree : Obligations.DecoderSignalsAgree := by
  intro w
  refine ⟨?valid, fun i => decoderSignals_opId, ?x, ?y, ?n, ?kk, ?nnn⟩
  case valid => rw [exists_decode_iff, decoderSignals, List.any_eq_true]
  case x => simp [decoderSignals, fieldX_val, Nat.shiftRight_eq_div_pow]
  case y => simp [decoderSignals, fieldY_val, Nat.shiftRight_eq_div_pow]
  case n => simp [decoderSignals, fieldN_val]
  case kk => exact BitVec.eq_of_toNat_eq (by simp [decoderSignals, fieldKK_toNat])
  case nnn => exact BitVec.eq_of_toNat_eq (by simp [decoderSignals, fieldNNN_toNat])

/-- Settles O1: thirteen closed words, each decoded by computation. -/
theorem specWordsDecode : Obligations.SpecWordsDecode := by
  unfold Obligations.SpecWordsDecode
  decide

end Sys2Proof
end

section
/-! PROOF. Loads, ALU, skips, jumps, calls, returns and the index register (R130 to R142, R160 to R168, R180 to R182). The
instructions of a family end in one shared way, whose outcome is stated once; each instruction adds its arithmetic. -/

namespace Sys2Proof

open Sys2Proof.Machine Sys2Proof.Frame

/-! ## Loads (R132, R133) -/

/-- Settles O18: both are one register write and `next()`, of the sum and of the copy. -/
theorem addImmediateAndMove : Obligations.AddImmediateAndMove := by
  intro x y kk s
  refine ⟨?_, nextPc_setV_outcome x (s.V y) s⟩
  obtain ⟨t, hnext, hV, hrest⟩ := nextPc_setV_outcome x (s.V x + kk) s
  exact ⟨t, hnext, by rw [hV, BitVec.toNat_add], hrest⟩

/-! ## The two writes of an ALU operation (R130) -/

theorem V_writeWithFlag_flag (x : RegisterIndex) (r flag : Byte) (s : State) : (writeWithFlag x r flag s).V 15 = flag :=
  (V_writeWithFlag x r flag s 15).trans (if_pos rfl)

theorem V_writeWithFlag_result {x : RegisterIndex} (r flag : Byte) (s : State) (h : x ≠ 15) :
    (writeWithFlag x r flag s).V x = r :=
  (V_writeWithFlag x r flag s x).trans ((if_neg h).trans (if_pos rfl))

theorem V_writeWithFlag_other {x j : RegisterIndex} (r flag : Byte) (s : State) (hx : j ≠ x) (h15 : j ≠ 15) :
    (writeWithFlag x r flag s).V j = s.V j :=
  (V_writeWithFlag x r flag s j).trans ((if_neg h15).trans (if_neg hx))

/-- The result is in `V[x]` unless the flag, written last, replaced it there (D9). -/
theorem aluOp_outcome {result flag : Byte → Byte → Byte} {x y : RegisterIndex} {s : State} {r f : Nat}
    (hr : (result (s.V x) (s.V y)).toNat = r) (hf : (flag (s.V x) (s.V y)).toNat = f) :
    ∃ t, aluOp result flag x y s = .next t ∧ AluOutcome x r f s t := by
  refine ⟨_, nextPc_eq _, fun hx => ?value, ?flag, fun j hj => ?registers, ⟨rfl, rfl⟩, ?beyond⟩
  case value => rw [State.V_setResult, State.V_setPc, V_writeWithFlag_result _ _ _ hx, hr]
  case flag => rw [State.V_setResult, State.V_setPc, V_writeWithFlag_flag, hf]
  case registers =>
    rw [not_or] at hj
    rw [State.V_setResult, State.V_setPc, V_writeWithFlag_other _ _ _ hj.1 hj.2]
  case beyond =>
    simp [writeWithFlag, SameBeyondRegs, SameStack, SameMem, SameDevices, SameScreen, SameTimers, SameKeys, SameSched,
      SameRandom, SameHost]

theorem flagByte_toNat (b : Bool) : (flagByte b).toNat = if b = true then 1 else 0 := by cases b <;> rfl

theorem carryFlag_toNat (a b : Byte) : (carryFlag a b).toNat = if 256 ≤ a.toNat + b.toNat then 1 else 0 := by
  simp only [carryFlag, flagByte_toNat, decide_eq_true_eq]

theorem noBorrowFlag_toNat (a b : Byte) : (noBorrowFlag a b).toNat = if b.toNat ≤ a.toNat then 1 else 0 := by
  simp only [noBorrowFlag, flagByte_toNat, decide_eq_true_eq]

theorem shiftedOutRight_toNat (b : Byte) : (shiftedOutRight b).toNat = b.toNat % 2 := by
  rw [shiftedOutRight, flagByte_toNat, BitVec.getLsbD, Nat.testBit_zero]
  rcases Nat.mod_two_eq_zero_or_one b.toNat with h | h <;> simp [h]

theorem shiftedOutLeft_toNat (b : Byte) : (shiftedOutLeft b).toNat = b.toNat / 128 := by
  have hb := b.isLt
  rw [shiftedOutLeft, flagByte_toNat, BitVec.getLsbD, Nat.testBit_eq_decide_div_mod_eq]
  simp only [decide_eq_true_eq]
  split <;> omega

theorem sub_toNat (a b : Byte) : (a - b).toNat = (a.toNat + 256 - b.toNat) % 256 := by
  have hb := b.isLt
  rw [BitVec.toNat_sub]
  omega

theorem shiftRight_one_toNat (b : Byte) : (b >>> 1).toNat = b.toNat / 2 := by
  rw [BitVec.toNat_ushiftRight, Nat.shiftRight_eq_div_pow]

theorem shiftLeft_one_toNat (b : Byte) : (b <<< 1).toNat = b.toNat * 2 % 256 := by
  rw [BitVec.toNat_shiftLeft, Nat.shiftLeft_eq]

/-- Settles O19: the three operations share the flag 0. -/
theorem bitwiseOpsClearFlag : Obligations.BitwiseOpsClearFlag := by
  intro x y s
  simp only [exec, execOrReg, execAndReg, execXorReg]
  exact ⟨aluOp_outcome (BitVec.toNat_or ..) rfl, aluOp_outcome (BitVec.toNat_and ..) rfl,
    aluOp_outcome (BitVec.toNat_xor ..) rfl⟩

/-- Settles O20: the word is the instruction's own, and the flag is the carry of the sum. -/
theorem addSetsCarry : Obligations.AddSetsCarry := by
  intro x y s
  refine ⟨encodes (.addReg x y), ?_⟩
  simp only [exec, execAddReg]
  exact aluOp_outcome (BitVec.toNat_add ..) (carryFlag_toNat ..)

/-- Settles O21: `SUBN` is `SUB` with the operands exchanged, in the difference and in the flag. -/
theorem subtractSetsNoBorrow : Obligations.SubtractSetsNoBorrow := by
  intro x y s
  simp only [exec, execSub, execSubn]
  exact ⟨aluOp_outcome (sub_toNat ..) (noBorrowFlag_toNat ..), aluOp_outcome (sub_toNat ..) (noBorrowFlag_toNat ..)⟩

/-- Settles O22: the value and the flag are both taken from `V[y]` as it was. -/
theorem shiftsReadTheSource : Obligations.ShiftsReadTheSource := by
  intro x y s
  simp only [exec, execShr, execShl]
  exact ⟨aluOp_outcome (shiftRight_one_toNat _) (shiftedOutRight_toNat _),
    aluOp_outcome (shiftLeft_one_toNat _) (shiftedOutLeft_toNat _)⟩

/-! ## Skips and jumps -/

/-- A jump after no update: the pc is the target, and nothing else but the result changes. -/
theorem jumpTo_outcome (p : Word16) (s : State) :
    ∃ t, jumpTo p s = .next t ∧ t.pc = p ∧ t.result = .ok ∧ SameRegs s t ∧ SameBeyondRegs s t := by
  refine ⟨_, jumpTo_eq p s, rfl, rfl, fun _ => rfl, ?_⟩
  simp [SameBeyondRegs, SameStack, SameMem, SameDevices, SameScreen, SameTimers, SameKeys, SameSched, SameRandom,
    SameHost]

theorem skipIf_eq_jumpTo (b : Bool) (s : State) :
    skipIf b s = jumpTo (if b = true then s.pc + 4#16 else s.pc + 2#16) s := by
  cases b <;> rfl

theorem skipIf_outcome {b : Bool} {c : Prop} (s : State) (h : b = true ↔ c) :
    ∃ t, skipIf b s = .next t ∧ SkipOutcome c s t := by
  obtain ⟨t, hnext, hpc, hok, hregs, hbeyond⟩ := jumpTo_outcome (if b = true then s.pc + 4#16 else s.pc + 2#16) s
  refine ⟨t, (skipIf_eq_jumpTo b s).trans hnext, fun hc => ?_, fun hc => ?_, hok, hregs, hbeyond⟩
  · rw [hpc, if_pos (h.mpr hc)]
  · rw [hpc, if_neg (fun hb => hc (h.mp hb))]

/-- Settles O23: each skip tests its condition as a Boolean. -/
theorem skipsOnRegisters : Obligations.SkipsOnRegisters := fun _ _ _ s =>
  ⟨skipIf_outcome s beq_iff_eq, skipIf_outcome s bne_iff_ne, skipIf_outcome s beq_iff_eq, skipIf_outcome s bne_iff_ne⟩

/-- Settles O24: both are a jump, to targets whose 16-bit sums do not overflow. -/
theorem jumpsSetPc : Obligations.JumpsSetPc := by
  intro nnn s
  obtain ⟨t, hnext, hpc, hrest⟩ := jumpTo_outcome (targetPc nnn) s
  obtain ⟨t', hnext', hpc', hrest'⟩ := jumpTo_outcome (offsetTargetPc nnn s) s
  exact ⟨⟨t, hnext, by rw [hpc, targetPc_toNat], hrest⟩, ⟨t', hnext', by rw [hpc', offsetTargetPc_toNat]; rfl, hrest'⟩⟩

/-! ## Calls and returns -/

/-- A jump after an update of the call stack: nothing but the stack, the pc and the result changes. -/
theorem jumpTo_setStack_frame (p : Word16) (stack : Vector Word16 16) (sp : Fin 17) (s : State) :
    let t := ((s.setStack stack sp).setPc p).setResult .ok
    SameRegs s t ∧ t.idx = s.idx ∧ SameMem s t ∧ SameDevices s t := by
  simp [SameRegs, SameMem, SameDevices, SameScreen, SameTimers, SameKeys, SameSched, SameRandom, SameHost]

/-- Settles O25: with room the call stack is the old one with the return address at `sp`. -/
theorem callPushesReturnAddress : Obligations.CallPushesReturnAddress := by
  intro nnn s
  refine ⟨fun hroom => ?_, execCall_full nnn s⟩
  refine ⟨_, execCall_room nnn s hroom, targetPc_toNat nnn, rfl, rfl, fun j => ?_, jumpTo_setStack_frame ..⟩
  simp [Vector.getElem_set, returnPc, eq_comm]

/-- Settles O26: with an entry in use the pc is the top of the call stack. -/
theorem returnPopsReturnAddress : Obligations.ReturnPopsReturnAddress := fun s =>
  ⟨fun h => ⟨_, execRet_some s (by omega), rfl, rfl, rfl, rfl, jumpTo_setStack_frame ..⟩, execRet_empty s⟩

/-- Settles O27: the call wrote the return address at the old `sp`, and that is the entry the return pops. -/
theorem returnComesBackAfterCall : Obligations.ReturnComesBackAfterCall := by
  intro nnn s t u h hok hsp hstack
  have hroom : s.sp.val ≠ 16 := fun hfull => not_errs_of_ok h hok ⟨hfull, rfl⟩
  have hlt : s.sp.val < 16 := by omega
  rw [exec, execCall_room nnn s hlt] at h
  cases h
  have husp : u.sp.val = s.sp.val + 1 := congrArg Fin.val hsp
  refine ⟨_, execRet_some u (by omega), ?_, Fin.ext ?_, rfl⟩
  · simp [hstack, husp, returnPc]
  · simp [husp]

/-! ## The index register -/

/-- A write of the index register and `next()`. -/
theorem nextPc_setIdx_outcome (a : Address) (s : State) :
    ∃ t, nextPc (s.setIdx a) = .next t ∧ IndexOutcome a.toNat s t := by
  refine ⟨_, nextPc_eq _, rfl, ⟨rfl, rfl⟩, ?_⟩
  simp [SameRegs, SameStack, SameMem, SameDevices, SameScreen, SameTimers, SameKeys, SameSched, SameRandom, SameHost]

theorem nextPc_setIdx_ofNat_outcome {v : Nat} (h : v ≤ 4095) (s : State) :
    ∃ t, nextPc (s.setIdx (BitVec.ofNat 12 v)) = .next t ∧ IndexOutcome v s t := by
  have hv : (BitVec.ofNat 12 v).toNat = v := by rw [BitVec.toNat_ofNat]; omega
  simpa only [hv] using nextPc_setIdx_outcome (BitVec.ofNat 12 v) s

theorem glyphAddr_le (x : RegisterIndex) (s : State) : glyphAddr s x ≤ 4095 := by
  simp only [glyphAddr, Config.fontStride]
  omega

/-- Settles O28: neither value can exceed 4095. -/
theorem indexLoads : Obligations.IndexLoads := by
  intro nnn x s
  simp only [exec, execLdI_eq, execLdF_eq]
  exact ⟨nextPc_setIdx_outcome nnn s, nextPc_setIdx_ofNat_outcome (glyphAddr_le x s) s⟩

/-- Settles O29: the sum is stored when it is an address. -/
theorem addToIndex : Obligations.AddToIndex := by
  refine fun x s => ⟨fun hle => ?_, fun hlt => execAddI_outside x s (Nat.not_le.mpr hlt)⟩
  rw [exec, execAddI_inside x s hle]
  exact nextPc_setIdx_ofNat_outcome hle s

end Sys2Proof
end

section
/-! PROOF. Memory and the block instructions (R60 to R73, R183 to R186). A block store leaves the stored bytes in their
places and every other byte alone; a fetch and a load read them there. -/

namespace Sys2Proof

open Sys2Proof.Machine Sys2Proof.Frame

/-! ## Single bytes -/

/-- Settles O45: the last clause holds because canonical memories that read alike are the same list. -/
theorem readsReturnTheLastWrite : Obligations.ReadsReturnTheLastWrite := by
  intro a v s ha
  refine ⟨_, memWrite_inside v s ha, ?same, ?other, rfl, ?rewrite⟩
  case same => rw [memRead_inside _ ha, State.byteAt_setMem, Memory.read_write_same]
  case other =>
    intro b hb
    rw [memRead, memRead, State.byteAt_setMem, Memory.read_write_other s.mem v (Ne.symm hb), State.byteAt]
  case rewrite =>
    intro hwf hread
    rw [memRead_inside s ha] at hread
    have hv : Memory.read s.mem a = v := Except.ok.inj hread
    have hmem : Memory.write s.mem a v = s.mem :=
      Memory.eq_of_read _ _ (Memory.write_wf _ _ _ ha hwf) hwf fun b => by
        rw [Memory.read_write]
        split
        next hab => rw [← hab, hv]
        next => rfl
    rw [hmem, State.setMem]

/-! ## Blocks of bytes -/

theorem byteAt_writeList_inside (s : State) {a j : Nat} {vs : List Byte} (hj : j < vs.length) :
    (s.setMem (Memory.writeList s.mem a vs)).byteAt (a + j) = vs.getD j 0#8 := by
  rw [State.byteAt_setMem, Memory.read_writeList, if_pos (by omega), Nat.add_sub_cancel_left]

theorem sameMemOutside_writeList (s : State) (a : Nat) (vs : List Byte) :
    SameMemOutside a vs.length s (s.setMem (Memory.writeList s.mem a vs)) := by
  intro b hb
  rw [State.byteAt_setMem, Memory.read_writeList, if_neg (by omega), State.byteAt]

theorem bcdDigits_toNat (v : Byte) :
    ((bcdDigits v).getD 0 0#8).toNat = v.toNat / 100 ∧ ((bcdDigits v).getD 1 0#8).toNat = v.toNat / 10 % 10 ∧
      ((bcdDigits v).getD 2 0#8).toNat = v.toNat % 10 := by
  have hv := v.isLt
  simp only [bcdDigits, List.getD_cons_zero, List.getD_cons_succ, BitVec.toNat_ofNat]
  omega

/-- Settles O30: the three digits are a block of three bytes. -/
theorem storeBcd : Obligations.StoreBcd := by
  refine fun x s => ⟨fun hle => ?_, fun hlt => execLdB_outside x s (Nat.not_le.mpr hlt)⟩
  obtain ⟨h0, h1, h2⟩ := bcdDigits_toNat (s.V x)
  have hstored : ∀ j < 3, (s.setMem (Memory.writeList s.mem (indexAddr s 0) (bcdDigits (s.V x)))).byteAt (indexAddr s j) =
      (bcdDigits (s.V x)).getD j 0#8 := fun j hj => byteAt_writeList_inside s hj
  refine ⟨_, execLdB_inside x s hle, ?d0, ?d1, ?d2, ?outside, ⟨rfl, rfl⟩, ?frame⟩
  case d0 => rw [State.byteAt_setResult, State.byteAt_setPc, hstored 0 (by decide), h0]
  case d1 => rw [State.byteAt_setResult, State.byteAt_setPc, hstored 1 (by decide), h1]
  case d2 => rw [State.byteAt_setResult, State.byteAt_setPc, hstored 2 (by decide), h2]
  case outside => exact sameMemOutside_writeList s (indexAddr s 0) (bcdDigits (s.V x))
  case frame =>
    simp [SameRegs, SameStack, SameDevices, SameScreen, SameTimers, SameKeys, SameSched, SameRandom, SameHost]

/-! ## Blocks of registers -/

/-- The state after `LD [I],Vx` (R184). -/
def stored (x : RegisterIndex) (s : State) : State :=
  (((s.setMem (Memory.writeList s.mem (indexAddr s 0) (regsThrough x s))).setIdx
    (BitVec.ofNat 12 (indexAfterBlock s x))).setPc (s.pc + 2#16)).setResult .ok

theorem exec_storeRegs {x : RegisterIndex} {s : State} (h : indexAfterBlock s x ≤ 4095) :
    exec (.storeRegs x) s = .next (stored x s) := execStoreRegs_inside x s h

theorem byteAt_stored {x r : RegisterIndex} (s : State) (h : r ≤ x) :
    (stored x s).byteAt (indexAddr s r.val) = s.V r := by
  have hr : r.val < (regsThrough x s).length := by
    have hle : r.val ≤ x.val := h
    rw [regsThrough_length]
    omega
  exact (byteAt_writeList_inside s hr).trans (regsThrough_getD x r s h)

theorem indexAfterBlock_toNat {x : RegisterIndex} {s : State} (h : indexAfterBlock s x ≤ 4095) :
    (BitVec.ofNat 12 (indexAfterBlock s x)).toNat = indexAfterBlock s x := by
  rw [BitVec.toNat_ofNat]
  omega

/-- Settles O31: the registers through `V[x]` are a block of `x + 1` bytes. -/
theorem storeRegisterBlock : Obligations.StoreRegisterBlock := by
  refine fun x s => ⟨fun hle => ?_, fun hlt => execStoreRegs_outside x s (Nat.not_le.mpr hlt)⟩
  refine ⟨_, exec_storeRegs hle, fun r => byteAt_stored s, ?outside, indexAfterBlock_toNat hle, ⟨rfl, rfl⟩, ?frame⟩
  case outside =>
    have h := sameMemOutside_writeList s (indexAddr s 0) (regsThrough x s)
    rwa [regsThrough_length] at h
  case frame =>
    simp [stored, SameRegs, SameStack, SameDevices, SameScreen, SameTimers, SameKeys, SameSched, SameRandom, SameHost]

/-- Settles O15: the two bytes that the fetch joins are the two registers stored there. -/
theorem storedBytesAreFetched : Obligations.StoredBytesAreFetched := by
  intro s x hle
  refine ⟨_, exec_storeRegs hle, fun i j hij hjx => ?_⟩
  have hj : j.val ≤ x.val := hjx
  have hi : i ≤ x := Fin.le_def.mpr (by omega)
  have hpc : (BitVec.ofNat 16 (s.idx.toNat + i.val)).toNat = indexAddr s i.val := by
    rw [BitVec.toNat_ofNat, indexAddr]
    omega
  have hnext : indexAddr s i.val + 1 = indexAddr s j.val := by simp only [indexAddr]; omega
  have hin : indexAddr s i.val ≤ 4094 := by simp only [indexAddr]; omega
  rw [fetch_inside _ (by rw [State.setPc_pc, hpc]; exact hin), State.setPc_pc, hpc, hnext, State.byteAt_setPc,
    State.byteAt_setPc, byteAt_stored s hi, byteAt_stored s hjx]

theorem bytesFrom_length (s : State) (a n : Nat) : (bytesFrom s a n).length = n := by simp [bytesFrom]

theorem bytesFrom_getD (s : State) {a n j : Nat} (h : j < n) : (bytesFrom s a n).getD j 0#8 = s.byteAt (a + j) := by
  simp [bytesFrom, h]

theorem V_setRegsFrom_bytes {r : RegisterIndex} {n : Nat} (a : Nat) (s : State) :
    (setRegsFrom 0 (bytesFrom s a n) s).V r = if r.val < n then s.byteAt (a + r.val) else s.V r := by
  rw [V_setRegsFrom, bytesFrom_length, Nat.zero_add, Nat.sub_zero]
  by_cases hr : r.val < n
  · rw [if_pos ⟨Nat.zero_le _, hr⟩, if_pos hr, bytesFrom_getD s hr]
  · rw [if_neg (fun h => hr h.2), if_neg hr]

/-- Settles O32: the loaded bytes go to the registers below `x + 1`, and registers are all that the load writes. -/
theorem loadRegisterBlock : Obligations.LoadRegisterBlock := by
  refine fun x s => ⟨fun hle => ?_, fun hlt => execLoadRegs_outside x s (Nat.not_le.mpr hlt)⟩
  have hV := fun r => V_setRegsFrom_bytes (r := r) (n := x.val + 1) (indexAddr s 0) s
  obtain ⟨regs, hregs⟩ := setRegsFrom_eq (bytesFrom s (indexAddr s 0) (x.val + 1)) 0 s
  have hexec : exec (.loadRegs x) s = nextPc ((setRegsFrom 0 (bytesFrom s (indexAddr s 0) (x.val + 1)) s).setIdx
      (BitVec.ofNat 12 (indexAfterBlock s x))) := execLoadRegs_inside x s hle
  refine ⟨_, hexec, fun r hr => ?loaded, fun r hr => ?kept, indexAfterBlock_toNat hle, ?frame⟩
  case loaded => exact (hV r).trans (if_pos (Nat.lt_succ_of_le hr))
  case kept => exact (hV r).trans (if_neg fun h => hr (Nat.le_of_lt_succ h))
  case frame =>
    simp [hregs, EndsAt, SameStack, SameMem, State.byteAt, SameDevices, SameScreen, SameTimers, SameKeys, SameSched,
      SameRandom, SameHost]

/-! ## The memory of an image (R69) -/

theorem font_toList_getD (font : Font) (a : Nat) : font.toList.getD a 0#8 = if h : a < 80 then font[a] else 0#8 := by
  by_cases h : a < 80
  · simp [h]
  · simp [h]

theorem unlisted_of_le {a : Nat} (h : 80 ≤ a) : Memory.unlisted a = 0#8 :=
  List.getD_eq_default _ _ h

/-- Settles O58: the payload is written last; where it does not reach, the memory reads as the font, and as zero behind
it. -/
theorem imageMemoryIsPayloadOverFont : Obligations.ImageMemoryIsPayloadOverFont := by
  refine ⟨fun font entry payload hfit => ⟨?wf, fun j hj => ?payload, fun a ha => ?font⟩, (imageMemory_default _).symm⟩
  case wf =>
    exact Memory.writeList_wf _ _ _ hfit (Memory.writeList_wf _ _ _ (by simp [Config.memSize]) rfl)
  case payload =>
    rw [imageMemory, Memory.read_writeList, if_pos (by omega), Nat.add_sub_cancel_left]
  case font =>
    rw [imageMemory, Memory.read_writeList, if_neg (by omega), Memory.read_writeList, Vector.length_toList]
    by_cases h : a < 80
    · rw [if_pos (by omega), Nat.sub_zero, font_toList_getD]
    · rw [if_neg (by omega), dif_neg h]
      exact unlisted_of_le (Nat.le_of_not_lt h)

end Sys2Proof
end

section
/-! PROOF. Display, keypad, timers and random (R200 to R208, R282). A draw flips the targeted pixels, which are the 1 bits
of the sprite that lie on the screen; the rest of each instruction is one write and `next()`. -/

namespace Sys2Proof

open Sys2Proof.Machine Sys2Proof.Frame

/-! ## A draw, pixel by pixel -/

/-- The targeted pixels are the 1 bits of the sprite that lie on the screen (R282). -/
theorem targeted_iff (pr : Params) (px py : Byte) (rows : List Byte) (p : Pixel) :
    Targeted pr px py rows p ↔
      (p, true) ∈ Cap.spritePixels (px.toNat % pr.screenW) (py.toNat % pr.screenH) rows ∧
        p.px < pr.screenW ∧ p.py < pr.screenH := by
  rw [Cap.mem_spritePixels, Targeted]
  tauto

theorem xor_decide_eq_true_iff (a : Bool) (P : Prop) [Decidable P] : (a ^^ decide P) = true ↔ ¬ (a = true ↔ P) := by
  cases a <;> simp

theorem isOn_draw (px py : Byte) (rows : List Byte) (s : State) (p : Pixel) :
    FrameBuffer.isOn (Cap.draw px py rows s).2.fb p = true ↔
      ¬ (FrameBuffer.isOn s.fb p = true ↔ Targeted s.params px py rows p) := by
  have hspec := (Cap.drawRows_spec s.params.screenW s.params.screenH (px.toNat % s.params.screenW)
    (py.toNat % s.params.screenH) rows (false, s.fb)).1 p
  rw [targeted_iff, Cap.draw, State.setFb_fb, hspec, xor_decide_eq_true_iff]

theorem collision_draw (px py : Byte) (rows : List Byte) (s : State) :
    (Cap.draw px py rows s).1 = true ↔
      ∃ p, Targeted s.params px py rows p ∧ FrameBuffer.isOn s.fb p = true := by
  have hspec := (Cap.drawRows_spec s.params.screenW s.params.screenH (px.toNat % s.params.screenW)
    (py.toNat % s.params.screenH) rows (false, s.fb)).2
  rw [Cap.draw, hspec]
  simp only [targeted_iff, Bool.false_eq_true, false_or, and_assoc]

/-- Settles O35: the second draw targets the same pixels, so it flips them back; on a clear screen the first draw turned on
exactly these. -/
theorem drawTwiceRestores : Obligations.DrawTwiceRestores := by
  intro px py rows s first second
  have hfirst : ∀ p, FrameBuffer.isOn first.2.fb p = true ↔
      ¬ (FrameBuffer.isOn s.fb p = true ↔ Targeted s.params px py rows p) := isOn_draw px py rows s
  have hsecond : ∀ p, FrameBuffer.isOn second.2.fb p = true ↔
      ¬ (FrameBuffer.isOn first.2.fb p = true ↔ Targeted s.params px py rows p) := isOn_draw px py rows first.2
  refine ⟨fun p => ?restores, fun hclear => ⟨?noCollision, ?collision⟩⟩
  case restores =>
    rw [Bool.eq_iff_iff, hsecond, hfirst]
    tauto
  case noCollision =>
    rw [← Bool.not_eq_true, collision_draw, hclear]
    simp
  case collision =>
    have hon : ∀ p, FrameBuffer.isOn first.2.fb p = true ↔ Targeted s.params px py rows p := fun p => by
      rw [hfirst, hclear, isOn_nil]
      tauto
    have hcollision : second.1 = true ↔ ∃ p, Targeted s.params px py rows p ∧ FrameBuffer.isOn first.2.fb p = true :=
      collision_draw px py rows first.2
    simp only [hcollision, hon, and_self]

theorem collisionFlag_of {c : Bool} {P : Prop} (h : c = true ↔ P) :
    (P → collisionFlag c = 1#8) ∧ (¬ P → collisionFlag c = 0#8) := by
  rw [← h]
  cases c <;> decide

/-- Settles O34: the flag is the collision bit of the draw, and the flag and the frame buffer are all that is written. -/
theorem drawSprite : Obligations.DrawSprite := by
  refine fun x y n s => ⟨fun hin => ?_, fun h1 hlt => execDrw_outside x y n s (by omega)⟩
  obtain ⟨hset, hclear⟩ :=
    collisionFlag_of (collision_draw (s.V x) (s.V y) (bytesFrom s (indexAddr s 0) n.val) s)
  refine ⟨_, execDrw_inside x y n s hin, isOn_draw _ _ _ s, fun h => ?set, fun h => ?clear, fun r hr => ?kept,
    ⟨rfl, rfl⟩, ?frame⟩
  case set => exact (State.V_setV_same _ _ _).trans (hset h)
  case clear => exact (State.V_setV_same _ _ _).trans (hclear h)
  case kept => exact State.V_setV_other _ _ (Ne.symm hr)
  case frame =>
    simp [Cap.draw, SameStack, SameMem, SameTimers, SameKeys, SameSched, SameRandom, SameHost]

/-! ## Keypad -/

/-- Settles O36: a value below 16 is the key it names; `SKNP` skips on the opposite state. -/
theorem keySkips : Obligations.KeySkips := by
  refine fun x s => ⟨fun k hk => ?key, fun hlt => ⟨execSkp_other x s (by omega), execSknp_other x s (by omega)⟩⟩
  have hlt : (s.V x).toNat < 16 := by omega
  simp only [exec, execSkp_key x s hlt, execSknp_key x s hlt, hk]
  exact ⟨skipIf_outcome s Iff.rfl, skipIf_outcome s (iff_of_eq (Bool.not_eq_true' _))⟩

theorem key_byte_toNat (k : KeyIndex) : (BitVec.ofNat 8 k.val).toNat = k.val := by
  rw [BitVec.toNat_ofNat]
  omega

/-- Settles O37: the key found by the scan is the highest one that is down, so it is any other such key. -/
theorem waitForKeyTakesHighest : Obligations.WaitForKeyTakesHighest := by
  refine fun x s => ⟨exec_ldVxK_of_no_key, fun k hk hmax => ?_⟩
  obtain ⟨hnone, -⟩ | ⟨j, hj, hjmax, hexec⟩ := execLdVxK_cases x s
  · rw [hnone k] at hk
    cases hk
  · obtain rfl : j = k := le_antisymm (hmax j hj) (hjmax k hk)
    obtain ⟨t, hnext, hV, hrest⟩ := nextPc_setV_outcome x (BitVec.ofNat 8 j.val) s
    exact ⟨t, hexec.trans hnext, by rw [hV, key_byte_toNat], hrest⟩

/-! ## Timers and random -/

/-- Settles O38: each instruction is one write, of a register or of a timer, and `next()`. -/
theorem timerAccess : Obligations.TimerAccess := by
  refine fun x s => ⟨nextPc_setV_outcome x s.dt s, ⟨_, nextPc_eq _, rfl, rfl, ⟨rfl, rfl⟩, ?delay⟩,
    ⟨_, nextPc_eq _, rfl, rfl, ⟨rfl, rfl⟩, ?sound⟩⟩
  case delay =>
    simp [setDelay_eq_setDT, SameRegs, SameStack, SameMem, SameScreen, SameKeys, SameSched, SameRandom, SameHost]
  case sound =>
    simp [setSound_eq_setST, SameRegs, SameStack, SameMem, SameScreen, SameKeys, SameSched, SameRandom, SameHost]

/-- A draw of the random source takes the first byte of the tape off, where there is one, and counts the draw (R288). -/
theorem random_spec (s : State) : ∃ tape, (Cap.random s).2 = s.setRandom tape (s.randomDraws + 1) ∧
    (∀ r rest, s.randomTape = r :: rest → (Cap.random s).1 = r ∧ tape = rest) ∧ (s.randomTape = [] → tape = []) := by
  cases htape : s.randomTape with
  | nil => exact ⟨[], by rw [Cap.random_free s htape], by simp, fun _ => rfl⟩
  | cons r rest =>
    rw [Cap.random_tape s r rest htape]
    exact ⟨rest, rfl, fun r' rest' h => List.cons.inj h, by simp⟩

/-- Settles O39: the byte is the one the source answers, and the register and the source are all that is written. -/
theorem randomIsMasked : Obligations.RandomIsMasked := by
  intro x kk s
  obtain ⟨tape, hsource, htape, hfree⟩ := random_spec s
  have hexec : exec (.rnd x kk) s =
      nextPc ((s.setRandom tape (s.randomDraws + 1)).setV x ((Cap.random s).1 &&& kk)) := by rw [← hsource]; rfl
  refine ⟨(Cap.random s).1, _, hexec, State.V_setV_same _ _ _, fun r rest h => ?tape, hfree, rfl, fun r hr => ?kept,
    ⟨rfl, rfl⟩, ?frame⟩
  case tape => exact htape r rest h
  case kept => exact State.V_setV_other _ _ (Ne.symm hr)
  case frame => simp [SameStack, SameMem, SameScreen, SameTimers, SameKeys, SameSched, SameHost]

end Sys2Proof
end

section
/-! PROOF. All instructions at once (R14, R22, R310, R318). An instruction faults, or ends in an error, or completes; when it
completes it has made the writes of `effect` and set the pc of the table of R24. The promises over all instructions are read
off these three cases. -/

namespace Sys2Proof

open Sys2Proof.Machine Sys2Proof.Frame

/-! ## The three cases -/

/-- The address that the fault of an instruction carries (log 9). -/
def faultAddress : Instr → State → Nat
  | .addI x, s => indexPlusReg s x
  | _, _ => 4096

/-- The writes of an instruction that completes, the pc apart. -/
def effect : Instr → State → State
  | .cls, s => s.setFb []
  | .call _, s => (pushReturn (returnPc s) s).getD s
  | .ret, s => ((popReturn s).map Prod.snd).getD s
  | .ldImm x kk, s => s.setV x kk
  | .addImm x kk, s => s.setV x (s.V x + kk)
  | .ldReg x y, s => s.setV x (s.V y)
  | .orReg x y, s => writeWithFlag x (s.V x ||| s.V y) logicFlag s
  | .andReg x y, s => writeWithFlag x (s.V x &&& s.V y) logicFlag s
  | .xorReg x y, s => writeWithFlag x (s.V x ^^^ s.V y) logicFlag s
  | .addReg x y, s => writeWithFlag x (s.V x + s.V y) (carryFlag (s.V x) (s.V y)) s
  | .sub x y, s => writeWithFlag x (s.V x - s.V y) (noBorrowFlag (s.V x) (s.V y)) s
  | .shr x y, s => writeWithFlag x (s.V y >>> 1) (shiftedOutRight (s.V y)) s
  | .subn x y, s => writeWithFlag x (s.V y - s.V x) (noBorrowFlag (s.V y) (s.V x)) s
  | .shl x y, s => writeWithFlag x (s.V y <<< 1) (shiftedOutLeft (s.V y)) s
  | .ldI nnn, s => s.setIdx nnn
  | .rnd x kk, s => (Cap.random s).2.setV x ((Cap.random s).1 &&& kk)
  | .drw x y n, s =>
    let r := Cap.draw (s.V x) (s.V y) (bytesFrom s (indexAddr s 0) n.val) s
    r.2.setV flagReg (collisionFlag r.1)
  | .ldVxDT x, s => s.setV x s.dt
  | .ldVxK x, s => ((scanKeys s).map fun k => s.setV x (BitVec.ofNat 8 k.val)).getD s
  | .ldDTVx x, s => s.setDT (s.V x)
  | .ldSTVx x, s => s.setST (s.V x)
  | .addI x, s => s.setIdx (BitVec.ofNat 12 (indexPlusReg s x))
  | .ldF x, s => s.setIdx (BitVec.ofNat 12 (glyphAddr s x))
  | .ldB x, s => s.setMem (Memory.writeList s.mem (indexAddr s 0) (bcdDigits (s.V x)))
  | .storeRegs x, s =>
    (s.setMem (Memory.writeList s.mem (indexAddr s 0) (regsThrough x s))).setIdx (BitVec.ofNat 12 (indexAfterBlock s x))
  | .loadRegs x, s =>
    (setRegsFrom 0 (bytesFrom s (indexAddr s 0) (x.val + 1)) s).setIdx (BitVec.ofNat 12 (indexAfterBlock s x))
  | .jp _, s | .seImm _ _, s | .sneImm _ _, s | .seReg _ _, s | .sneReg _ _, s | .jpV0 _, s | .skp _, s | .sknp _, s => s

theorem exec_of_faults {i : Instr} {s : State} (h : Faults i s) :
    exec i s = .fault (.addressRange (faultAddress i s)) := by
  cases i
  case addI x => exact execAddI_outside x s (Nat.not_le.mpr h)
  case ldB x => exact execLdB_outside x s (Nat.not_le.mpr h)
  case storeRegs x => exact execStoreRegs_outside x s (Nat.not_le.mpr h)
  case loadRegs x => exact execLoadRegs_outside x s (Nat.not_le.mpr h)
  case drw x y n =>
    obtain ⟨hn, hlt⟩ := h
    exact execDrw_outside x y n s (by omega)
  all_goals exact h.elim

theorem exec_of_completes {i : Instr} {s : State} (hf : ¬ Faults i s) (he : ∀ e, ¬ Errs i s e) :
    exec i s = jumpTo (pcAfter i s) (effect i s) := by
  cases i
  case addI x => exact execAddI_inside x s (Nat.not_lt.mp hf)
  case ldB x => exact execLdB_inside x s (Nat.not_lt.mp hf)
  case storeRegs x => exact execStoreRegs_inside x s (Nat.not_lt.mp hf)
  case loadRegs x =>
    obtain ⟨regs, hregs⟩ := setRegsFrom_eq (bytesFrom s (indexAddr s 0) (x.val + 1)) 0 s
    refine (execLoadRegs_inside x s (Nat.not_lt.mp hf)).trans ?_
    rw [← bytesFrom, effect, hregs]
    rfl
  case drw x y n =>
    have hin : n.val = 0 ∨ s.idx.toNat + n.val - 1 ≤ 4095 := by
      by_contra hout
      exact hf ⟨by omega, by omega⟩
    exact execDrw_inside x y n s hin
  case ldI nnn => exact execLdI_eq nnn s
  case ldF x => exact execLdF_eq x s
  case call nnn =>
    have hroom : s.sp.val ≠ 16 := fun h => he _ ⟨h, rfl⟩
    rw [exec, execCall_room nnn s (by omega), effect, pushReturn_room _ s (by omega), Option.getD_some, pcAfter,
      if_neg hroom, targetPc]
  case ret =>
    have hsome : s.sp.val ≠ 0 := fun h => he _ ⟨h, rfl⟩
    rw [exec, execRet_some s hsome, effect, popReturn_some s hsome, Option.map_some, Option.getD_some, pcAfter,
      dif_neg hsome]
  case skp x =>
    have hkey : (s.V x).toNat < 16 := by
      by_contra h
      exact he _ ⟨by omega, rfl⟩
    rw [exec, execSkp_key x s hkey, skipIf_eq_jumpTo, pcAfter, dif_pos hkey, effect]
  case sknp x =>
    have hkey : (s.V x).toNat < 16 := by
      by_contra h
      exact he _ ⟨by omega, rfl⟩
    rw [exec, execSknp_key x s hkey, skipIf_eq_jumpTo, pcAfter, dif_pos hkey, effect]
    cases s.keys[(s.V x).toNat] <;> rfl
  case seImm | sneImm | seReg | sneReg =>
    simp only [exec, execSeImm, execSneImm, execSeReg, execSneReg, skipIf_eq_jumpTo, beq_iff_eq, bne_iff_ne]
    rfl
  case ldVxK x =>
    obtain ⟨hscan, hall⟩ | ⟨k, hscan, hk, -⟩ := scanKeys_cases s
    · have hnone : ¬ ∃ k : KeyIndex, s.keys[k.val] = true := by
        rintro ⟨k, hk⟩
        exact absurd hk (Bool.not_eq_true _ ▸ hall k)
      simp only [exec, execLdVxK, effect, hscan, pcAfter, if_neg hnone]
      rfl
    · have hdown : ∃ k : KeyIndex, s.keys[k.val] = true := ⟨k, hk⟩
      simp only [exec, execLdVxK, effect, hscan, pcAfter, if_pos hdown]
      rfl
  case rnd x kk =>
    cases htape : s.randomTape with
    | nil => simp only [exec, execRnd, effect, Cap.random_free s htape]; rfl
    | cons r rest => simp only [exec, execRnd, effect, Cap.random_tape s r rest htape]; rfl
  all_goals rfl

theorem exec_cases (i : Instr) (s : State) :
    (Faults i s ∧ exec i s = .fault (.addressRange (faultAddress i s))) ∨
    (∃ e, Errs i s e ∧ exec i s = raiseError e s) ∨
    (¬ Faults i s ∧ (∀ e, ¬ Errs i s e) ∧ exec i s = jumpTo (pcAfter i s) (effect i s)) := by
  by_cases hf : Faults i s
  · exact .inl ⟨hf, exec_of_faults hf⟩
  by_cases he : ∃ e, Errs i s e
  · obtain ⟨e, he⟩ := he
    exact .inr (.inl ⟨e, he, exec_of_errs he⟩)
  · exact .inr (.inr ⟨hf, not_exists.mp he, exec_of_completes hf (not_exists.mp he)⟩)

/-- An instruction that goes on: an error it raised, or its writes and its pc. -/
theorem exec_next {i : Instr} {s t : State} (h : exec i s = .next t) :
    (∃ e, Errs i s e ∧ t = s.setResult (.error e)) ∨
    (¬ Faults i s ∧ (∀ e, ¬ Errs i s e) ∧ t = ((effect i s).setPc (pcAfter i s)).setResult .ok) := by
  obtain ⟨-, hx⟩ | ⟨e, he, hx⟩ | ⟨hf, he, hx⟩ := exec_cases i s
  · rw [hx] at h
    cases h
  · rw [hx] at h
    cases h
    exact .inl ⟨e, he, rfl⟩
  · rw [hx] at h
    cases h
    exact .inr ⟨hf, he, rfl⟩

/-! ## Errors and faults -/

/-- Settles O10: an error is raised in the cases of the table, and neither of the other two cases is a refusal. -/
theorem errorsAreExactlyTheTable : Obligations.ErrorsAreExactlyTheTable := by
  refine fun i s => ⟨fun e => ⟨?_, fun he => ⟨_, exec_of_errs he, rfl⟩⟩, fun r => ?_⟩
  · rintro ⟨t, h, hres⟩
    obtain ⟨e', he', rfl⟩ | ⟨-, -, rfl⟩ := exec_next h
    · cases hres
      exact he'
    · cases hres
  · obtain ⟨-, hx⟩ | ⟨e, -, hx⟩ | ⟨-, -, hx⟩ := exec_cases i s <;> rw [hx] <;> nofun

/-- Settles O11: an instruction that completes returns `ok`, so the error was raised on the state as it was. -/
theorem errorsLeaveStateUnchanged : Obligations.ErrorsLeaveStateUnchanged := by
  intro i s t e h hres
  obtain ⟨e', -, rfl⟩ | ⟨-, -, rfl⟩ := exec_next h
  · cases hres
    rfl
  · cases hres

/-- Settles O41: the table of R24 was proved for every instruction. -/
theorem pcPolicy : Obligations.PcPolicy := fun _ _ _ => exec_pc

theorem faultAddress_gt {i : Instr} {s : State} (h : Faults i s) : 4095 < faultAddress i s := by
  cases i
  case addI x => exact h
  all_goals simp [faultAddress]

/-- Settles O42: neither an error nor a completion is a fault. -/
theorem faultsAreExactlyTheRangeCases : Obligations.FaultsAreExactlyTheRangeCases := by
  intro i s
  have hfaults : ∀ f, exec i s = .fault f → Faults i s := by
    intro f h
    obtain ⟨hf, -⟩ | ⟨e, -, hx⟩ | ⟨-, -, hx⟩ := exec_cases i s
    · exact hf
    · rw [hx] at h
      cases h
    · rw [hx] at h
      cases h
  refine ⟨⟨fun ⟨f, h⟩ => hfaults f h, fun hf => ⟨_, exec_of_faults hf⟩⟩, fun f h => ?_⟩
  have hf := hfaults f h
  rw [exec_of_faults hf] at h
  cases h
  exact ⟨_, rfl, faultAddress_gt hf⟩

/-! ## What the shared updates write -/

theorem pushReturn_getD_eq (p : Word16) (s : State) :
    ∃ stack sp, (pushReturn p s).getD s = s.setStack stack sp := by
  unfold pushReturn
  split
  · exact ⟨_, _, rfl⟩
  · exact ⟨s.stack, s.sp, rfl⟩

theorem popReturn_getD_eq (s : State) :
    ∃ stack sp, ((popReturn s).map Prod.snd).getD s = s.setStack stack sp := by
  unfold popReturn
  split
  · exact ⟨s.stack, s.sp, rfl⟩
  · exact ⟨_, _, rfl⟩

theorem random_snd_eq (s : State) : ∃ tape draws, (Cap.random s).2 = s.setRandom tape draws := by
  obtain ⟨tape, hsource, -, -⟩ := random_spec s
  exact ⟨tape, _, hsource⟩

/-! ## The writes of an instruction are those of the tables -/

theorem effect_V {i : Instr} {r : RegisterIndex} (s : State) (h : ¬ Writes i r) : (effect i s).V r = s.V r := by
  cases i
  case call nnn =>
    obtain ⟨stack, sp, heq⟩ := pushReturn_getD_eq (returnPc s) s
    rw [effect, heq, State.V_setStack]
  case ret =>
    obtain ⟨stack, sp, heq⟩ := popReturn_getD_eq s
    rw [effect, heq, State.V_setStack]
  case ldImm | addImm | ldReg | ldVxDT => exact State.V_setV_other _ _ (Ne.symm h)
  case rnd x kk =>
    obtain ⟨tape, draws, heq⟩ := random_snd_eq s
    rw [effect, State.V_setV_other _ _ (Ne.symm h), heq, State.V_setRandom]
  case ldVxK x =>
    rw [effect]
    cases scanKeys s with
    | none => rfl
    | some k => exact State.V_setV_other _ _ (Ne.symm h)
  case orReg | andReg | xorReg | addReg | sub | shr | subn | shl =>
    obtain ⟨hx, h15⟩ := not_or.mp h
    exact V_writeWithFlag_other _ _ _ hx h15
  case drw x y n => exact State.V_setV_other _ _ (Ne.symm h)
  case loadRegs x => exact (V_setRegsFrom_bytes _ s).trans (if_neg fun hr => h (Nat.le_of_lt_succ hr))
  all_goals rfl

/-- What a state `t` reached from `s` by the writes of `i` has in common with `s`, the registers apart: the index register, the
call stack, the memory, the display, the timers and the random source are each written by the instructions named for
them, the rest by none (R15, R25 to R34). -/
structure WrittenBy (i : Instr) (s t : State) : Prop where
  index : writesIndex i = false → t.idx = s.idx
  stack : (∀ nnn, i ≠ .call nnn) → i ≠ .ret → SameStack s t
  memory : storedBytes i = 0 → t.mem = s.mem
  screen : i ≠ .cls → (∀ x y n, i ≠ .drw x y n) → t.fb = s.fb
  delay : (∀ x, i ≠ .ldDTVx x) → t.dt = s.dt
  sound : (∀ x, i ≠ .ldSTVx x) → t.st = s.st
  random : (∀ x kk, i ≠ .rnd x kk) → SameRandom s t
  keys : SameKeys s t
  sched : SameSched s t
  host : SameHost s t

theorem effect_writtenBy (i : Instr) (s : State) : WrittenBy i s (effect i s) := by
  cases i
  case call nnn =>
    obtain ⟨stack, sp, heq⟩ := pushReturn_getD_eq (returnPc s) s
    rw [effect, heq]
    constructor <;> simp [SameRandom, SameKeys, SameSched, SameHost]
  case ret =>
    obtain ⟨stack, sp, heq⟩ := popReturn_getD_eq s
    rw [effect, heq]
    constructor <;> simp [SameRandom, SameKeys, SameSched, SameHost]
  case rnd x kk =>
    obtain ⟨tape, draws, heq⟩ := random_snd_eq s
    rw [effect, heq]
    constructor <;> simp [SameStack, SameKeys, SameSched, SameHost]
  case ldVxK x =>
    rw [effect]
    cases scanKeys s <;> constructor <;> simp [SameStack, SameRandom, SameKeys, SameSched, SameHost]
  case loadRegs x =>
    obtain ⟨regs, hregs⟩ := setRegsFrom_eq (bytesFrom s (indexAddr s 0) (x.val + 1)) 0 s
    rw [effect, hregs]
    constructor <;> simp [writesIndex, SameStack, SameRandom, SameKeys, SameSched, SameHost]
  case orReg | andReg | xorReg | addReg | sub | shr | subn | shl =>
    constructor <;> simp [effect, writeWithFlag, SameStack, SameRandom, SameKeys, SameSched, SameHost]
  case drw x y n => constructor <;> simp [effect, Cap.draw, SameStack, SameRandom, SameKeys, SameSched, SameHost]
  all_goals
    constructor <;> simp [effect, writesIndex, storedBytes, SameStack, SameRandom, SameKeys, SameSched, SameHost]

theorem effect_sameMemOutside (i : Instr) (s : State) :
    SameMemOutside (indexAddr s 0) (storedBytes i) s (effect i s) := by
  cases i
  case ldB x => exact sameMemOutside_writeList s _ (bcdDigits (s.V x))
  case storeRegs x =>
    have h := sameMemOutside_writeList s (indexAddr s 0) (regsThrough x s)
    rwa [regsThrough_length] at h
  all_goals
    intro b _
    rw [State.byteAt, (effect_writtenBy _ s).memory rfl, State.byteAt]

theorem exec_writtenBy {i : Instr} {s t : State} (h : exec i s = .next t) : WrittenBy i s t := by
  obtain ⟨e, -, rfl⟩ | ⟨-, -, rfl⟩ := exec_next h
  · constructor <;> simp [SameStack, SameRandom, SameKeys, SameSched, SameHost]
  · obtain ⟨index, stack, memory, screen, delay, sound, random, keys, sched, host⟩ := effect_writtenBy i s
    exact ⟨index, stack, memory, screen, delay, sound, random, keys, sched, host⟩

/-- Settles O43: an error writes none of them, and a completion makes the writes of the instruction. -/
theorem cpuWritesAreTheTable : Obligations.CpuWritesAreTheTable := by
  intro i s t h
  have hw := exec_writtenBy h
  refine ⟨fun r hr => ?registers, hw.index, hw.stack, ?memory⟩
  case registers =>
    obtain ⟨e, -, rfl⟩ | ⟨-, -, rfl⟩ := exec_next h
    · rfl
    · exact effect_V s hr
  case memory =>
    obtain ⟨e, -, rfl⟩ | ⟨-, -, rfl⟩ := exec_next h
    · exact fun _ _ => rfl
    · exact effect_sameMemOutside i s

/-- Settles O44: read off the same frame. -/
theorem deviceWritesAreTheTable : Obligations.DeviceWritesAreTheTable := by
  intro i s t h
  have hw := exec_writtenBy h
  exact ⟨hw.screen, hw.delay, hw.sound, hw.random, hw.keys, hw.sched, hw.host⟩

end Sys2Proof
end

section
/-! PROOF. The transaction `execute_next` (R230 to R236, R369). It reads neither the result of the last transaction nor the
last-pressed key: with other values of the two it makes the same writes, and leaves the last-pressed key as it finds it. -/

namespace Sys2Proof

open Sys2Proof.Machine Sys2Proof.Frame

/-! ## Fetch and step -/

/-- Settles O8: the pc of the last word that can be fetched is 4094. -/
theorem fetchIsBigEndian : Obligations.FetchIsBigEndian := by
  intro s
  refine ⟨fun hle => ⟨_, fetch_inside s hle, wordOfBytes_toNat _ _⟩, fun hlt => ?_⟩
  obtain ⟨a, hfetch⟩ := fetch_outside s (Nat.not_le.mpr hlt)
  exact ⟨a, hfetch, by rw [executeNext, hfetch, orFault_error]⟩

theorem executeNext_of_decode {s : State} {i : Instr} (hpc : s.pc.toNat ≤ 4094)
    (hdecode : decode (wordOfBytes (s.byteAt s.pc.toNat) (s.byteAt (s.pc.toNat + 1))) = .ok i) :
    executeNext s = exec i s := by
  rw [executeNext, fetch_inside s hpc, orFault_ok, execWord, hdecode]

/-- Settles O7: taking a move off the list leaves the pc and memory alone, so the same word is fetched. -/
theorem stepRunsDecodedInstruction : Obligations.StepRunsDecodedInstruction := by
  intro s i hpc hdecode
  have hle : s.pc.toNat ≤ 4094 := by
    rw [Config.memSize] at hpc
    omega
  refine ⟨fun hmoves => ?_, fun rest hmoves => ?_⟩
  · rw [step_engine s hmoves, executeNext_of_decode hle hdecode]
  · rw [step_host s _ rest hmoves]
    exact executeNext_of_decode (s := s.setHostMoves rest) hle hdecode

/-! ## What a transaction does not read -/

/-- A state with another result and another last-pressed key. -/
def relabel (r : TxResult) (o : Option KeyIndex) (s : State) : State := (s.setResult r).setLastKey o

/-- An update of the next state, where there is one. -/
def mapNext (f : State → State) : StepOutcome → StepOutcome
  | .next t => .next (f t)
  | .fault e => .fault e
  | .refused e => .refused e

section Relabel

variable (r : TxResult) (o : Option KeyIndex)

theorem faults_relabel (i : Instr) (s : State) : Faults i (relabel r o s) = Faults i s := by cases i <;> rfl

theorem errs_relabel (i : Instr) (s : State) (e : ErrorKind) : Errs i (relabel r o s) e = Errs i s e := by
  cases i <;> rfl

theorem faultAddress_relabel (i : Instr) (s : State) : faultAddress i (relabel r o s) = faultAddress i s := by
  cases i <;> rfl

theorem pcAfter_relabel (i : Instr) (s : State) : pcAfter i (relabel r o s) = pcAfter i s := by cases i <;> rfl

theorem setRegsFrom_relabel (vs : List Byte) : ∀ (n : Nat) (s : State),
    setRegsFrom n vs (relabel r o s) = relabel r o (setRegsFrom n vs s) := by
  induction vs with
  | nil => exact fun _ _ => rfl
  | cons v vs ih =>
    intro n s
    have hset : setVNat n v (relabel r o s) = relabel r o (setVNat n v s) := by
      unfold setVNat
      split <;> rfl
    rw [setRegsFrom, setRegsFrom, hset, ih]

theorem effect_relabel (i : Instr) (s : State) : effect i (relabel r o s) = relabel r o (effect i s) := by
  cases i
  case call nnn =>
    by_cases h : s.sp.val < 16
    · rw [effect, effect, pushReturn_room _ s h, pushReturn_room _ (relabel r o s) h]
      rfl
    · have hfull : s.sp.val = 16 := by omega
      rw [effect, effect, pushReturn_full _ s hfull, pushReturn_full _ (relabel r o s) hfull]
      rfl
  case ret =>
    by_cases h : s.sp.val = 0
    · rw [effect, effect, popReturn_empty s h, popReturn_empty (relabel r o s) h]
      rfl
    · rw [effect, effect, popReturn_some s h, popReturn_some (relabel r o s) h]
      rfl
  case rnd x kk =>
    cases h : s.randomTape with
    | nil =>
      rw [effect, effect, Cap.random_free s h, Cap.random_free (relabel r o s) h]
      rfl
    | cons b rest =>
      rw [effect, effect, Cap.random_tape s b rest h, Cap.random_tape (relabel r o s) b rest h]
      rfl
  case ldVxK x =>
    have hscan : scanKeys (relabel r o s) = scanKeys s := rfl
    rw [effect, effect, hscan]
    cases scanKeys s <;> rfl
  case loadRegs x =>
    exact congrArg (·.setIdx (BitVec.ofNat 12 (indexAfterBlock s x)))
      (setRegsFrom_relabel r o (bytesFrom s (indexAddr s 0) (x.val + 1)) 0 s)
  all_goals rfl

/-- With another result and another last-pressed key an instruction ends in the same case, with the same writes. -/
theorem exec_relabel (i : Instr) (s : State) : exec i (relabel r o s) = mapNext (·.setLastKey o) (exec i s) := by
  obtain ⟨hf, hx⟩ | ⟨e, he, hx⟩ | ⟨hf, he, hx⟩ := exec_cases i s
  · rw [hx, exec_of_faults (by rwa [faults_relabel]), faultAddress_relabel, mapNext]
  · rw [hx, exec_of_errs (by rwa [errs_relabel])]
    rfl
  · rw [hx, exec_of_completes (by rwa [faults_relabel]) (by simpa only [errs_relabel] using he), pcAfter_relabel,
      effect_relabel]
    rfl

theorem executeNext_relabel (s : State) :
    executeNext (relabel r o s) = mapNext (·.setLastKey o) (executeNext s) := by
  have hfetch : fetch (relabel r o s) = fetch s := rfl
  rw [executeNext, executeNext, hfetch]
  cases fetch s with
  | error f => rfl
  | ok w =>
    rw [orFault_ok, orFault_ok, execWord, execWord]
    cases decode w with
    | error e => rfl
    | ok i => exact exec_relabel r o i s

end Relabel

theorem executeNext_writtenBy {s t : State} (h : executeNext s = .next t) :
    SameKeys s t ∧ SameSched s t ∧ SameHost s t := by
  obtain ⟨e, rfl⟩ | ⟨w, i, -, -, hexec⟩ := executeNext_next h
  · simp [SameKeys, SameSched, SameHost]
  · have hw := exec_writtenBy hexec
    exact ⟨hw.keys, hw.sched, hw.host⟩

theorem executeNext_setLastKey (o : Option KeyIndex) (s : State) :
    executeNext (s.setLastKey o) = mapNext (·.setLastKey o) (executeNext s) :=
  executeNext_relabel s.result o s

/-- The result of the last transaction is not read (R235). -/
theorem executeNext_setResult (r : TxResult) (s : State) : executeNext (s.setResult r) = executeNext s := by
  refine (executeNext_relabel r s.lastKey s).trans ?_
  cases h : executeNext s with
  | next t =>
    obtain ⟨⟨-, hlast⟩, -, -⟩ := executeNext_writtenBy h
    rw [mapNext, ← hlast]
    rfl
  | fault f => rfl
  | refused e => rfl

/-! ## Errors of a transaction -/

theorem executeNext_error {s t : State} {e : ErrorKind} (h : executeNext s = .next t) (hres : t.result = .error e) :
    t = s.setResult (.error e) := by
  obtain ⟨e', rfl⟩ | ⟨w, i, -, -, hexec⟩ := executeNext_next h
  · cases hres
    rfl
  · exact errorsLeaveStateUnchanged i s t e hexec hres

/-- A failed transaction, called again, fails in the same state (R369). -/
theorem executeNext_repeats {s t : State} {e : ErrorKind} (h : executeNext s = .next t) (hres : t.result = .error e) :
    executeNext t = .next t := by
  have ht := executeNext_error h hres
  calc executeNext t = executeNext (s.setResult (.error e)) := by rw [← ht]
    _ = executeNext s := executeNext_setResult _ s
    _ = .next t := h

/-! ## Key events -/

theorem setKey_keys (s : State) (k j : KeyIndex) (b : Bool) :
    (s.setKey k b).keys[j.val] = if j = k then b else s.keys[j.val] := by
  simp [State.setKey, Vector.getElem_set, Fin.ext_iff, eq_comm]

/-- Settles O54: both moves write one key, the last-pressed key, and at a release the count of releases. -/
theorem hostKeyEvents : Obligations.HostKeyEvents := by
  refine fun k rest s => ⟨fun hmoves => ?_, fun hmoves => ?_⟩
  · exact ⟨_, step_host s _ rest hmoves, fun j => setKey_keys (s.setHostMoves rest) k j true, rfl, rfl⟩
  · exact ⟨_, step_host s _ rest hmoves, fun j => setKey_keys (s.setHostMoves rest) k j false, rfl⟩

end Sys2Proof
end

section
/-! PROOF. The iterations of `advance` (R252 to R258, R261). One iteration elapses to the next instant, runs the instruction
event there and, if no error came of it, does the ticks that are due. After an iteration no countdown is 0, so from the
second one on every iteration consumes time: the bound of the loop is never met, and `advance` is its own iteration. -/

namespace Sys2Proof

open Sys2Proof.Machine Sys2Proof.Frame

/-! ## The pieces of one iteration -/

/-- Go on from a next state that returned `ok`; an error, a fault or a refusal is the end (R258). -/
def goOn (k : State → StepOutcome) : StepOutcome → StepOutcome
  | .next t => if t.result = .ok then k t else .next t
  | .fault f => .fault f
  | .refused r => .refused r

theorem goOn_ok {k : State → StepOutcome} {t : State} (h : t.result = .ok) : goOn k (.next t) = k t := if_pos h

theorem goOn_error {k : State → StepOutcome} {t : State} (h : t.result ≠ .ok) : goOn k (.next t) = .next t := if_neg h

theorem goOn_congr {k k' : State → StepOutcome} {o : StepOutcome}
    (h : ∀ t, o = .next t → t.result = .ok → k t = k' t) : goOn k o = goOn k' o := by
  cases o with
  | next t =>
    by_cases hok : t.result = .ok
    · rw [goOn_ok hok, goOn_ok hok, h t rfl hok]
    · rw [goOn_error hok, goOn_error hok]
  | fault f => rfl
  | refused r => rfl

theorem goOn_eq_next {k : State → StepOutcome} {o : StepOutcome} {t : State} (h : goOn k o = .next t) :
    (∃ u, o = .next u ∧ u.result = .ok ∧ k u = .next t) ∨ (o = .next t ∧ t.result ≠ .ok) := by
  cases o with
  | next u =>
    by_cases hok : u.result = .ok
    · exact .inl ⟨u, rfl, hok, (goOn_ok hok).symm.trans h⟩
    · rw [goOn_error hok] at h
      cases h
      exact .inr ⟨rfl, hok⟩
  | fault f => cases h
  | refused r => cases h

theorem goOn_eq_fault {k : State → StepOutcome} {o : StepOutcome} {f : Fault} (h : goOn k o = .fault f) :
    o = .fault f ∨ ∃ u, o = .next u ∧ u.result = .ok ∧ k u = .fault f := by
  cases o with
  | next u =>
    by_cases hok : u.result = .ok
    · exact .inr ⟨u, rfl, hok, (goOn_ok hok).symm.trans h⟩
    · rw [goOn_error hok] at h
      cases h
  | fault g => exact .inl h
  | refused r => cases h

/-- The two ticks of an instant, in their order (R256). -/
def ticks (s : State) : State := soundTick (delayTick s)

theorem ticks_eq (s : State) : ticks s = { s with
    dt := if s.cD = 0 then tickDown s.dt else s.dt
    st := if s.cS = 0 then tickDown s.st else s.st
    cD := if s.cD = 0 then s.params.periodD else s.cD
    cS := if s.cS = 0 then s.params.periodS else s.cS } := by
  by_cases hD : s.cD = 0
  · by_cases hS : s.cS = 0
    · simp [ticks, delayTick, soundTick, hD, hS, State.setDT, State.setST, State.setCountdowns]
    · simp [ticks, delayTick, soundTick, hD, hS, State.setDT, State.setCountdowns]
  · by_cases hS : s.cS = 0
    · simp [ticks, delayTick, soundTick, hD, hS, State.setST, State.setCountdowns]
    · simp [ticks, delayTick, soundTick, hD, hS]

@[simp] theorem ticks_cI (s : State) : (ticks s).cI = s.cI := by rw [ticks_eq]

theorem ticks_cD (s : State) : (ticks s).cD = if s.cD = 0 then s.params.periodD else s.cD := by rw [ticks_eq]

theorem ticks_cS (s : State) : (ticks s).cS = if s.cS = 0 then s.params.periodS else s.cS := by rw [ticks_eq]

@[simp] theorem ticks_params (s : State) : (ticks s).params = s.params := by rw [ticks_eq]

@[simp] theorem ticks_result (s : State) : (ticks s).result = s.result := by rw [ticks_eq]

theorem ticks_of_not_due {s : State} (hD : s.cD ≠ 0) (hS : s.cS ≠ 0) : ticks s = s := by
  rw [ticks_eq, if_neg hD, if_neg hS, if_neg hD, if_neg hS]

theorem instructionEvent_of_not_due {s : State} (h : s.cI ≠ 0) : instructionEvent s = .next s := if_neg h

/-- The restart of the instruction countdown (R254). -/
def restartInstr (s : State) : State := s.setCountdowns s.params.periodI s.cD s.cS

theorem instructionEvent_of_due {s : State} (h : s.cI = 0) :
    instructionEvent s = goOn (fun u => .next (restartInstr u)) (executeNext s) := by
  rw [instructionEvent, if_pos h]
  cases executeNext s <;> rfl

/-- An instruction event that returned `ok` moves no countdown but its own, which restarts when it was
due, and keeps the parameters. -/
theorem instructionEvent_ok {s t : State} (h : instructionEvent s = .next t) (hok : t.result = .ok) :
    t.cI = (if s.cI = 0 then s.params.periodI else s.cI) ∧ t.cD = s.cD ∧ t.cS = s.cS ∧ t.params = s.params := by
  obtain ⟨h0, rfl⟩ | ⟨h0, u, hu, ⟨-, rfl⟩ | ⟨hne, rfl⟩⟩ := instructionEvent_cases h
  · exact ⟨(if_neg h0).symm, rfl, rfl, rfl⟩
  · obtain ⟨-, ⟨-, hD, hS, hparams⟩, -⟩ := executeNext_writtenBy hu
    exact ⟨by rw [if_pos h0, ← hparams]; rfl, hD, hS, hparams⟩
  · exact absurd hok hne

/-! ## The loop and its bound -/

theorem advanceLoop_iteration (fuel : Nat) {rem : Nat} (s : State) (h : rem ≠ 0) :
    advanceLoop (fuel + 1) rem s =
      goOn (fun t => advanceLoop fuel (rem - stepLength rem s) (ticks t))
        (instructionEvent (elapse (stepLength rem s) s)) := by
  rw [advanceLoop_succ fuel rem s h]
  cases instructionEvent (elapse (stepLength rem s) s) <;> rfl

/-- A bound on the iterations that a duration of `rem` needs: one that consumes no time can come first. -/
def iterationBound (rem : Nat) (s : State) : Nat :=
  if 1 ≤ s.cI ∧ 1 ≤ s.cD ∧ 1 ≤ s.cS then rem else rem + 1

theorem iterationBound_le (rem : Nat) (s : State) : iterationBound rem s ≤ rem + 1 := by
  unfold iterationBound
  split <;> omega

theorem le_iterationBound (rem : Nat) (s : State) : rem ≤ iterationBound rem s := by
  unfold iterationBound
  split <;> omega

/-- After an iteration no countdown is 0. -/
theorem running_of_iteration {s t : State} (hp : s.params.periodsWf = true) (h : instructionEvent s = .next t)
    (hok : t.result = .ok) : 1 ≤ (ticks t).cI ∧ 1 ≤ (ticks t).cD ∧ 1 ≤ (ticks t).cS := by
  obtain ⟨hI, -, -, hparams⟩ := instructionEvent_ok h hok
  obtain ⟨hpI, hpD, hpS⟩ := (periodsWf_iff s.params).mp hp
  rw [ticks_cI, ticks_cD, ticks_cS, hI, hparams]
  refine ⟨?_, ?_, ?_⟩ <;> split <;> omega

theorem iterationBound_lt {rem : Nat} {s t : State} (hp : s.params.periodsWf = true) (hrem : rem ≠ 0)
    (h : instructionEvent (elapse (stepLength rem s) s) = .next t) (hok : t.result = .ok) :
    iterationBound (rem - stepLength rem s) (ticks t) < iterationBound rem s := by
  have hrunning := running_of_iteration (s := elapse (stepLength rem s) s) hp h hok
  rw [iterationBound, if_pos hrunning, iterationBound, stepLength]
  split <;> omega

/-- Every bound that is large enough gives the same run (R261). -/
theorem advanceLoop_fuel_irrelevant : ∀ (fuel fuel' rem : Nat) (s : State), s.params.periodsWf = true →
    iterationBound rem s ≤ fuel → iterationBound rem s ≤ fuel' → advanceLoop fuel rem s = advanceLoop fuel' rem s := by
  intro fuel
  induction fuel with
  | zero =>
    intro fuel' rem s _ h _
    obtain rfl : rem = 0 := Nat.le_zero.mp ((le_iterationBound rem s).trans h)
    rw [advanceLoop_zero, advanceLoop_zero]
  | succ fuel ih =>
    intro fuel' rem s hp h h'
    by_cases hrem : rem = 0
    · subst hrem
      rw [advanceLoop_zero, advanceLoop_zero]
    · have hle := le_iterationBound rem s
      obtain ⟨fuel'', rfl⟩ : ∃ k, fuel' = k + 1 := ⟨fuel' - 1, by omega⟩
      rw [advanceLoop_iteration fuel s hrem, advanceLoop_iteration fuel'' s hrem]
      refine goOn_congr fun t ht hok => ?_
      have hlt := iterationBound_lt hp hrem ht hok
      have hparams : (ticks t).params = s.params := (ticks_params t).trans (instructionEvent_ok ht hok).2.2.2
      exact ih _ _ _ (by rw [hparams]; exact hp) (by omega) (by omega)

/-- Settles O53: the bound `d + 2` is larger than the iterations need. -/
theorem advanceTerminates : Obligations.AdvanceTerminates := by
  refine fun d s => ⟨fun hp extra => ?_, fun hp => advance_refused d s (by simp [hp])⟩
  have hle := iterationBound_le d (s.setResult .ok)
  rw [advance_eq d s hp]
  exact advanceLoop_fuel_irrelevant _ _ d (s.setResult .ok) hp (by omega) (by omega)

/-! ## `advance` as its own iteration -/

/-- The next instant of `advance d s`: time elapses to it, and the instruction event comes first. -/
def nextEvent (d : Nat) (s : State) : StepOutcome := instructionEvent (elapse (stepLength d s) (s.setResult .ok))

theorem setResult_of_result {s : State} {r : TxResult} (h : s.result = r) : s.setResult r = s := by
  subst h
  rfl

theorem advance_zero {s : State} (hp : s.params.periodsWf = true) : advance 0 s = .next (s.setResult .ok) := by
  rw [advance_eq 0 s hp, advanceLoop_zero]

theorem nextEvent_params {d : Nat} {s t : State} (h : nextEvent d s = .next t) (hok : t.result = .ok) :
    (ticks t).params = s.params := (ticks_params t).trans (instructionEvent_ok h hok).2.2.2

theorem periodsWf_ticks {d : Nat} {s t : State} (hp : s.params.periodsWf = true) (h : nextEvent d s = .next t)
    (hok : t.result = .ok) : (ticks t).params.periodsWf = true := by
  rwa [nextEvent_params h hok]

/-- One iteration: `advance` goes on with the rest of the duration from the state after the ticks. -/
theorem advance_iteration {d : Nat} {s : State} (hd : d ≠ 0) (hp : s.params.periodsWf = true) :
    advance d s = goOn (fun t => advance (d - stepLength d s) (ticks t)) (nextEvent d s) := by
  rw [advance_eq d s hp, advanceLoop_iteration _ _ hd]
  refine goOn_congr fun t ht hok => ?_
  have hlt : iterationBound (d - stepLength d s) (ticks t) < iterationBound d (s.setResult .ok) :=
    iterationBound_lt (s := s.setResult .ok) hp hd ht hok
  have hle := iterationBound_le d (s.setResult .ok)
  have hle' := iterationBound_le (d - stepLength d s) (ticks t)
  have hp' := periodsWf_ticks hp ht hok
  have hres : (ticks t).setResult .ok = ticks t := setResult_of_result ((ticks_result t).trans hok)
  rw [advance_eq _ _ hp', hres]
  exact advanceLoop_fuel_irrelevant _ _ (d - stepLength d s) _ hp' (by omega) (by omega)

/-- Induction over the iterations of `advance`. -/
theorem advance_induct {motive : (d : Nat) → (s : State) → s.params.periodsWf = true → Prop}
    (hzero : ∀ s hp, motive 0 s hp)
    (hstep : ∀ d s hp, d ≠ 0 → (∀ t (ht : nextEvent d s = .next t) (hok : t.result = .ok),
      motive (d - stepLength d s) (ticks t) (periodsWf_ticks hp ht hok)) → motive d s hp)
    (d : Nat) (s : State) (hp : s.params.periodsWf = true) : motive d s hp := by
  by_cases hd : d = 0
  · subst hd
    exact hzero s hp
  · refine hstep d s hp hd fun t ht hok => ?_
    have hlt : iterationBound (d - stepLength d s) (ticks t) < iterationBound d s :=
      iterationBound_lt (s := s.setResult .ok) hp hd ht hok
    exact advance_induct hzero hstep _ _ _
termination_by iterationBound d s

theorem periodsWf_of_advance_next {d : Nat} {s t : State} (h : advance d s = .next t) : s.params.periodsWf = true := by
  by_contra hp
  rw [advance_refused d s hp] at h
  cases h

end Sys2Proof
end

section
/-! PROOF. The laws of the scheduler (R252 to R258, R369). Each instant is one iteration of `advance`: which countdowns run out
there decides the instruction event and the ticks. An error or a fault of a whole duration is found by induction over the
iterations. -/

namespace Sys2Proof

open Sys2Proof.Machine Sys2Proof.Frame

/-! ## One instant -/

theorem elapse_of_stepLength {d m : Nat} {s : State} (h : stepLength d s = m) :
    elapse (stepLength d s) (s.setResult .ok) =
      (s.setCountdowns (s.cI - m) (s.cD - m) (s.cS - m)).setResult .ok := by
  rw [h]
  rfl

/-- The instruction is not due: the event of the instant is the passing of time. -/
theorem nextEvent_of_not_due {d m : Nat} {s : State} (hm : stepLength d s = m) (h : m < s.cI) :
    nextEvent d s = .next ((s.setCountdowns (s.cI - m) (s.cD - m) (s.cS - m)).setResult .ok) := by
  rw [nextEvent, elapse_of_stepLength hm]
  exact instructionEvent_of_not_due (Nat.sub_ne_zero_of_lt h)

/-- The instruction is due: the event of the instant is the instruction and, if it returns `ok`, the restart of its
countdown. -/
theorem nextEvent_of_due {d m : Nat} {s : State} (hm : stepLength d s = m) (h : s.cI = m) :
    nextEvent d s =
      goOn (fun u => .next (restartInstr u)) (executeNext (s.setCountdowns 0 (s.cD - m) (s.cS - m))) := by
  rw [nextEvent, elapse_of_stepLength hm, instructionEvent_of_due (by simp [h]), executeNext_setResult, h,
    Nat.sub_self]

theorem advance_of_nextEvent {d : Nat} {s t : State} (hd : d ≠ 0) (hp : s.params.periodsWf = true)
    (h : nextEvent d s = .next t) (hok : t.result = .ok) :
    advance d s = advance (d - stepLength d s) (ticks t) := by
  rw [advance_iteration hd hp, h, goOn_ok hok]

theorem stepLength_of_short {d : Nat} {s : State} (h : d ≤ s.cI ∧ d ≤ s.cD ∧ d ≤ s.cS) : stepLength d s = d := by
  simp only [stepLength]
  omega

theorem stepLength_of_nextInstant {m d : Nat} {s : State} (h : NextInstant m d s) : stepLength d s = m := by
  obtain ⟨-, hd, hI, hD, hS, hdue⟩ := h
  simp only [stepLength]
  omega

/-- A duration shorter than every countdown is one iteration in which nothing is due. -/
theorem advance_of_short {d : Nat} {s : State} (hp : s.params.periodsWf = true)
    (h : d < s.cI ∧ d < s.cD ∧ d < s.cS) :
    advance d s = .next ((s.setCountdowns (s.cI - d) (s.cD - d) (s.cS - d)).setResult .ok) := by
  obtain ⟨hI, hD, hS⟩ := h
  by_cases hd : d = 0
  · subst hd
    exact advance_zero hp
  · have hm : stepLength d s = d := stepLength_of_short ⟨hI.le, hD.le, hS.le⟩
    rw [advance_of_nextEvent hd hp (nextEvent_of_not_due hm hI) rfl, hm, Nat.sub_self,
      ticks_of_not_due (Nat.sub_ne_zero_of_lt hD) (Nat.sub_ne_zero_of_lt hS)]
    exact advance_zero hp

/-- Settles O47: a duration of 0 ends before the first iteration. -/
theorem shortAdvanceFiresNothing : Obligations.ShortAdvanceFiresNothing := by
  rintro d s hp (rfl | h)
  · exact advance_zero hp
  · exact advance_of_short hp h

/-! ## The order of an instant (R256) -/

/-- The ticks after the event of an instant, on a state in which the two tick countdowns have elapsed. -/
theorem ticksDone_ticks {m i : Nat} {s u : State} (hD : m ≤ s.cD) (hS : m ≤ s.cS) (hparams : u.params = s.params) :
    TicksDone m s u (ticks ((u.setCountdowns i (s.cD - m) (s.cS - m)).setResult .ok)) := by
  have hD0 : s.cD - m = 0 ↔ s.cD = m := by omega
  have hS0 : s.cS - m = 0 ↔ s.cS = m := by omega
  rw [ticks_eq]
  refine ⟨?delay, ?sound, ?cD, ?cS, rfl, ?frame⟩
  case delay =>
    simp only [State.setResult_cD, State.setCountdowns_cD, hD0]
    split
    · exact tickDown_toNat u.dt
    · rfl
  case sound =>
    simp only [State.setResult_cS, State.setCountdowns_cS, hS0]
    split
    · exact tickDown_toNat u.st
    · rfl
  case cD => simp [hD0, hparams]
  case cS => simp [hS0, hparams]
  case frame =>
    simp [SameRegs, State.V, SameStack, SameMem, State.byteAt, SameScreen, SameKeys, SameRandom, SameHost, hparams]

theorem goesOnFrom_ticks {m d : Nat} {s v : State} (hd : d ≠ 0) (hp : s.params.periodsWf = true)
    (hm : stepLength d s = m) (h : nextEvent d s = .next v) (hok : v.result = .ok) : GoesOnFrom m d s (ticks v) := by
  have hgo : advance d s = advance (d - m) (ticks v) := by rw [advance_of_nextEvent hd hp h hok, hm]
  refine ⟨hgo, fun hdm => ?_⟩
  rw [hgo, hdm, Nat.sub_self, advance_zero (by rwa [nextEvent_params h hok]),
    setResult_of_result ((ticks_result v).trans hok)]

/-- Settles O48: the event of the instant is the passing of time or the instruction, and the ticks come after it. -/
theorem tiesRunInstructionFirst : Obligations.TiesRunInstructionFirst := by
  intro m d s hp hinstant
  have hm := stepLength_of_nextInstant hinstant
  obtain ⟨hd, -, -, hD, hS, -⟩ := hinstant
  have hd0 : d ≠ 0 := by omega
  refine ⟨fun hlt => ?notDue, fun hdue u hu => ⟨fun hok => ?completes, fun herr => ?fails⟩⟩
  case notDue =>
    exact ⟨_, ticksDone_ticks hD hS rfl, ticks_cI _, goesOnFrom_ticks hd0 hp hm (nextEvent_of_not_due hm hlt) rfl⟩
  case completes =>
    obtain ⟨-, ⟨-, hcD, hcS, hparams⟩, -⟩ := executeNext_writtenBy hu
    have hevent : nextEvent d s = .next (restartInstr u) := by rw [nextEvent_of_due hm hdue, hu, goOn_ok hok]
    have hrestart : restartInstr u = (u.setCountdowns s.params.periodI (s.cD - m) (s.cS - m)).setResult .ok := by
      rw [restartInstr, hcD, hcS, hparams]
      exact (setResult_of_result (s := u.setCountdowns s.params.periodI (s.cD - m) (s.cS - m)) hok).symm
    rw [hrestart] at hevent
    exact ⟨_, ticksDone_ticks hD hS hparams, ticks_cI _, goesOnFrom_ticks hd0 hp hm hevent rfl⟩
  case fails => rw [advance_iteration hd0 hp, nextEvent_of_due hm hdue, hu, goOn_error herr, goOn_error herr]

/-! ## Errors and faults (R258) -/

theorem nextEvent_error {d : Nat} {s t : State} (h : nextEvent d s = .next t) (herr : t.result ≠ .ok) :
    t.cI = 0 ∧ ∃ u, u.cI = 0 ∧ executeNext u = .next t := by
  obtain ⟨-, rfl⟩ | ⟨h0, u, hu, ⟨hok, rfl⟩ | ⟨-, rfl⟩⟩ := instructionEvent_cases h
  · exact absurd rfl herr
  · exact absurd hok herr
  · obtain ⟨-, ⟨hI, -, -, -⟩, -⟩ := executeNext_writtenBy hu
    exact ⟨hI.trans h0, _, h0, hu⟩

theorem nextEvent_fault {d : Nat} {s : State} {f : Fault} (h : nextEvent d s = .fault f) :
    ∃ u, u.cI = 0 ∧ executeNext u = .fault f := by
  by_cases h0 : (elapse (stepLength d s) (s.setResult .ok)).cI = 0
  · rw [nextEvent, instructionEvent_of_due h0] at h
    obtain hf | ⟨u, -, -, hu⟩ := goOn_eq_fault h
    · exact ⟨_, h0, hf⟩
    · cases hu
  · rw [nextEvent, instructionEvent_of_not_due h0] at h
    cases h

/-- An error of `advance` is one of the instruction that was due, with its countdown still 0. -/
theorem advance_error {d : Nat} {s t : State} (h : advance d s = .next t) (herr : t.result ≠ .ok) :
    t.cI = 0 ∧ ∃ u, u.cI = 0 ∧ executeNext u = .next t := by
  have hp := periodsWf_of_advance_next h
  induction d, s, hp using advance_induct with
  | hzero s hp =>
    rw [advance_zero hp] at h
    cases h
    exact absurd rfl herr
  | hstep d s hp hd ih =>
    rw [advance_iteration hd hp] at h
    obtain ⟨v, hv, hok, hrest⟩ | ⟨hv, -⟩ := goOn_eq_next h
    · exact ih v hv hok hrest
    · exact nextEvent_error hv herr

theorem advance_fault {d : Nat} {s : State} {f : Fault} (hp : s.params.periodsWf = true) (h : advance d s = .fault f) :
    ∃ u, u.cI = 0 ∧ executeNext u = .fault f := by
  induction d, s, hp using advance_induct with
  | hzero s hp =>
    rw [advance_zero hp] at h
    cases h
  | hstep d s hp hd ih =>
    rw [advance_iteration hd hp] at h
    obtain hf | ⟨v, hv, hok, hrest⟩ := goOn_eq_fault h
    · exact nextEvent_fault hf
    · exact ih v hv hok hrest

/-- Settles O52: the event of the instant is the instruction's own outcome, which ends the run. -/
theorem advancePassesErrorsOn : Obligations.AdvancePassesErrorsOn := by
  refine fun d s hp => ⟨fun m hinstant hdue => ?_, fun t e h herr => advance_error h (by simp [herr]),
    fun f => advance_fault hp⟩
  have hm := stepLength_of_nextInstant hinstant
  have hd0 : d ≠ 0 := Nat.one_le_iff_ne_zero.mp hinstant.1
  rw [advance_iteration hd0 hp, nextEvent_of_due hm hdue]
  refine ⟨fun u e hu herr => ⟨?_, executeNext_error hu herr⟩, fun f hf => ?_⟩
  · have hne : u.result ≠ .ok := by simp [herr]
    rw [hu, goOn_error hne, goOn_error hne]
  · rw [hf]
    rfl

theorem params_of_advance {d : Nat} {s t : State} (h : advance d s = .next t) : t.params = s.params := by
  have hp := periodsWf_of_advance_next h
  rw [advance_eq d s hp] at h
  refine advanceLoop_induct (fun u => u.params = s.params) (fun m u hu => hu) ?_ ?_ ?_ _ _ (s.setResult .ok) _ rfl h
  · intro u v hu _ hv
    obtain ⟨-, ⟨-, -, -, hparams⟩, -⟩ := executeNext_writtenBy hv
    exact ⟨hparams.trans hu, fun _ => hparams.trans hu⟩
  · exact fun u hu => (delayTick_params u).trans hu
  · exact fun u hu => (soundTick_params u).trans hu

/-- After an error the instruction is due at once, and it fails in the same state. -/
theorem advance_repeats {d d' : Nat} {s t : State} {e : ErrorKind} (h : advance d s = .next t)
    (herr : t.result = .error e) (hd' : 1 ≤ d') : advance d' t = .next t := by
  have hne : t.result ≠ .ok := by simp [herr]
  have hp : t.params.periodsWf = true := by rw [params_of_advance h]; exact periodsWf_of_advance_next h
  obtain ⟨h0, u, -, hu⟩ := advance_error h hne
  have hm : stepLength d' t = 0 := by simp [stepLength, h0]
  have hcountdowns : t.setCountdowns 0 (t.cD - 0) (t.cS - 0) = t := by rw [Nat.sub_zero, Nat.sub_zero, ← h0]; rfl
  rw [advance_iteration (by omega) hp, nextEvent_of_due hm h0, hcountdowns, executeNext_repeats hu herr, goOn_error hne,
    goOn_error hne]

/-- Settles O12: the failing instruction changed the result only, and the result is not read. -/
theorem errorsRepeat : Obligations.ErrorsRepeat :=
  ⟨fun _ _ _ => executeNext_repeats, fun _ _ _ _ _ => advance_repeats⟩

/-! ## What `advance` does not read -/

theorem advance_setResult (d : Nat) (r : TxResult) (s : State) : advance d (s.setResult r) = advance d s := rfl

/-- Settles O13: `advance` begins by writing the result itself. -/
theorem lastResultIsNeverRead : Obligations.LastResultIsNeverRead := fun s r =>
  ⟨executeNext_setResult r s, fun d => advance_setResult d r s⟩

theorem ticks_setLastKey (o : Option KeyIndex) (s : State) : ticks (s.setLastKey o) = (ticks s).setLastKey o := by
  rw [ticks_eq, ticks_eq]
  rfl

theorem goOn_mapNext {f : State → State} {k k' : State → StepOutcome} {o : StepOutcome}
    (hf : ∀ t, (f t).result = t.result)
    (h : ∀ t, o = .next t → t.result = .ok → k' (f t) = mapNext f (k t)) :
    goOn k' (mapNext f o) = mapNext f (goOn k o) := by
  cases o with
  | next t =>
    by_cases hok : t.result = .ok
    · rw [mapNext, goOn_ok ((hf t).trans hok), goOn_ok hok, h t rfl hok]
    · rw [mapNext, goOn_error (by rwa [hf t]), goOn_error hok, mapNext]
  | fault e => rfl
  | refused e => rfl

theorem instructionEvent_setLastKey (o : Option KeyIndex) (s : State) :
    instructionEvent (s.setLastKey o) = mapNext (·.setLastKey o) (instructionEvent s) := by
  by_cases h : s.cI = 0
  · rw [instructionEvent_of_due h, instructionEvent_of_due (s := s.setLastKey o) h, executeNext_setLastKey]
    exact goOn_mapNext (fun _ => rfl) fun _ _ _ => rfl
  · rw [instructionEvent_of_not_due h, instructionEvent_of_not_due (s := s.setLastKey o) h, mapNext]

theorem nextEvent_setLastKey (d : Nat) (o : Option KeyIndex) (s : State) :
    nextEvent d (s.setLastKey o) = mapNext (·.setLastKey o) (nextEvent d s) :=
  instructionEvent_setLastKey o (elapse (stepLength d s) (s.setResult .ok))

theorem advance_setLastKey (d : Nat) (o : Option KeyIndex) (s : State) :
    advance d (s.setLastKey o) = mapNext (·.setLastKey o) (advance d s) := by
  by_cases hp : s.params.periodsWf = true
  · induction d, s, hp using advance_induct with
    | hzero s hp =>
      rw [advance_zero hp, advance_zero (s := s.setLastKey o) hp]
      rfl
    | hstep d s hp hd ih =>
      rw [advance_iteration hd hp, advance_iteration (s := s.setLastKey o) hd hp, nextEvent_setLastKey]
      refine goOn_mapNext (fun _ => rfl) fun t ht hok => ?_
      rw [ticks_setLastKey]
      exact ih t ht hok
  · rw [advance_refused d s hp, advance_refused d (s.setLastKey o) hp, mapNext]

theorem mapNext_cases {f : State → State} {o o' : StepOutcome} (h : o' = mapNext f o) :
    (∀ t, o = .next t → o' = .next (f t)) ∧ (∀ e, o = .fault e ↔ o' = .fault e) ∧
      ∀ r, o = .refused r ↔ o' = .refused r := by
  subst h
  cases o <;> simp [mapNext]

/-- Settles O56: with another last-pressed key the outcome is the same, mapped. -/
theorem lastKeyInfluencesNothing : Obligations.LastKeyInfluencesNothing := by
  intro s o
  obtain ⟨hnext, hfault, hrefused⟩ := mapNext_cases (executeNext_setLastKey o s)
  exact ⟨hnext, hfault, hrefused, fun d => mapNext_cases (advance_setLastKey d o s)⟩

end Sys2Proof
end

section
/-! PROOF. Whole runs of the scheduler (R33, R237, R257, R259, R260). Where the countdowns stand, how a run splits, what a
finished program leaves alone, and who writes the keypad: each by induction over the iterations. -/

namespace Sys2Proof

open Sys2Proof.Machine Sys2Proof.Frame

/-! ## Where the countdowns stand -/

/-- A countdown after an instant `m` time units on, from the value `c` with period `p`: restarted if it ran out. -/
def afterInstant (p c m : Nat) : Nat := if c - m = 0 then p else c - m

theorem countdowns_of_nextEvent {d : Nat} {s t : State} (h : nextEvent d s = .next t) (hok : t.result = .ok) :
    (ticks t).cI = afterInstant s.params.periodI s.cI (stepLength d s) ∧
      (ticks t).cD = afterInstant s.params.periodD s.cD (stepLength d s) ∧
      (ticks t).cS = afterInstant s.params.periodS s.cS (stepLength d s) := by
  obtain ⟨hI, hD, hS, hparams⟩ := instructionEvent_ok h hok
  rw [ticks_cI, ticks_cD, ticks_cS, hI, hD, hS, hparams]
  exact ⟨rfl, rfl, rfl⟩

theorem afterInstant_mem {p c m : Nat} (hp : 1 ≤ p) (hc : c ≤ p) : 1 ≤ afterInstant p c m ∧ afterInstant p c m ≤ p := by
  unfold afterInstant
  split <;> omega

theorem countdownsReady_ticks {d : Nat} {s t : State} (hp : s.params.periodsWf = true) (hI : s.cI ≤ s.params.periodI)
    (hD : s.cD ≤ s.params.periodD) (hS : s.cS ≤ s.params.periodS) (h : nextEvent d s = .next t) (hok : t.result = .ok) :
    CountdownsReady (ticks t) := by
  obtain ⟨hpI, hpD, hpS⟩ := (periodsWf_iff s.params).mp hp
  obtain ⟨hcI, hcD, hcS⟩ := countdowns_of_nextEvent h hok
  rw [CountdownsReady, nextEvent_params h hok, hcI, hcD, hcS]
  exact ⟨afterInstant_mem hpI hI, afterInstant_mem hpD hD, afterInstant_mem hpS hS⟩

theorem countdownsReady_of_advance {d : Nat} {s t : State} (hready : CountdownsReady s) (h : advance d s = .next t)
    (hok : t.result = .ok) : CountdownsReady t := by
  have hp := periodsWf_of_advance_next h
  induction d, s, hp using advance_induct with
  | hzero s hp =>
    rw [advance_zero hp] at h
    cases h
    exact hready
  | hstep d s hp hd ih =>
    rw [advance_iteration hd hp] at h
    obtain ⟨v, hv, hvok, hrest⟩ | ⟨-, hne⟩ := goOn_eq_next h
    · obtain ⟨⟨-, hI⟩, ⟨-, hD⟩, ⟨-, hS⟩⟩ := hready
      exact ih v hv hvok (countdownsReady_ticks hp hI hD hS hv hvok) hrest
    · exact absurd hok hne

/-- Settles O49: the first iteration makes every countdown ready, and the rest keep it so. -/
theorem advanceLeavesCountdownsReady : Obligations.AdvanceLeavesCountdownsReady := by
  intro d s t hI hD hS h hok hstart
  by_cases hd : d = 0
  · exact countdownsReady_of_advance (hstart.resolve_left (by omega)) h hok
  · have hp := periodsWf_of_advance_next h
    rw [advance_iteration hd hp] at h
    obtain ⟨v, hv, hvok, hrest⟩ | ⟨-, hne⟩ := goOn_eq_next h
    · exact countdownsReady_of_advance (countdownsReady_ticks hp hI hD hS hv hvok) hrest hok
    · exact absurd hok hne

theorem countdownAfter_zero {p c : Nat} (hc : 1 ≤ c) : countdownAfter p c 0 = c := if_pos hc

/-- The formula of R260 from the state after an instant is the formula from the state before it. -/
theorem countdownAfter_afterInstant {p c m d : Nat} (hc : 1 ≤ c) (hcp : c ≤ p) (hmc : m ≤ c) (hmd : m ≤ d) :
    countdownAfter p (afterInstant p c m) (d - m) = countdownAfter p c d := by
  by_cases hrun : m = c
  · subst hrun
    rw [afterInstant, if_pos (Nat.sub_self m), countdownAfter, countdownAfter, if_neg (Nat.not_lt.mpr hmd)]
    split
    next hlt => rw [Nat.mod_eq_of_lt hlt]
    next hge => rw [← Nat.mod_eq_sub_mod (Nat.le_of_not_lt hge)]
  · have hsub : d - m - (c - m) = d - c := by omega
    rw [afterInstant, if_neg (by omega), countdownAfter, countdownAfter, hsub]
    split <;> split <;> omega

/-- Settles O50: the formula is kept by every iteration, and at the end the duration is 0. -/
theorem advanceCountdownFormula : Obligations.AdvanceCountdownFormula := by
  intro d s t hready h hok
  have hp := periodsWf_of_advance_next h
  induction d, s, hp using advance_induct with
  | hzero s hp =>
    rw [advance_zero hp] at h
    cases h
    obtain ⟨⟨hI, -⟩, ⟨hD, -⟩, ⟨hS, -⟩⟩ := hready
    rw [countdownAfter_zero hI, countdownAfter_zero hD, countdownAfter_zero hS]
    exact ⟨rfl, rfl, rfl⟩
  | hstep d s hp hd ih =>
    rw [advance_iteration hd hp] at h
    obtain ⟨v, hv, hvok, hrest⟩ | ⟨-, hne⟩ := goOn_eq_next h
    · obtain ⟨⟨hI, hIp⟩, ⟨hD, hDp⟩, ⟨hS, hSp⟩⟩ := hready
      obtain ⟨hcI, hcD, hcS⟩ := countdowns_of_nextEvent hv hvok
      have hm := stepLength_le_rem d s
      have := ih v hv hvok (countdownsReady_ticks hp hIp hDp hSp hv hvok) hrest
      rwa [nextEvent_params hv hvok, hcI, hcD, hcS,
        countdownAfter_afterInstant hI hIp (stepLength_le_cI d s) hm,
        countdownAfter_afterInstant hD hDp (stepLength_le_cD d s) hm,
        countdownAfter_afterInstant hS hSp (stepLength_le_cS d s) hm] at this
    · exact absurd hok hne

/-! ## Splitting a duration (R259) -/

theorem goOn_goOn (k k' : State → StepOutcome) (o : StepOutcome) :
    goOn k (goOn k' o) = goOn (fun t => goOn k (k' t)) o := by
  cases o with
  | next t =>
    by_cases hok : t.result = .ok
    · rw [goOn_ok hok, goOn_ok hok]
    · rw [goOn_error hok, goOn_error hok, goOn_error hok]
  | fault f => rfl
  | refused r => rfl

/-- Time that ends before the next instant can be taken off first. -/
theorem advance_add_of_short {d1 d2 : Nat} {s : State} (hp : s.params.periodsWf = true)
    (h : d1 < s.cI ∧ d1 < s.cD ∧ d1 < s.cS) :
    advance (d1 + d2) s = advance d2 ((s.setCountdowns (s.cI - d1) (s.cD - d1) (s.cS - d1)).setResult .ok) := by
  have hshort := advance_of_short hp h
  obtain ⟨hI, hD, hS⟩ := h
  generalize hv : (s.setCountdowns (s.cI - d1) (s.cD - d1) (s.cS - d1)).setResult .ok = v at hshort ⊢
  have hpv : v.params.periodsWf = true := by rw [← hv]; exact hp
  by_cases hd : d2 = 0
  · have hres : v.setResult .ok = v := by rw [← hv, setResult_setResult]
    rw [hd, Nat.add_zero, hshort, advance_zero hpv, hres]
  · have hm : stepLength (d1 + d2) s = d1 + stepLength d2 v := by
      rw [← hv]
      simp only [stepLength, State.setResult_cI, State.setResult_cD, State.setResult_cS, State.setCountdowns_cI,
        State.setCountdowns_cD, State.setCountdowns_cS]
      omega
    have hevent : nextEvent (d1 + d2) s = nextEvent d2 v := by
      rw [nextEvent, nextEvent, hm]
      generalize stepLength d2 v = n
      rw [← hv, elapse_eq, elapse_eq]
      simp only [State.setResult_cI, State.setResult_cD, State.setResult_cS, State.setCountdowns_cI,
        State.setCountdowns_cD, State.setCountdowns_cS, ← Nat.sub_sub]
      rfl
    rw [advance_iteration (by omega) hp, advance_iteration hd hpv, hevent, hm, Nat.add_sub_add_left]

/-- `advance (d1 + d2)` is `advance d1` and then, if it returned `ok`, `advance d2`. -/
theorem advance_add (d1 d2 : Nat) (s : State) (hp : s.params.periodsWf = true) :
    advance (d1 + d2) s = goOn (advance d2) (advance d1 s) := by
  induction d1, s, hp using advance_induct with
  | hzero s hp => rw [Nat.zero_add, advance_zero hp, goOn_ok rfl, advance_setResult]
  | hstep d1 s hp hd ih =>
    by_cases hshort : d1 < s.cI ∧ d1 < s.cD ∧ d1 < s.cS
    · rw [advance_of_short hp hshort, goOn_ok rfl, advance_add_of_short hp hshort]
    · have hm : stepLength (d1 + d2) s = stepLength d1 s := by simp only [stepLength]; omega
      have hle := stepLength_le_rem d1 s
      have hevent : nextEvent (d1 + d2) s = nextEvent d1 s := by rw [nextEvent, nextEvent, hm]
      rw [advance_iteration (by omega) hp, advance_iteration hd hp, hevent, hm, goOn_goOn]
      refine goOn_congr fun t ht hok => ?_
      rw [show d1 + d2 - stepLength d1 s = d1 - stepLength d1 s + d2 by omega]
      exact ih t ht hok

/-- Settles O51: the first part of the split run returns `ok`, or it is the whole run. -/
theorem splitInvariance : Obligations.SplitInvariance := by
  intro d1 d2 s t h
  rw [advance_add d1 d2 s (periodsWf_of_advance_next h)] at h
  obtain ⟨u, hu, huok, hrest⟩ | ⟨hfirst, hne⟩ := goOn_eq_next h
  · exact ⟨fun _ => ⟨u, hu, huok, hrest⟩, fun _ _ => .inl ⟨u, hu, huok, hrest⟩⟩
  · exact ⟨fun hok => absurd hok hne, fun e herr => .inr ⟨hfirst, advance_repeats hfirst herr⟩⟩

/-! ## Finished programs (R237) -/

theorem fetch_of_finished {s : State} (h : s.finished = true) :
    ∃ w : Word16, fetch s = .ok w ∧ w.toNat = 0x1000 + s.pc.toNat ∧ s.pc.toNat ≤ 4095 := by
  unfold State.finished at h
  cases hfetch : fetch s with
  | ok w =>
    rw [hfetch] at h
    simp only [Bool.and_eq_true, beq_iff_eq, decide_eq_true_eq] at h
    exact ⟨w, rfl, h.1, h.2⟩
  | error f =>
    rw [hfetch] at h
    cases h

/-- The word is a jump to the pc itself. -/
theorem executeNext_of_finished {s : State} (h : s.finished = true) : executeNext s = .next (s.setResult .ok) := by
  obtain ⟨w, hfetch, hw, hpc⟩ := fetch_of_finished h
  have haddress : (BitVec.ofNat 12 s.pc.toNat).toNat = s.pc.toNat := by
    rw [BitVec.toNat_ofNat]
    omega
  have hdecode : decode w = .ok (.jp (BitVec.ofNat 12 s.pc.toNat)) :=
    decode_of_toNat (by rw [hw, encodeNat, haddress])
  have htarget : targetPc (BitVec.ofNat 12 s.pc.toNat) = s.pc :=
    BitVec.eq_of_toNat_eq ((targetPc_toNat _).trans haddress)
  rw [executeNext, hfetch, orFault_ok, execWord, hdecode]
  change jumpTo _ s = _
  rw [htarget]
  rfl

/-- `t` is `s` but for the result, the timers and the countdowns. -/
def Idles (s t : State) : Prop :=
  ∃ dt st i d c r, t = { s with dt := dt, st := st, cI := i, cD := d, cS := c, result := r }

theorem Idles.trans {s t u : State} (h : Idles s t) (h' : Idles t u) : Idles s u := by
  obtain ⟨dt, st, i, d, c, r, rfl⟩ := h
  obtain ⟨dt', st', i', d', c', r', rfl⟩ := h'
  exact ⟨dt', st', i', d', c', r', rfl⟩

theorem finished_of_idles {s t : State} (h : Idles s t) : t.finished = s.finished := by
  obtain ⟨dt, st, i, d, c, r, rfl⟩ := h
  rfl

theorem idles_ticks (s : State) : Idles s (ticks s) := by
  rw [ticks_eq]
  exact ⟨_, _, _, _, _, _, rfl⟩

theorem nextEvent_of_finished (d : Nat) {s : State} (h : s.finished = true) :
    ∃ t, nextEvent d s = .next t ∧ t.result = .ok ∧ Idles s t := by
  generalize hv : elapse (stepLength d s) (s.setResult .ok) = v
  have hidle : Idles s v := by
    rw [← hv]
    exact ⟨_, _, _, _, _, _, rfl⟩
  have hres : v.result = .ok := by rw [← hv, elapse_result, State.setResult_result]
  rw [nextEvent, hv]
  by_cases h0 : v.cI = 0
  · rw [instructionEvent_of_due h0, executeNext_of_finished (by rwa [finished_of_idles hidle]), goOn_ok rfl]
    exact ⟨_, rfl, rfl, hidle.trans ⟨_, _, _, _, _, _, rfl⟩⟩
  · exact ⟨v, instructionEvent_of_not_due h0, hres, hidle⟩

theorem advance_of_finished (d : Nat) (s : State) (hp : s.params.periodsWf = true) (h : s.finished = true) :
    ∃ t, advance d s = .next t ∧ t.result = .ok ∧ Idles s t := by
  induction d, s, hp using advance_induct with
  | hzero s hp => exact ⟨_, advance_zero hp, rfl, ⟨_, _, _, _, _, _, rfl⟩⟩
  | hstep d s hp hd ih =>
    obtain ⟨v, hv, hok, hidle⟩ := nextEvent_of_finished d h
    have hticks : Idles s (ticks v) := hidle.trans (idles_ticks v)
    obtain ⟨t, hrest, htok, ht⟩ := ih v hv hok (by rwa [finished_of_idles hticks])
    exact ⟨t, (advance_of_nextEvent hd hp hv hok).trans hrest, htok, hticks.trans ht⟩

/-- Settles O16: every instruction of the run is the jump to itself. -/
theorem finishedProgramsStandStill : Obligations.FinishedProgramsStandStill := by
  refine fun s h => ⟨executeNext_of_finished h, fun d hp => ?_⟩
  obtain ⟨t, ht, hok, hidle⟩ := advance_of_finished d s hp h
  have hfinished : t.finished = true := by rwa [finished_of_idles hidle]
  obtain ⟨dt, st, i, d', c, r, rfl⟩ := hidle
  exact ⟨_, ht, hok, rfl, hfinished, fun _ => rfl, rfl, ⟨rfl, rfl⟩, fun _ => rfl, rfl, ⟨rfl, rfl⟩, ⟨rfl, rfl⟩,
    ⟨rfl, rfl⟩, rfl⟩

/-! ## The keypad (R31, R32) -/

theorem SameKeys.trans {s t u : State} (h : SameKeys s t) (h' : SameKeys t u) : SameKeys s u :=
  ⟨h'.1.trans h.1, h'.2.trans h.2⟩

theorem sameKeys_delayTick (s : State) : SameKeys s (delayTick s) := by
  unfold delayTick
  split <;> exact ⟨rfl, rfl⟩

theorem sameKeys_soundTick (s : State) : SameKeys s (soundTick s) := by
  unfold soundTick
  split <;> exact ⟨rfl, rfl⟩

theorem sameKeys_of_advance {d : Nat} {s t : State} (h : advance d s = .next t) : SameKeys s t := by
  rw [advance_eq d s (periodsWf_of_advance_next h)] at h
  refine advanceLoop_induct (SameKeys s) (fun _ _ hu => hu) ?_ ?_ ?_ _ _ (s.setResult .ok) _ ⟨rfl, rfl⟩ h
  · intro u v hu _ hv
    have huv : SameKeys s v := SameKeys.trans hu (executeNext_writtenBy hv).1
    exact ⟨huv, fun _ => huv⟩
  · exact fun u hu => SameKeys.trans hu (sameKeys_delayTick u)
  · exact fun u hu => SameKeys.trans hu (sameKeys_soundTick u)

/-- Settles O55: a step that is no key move is a transaction, and neither transaction writes the keypad. -/
theorem onlyTheHostWritesTheKeypad : Obligations.OnlyTheHostWritesTheKeypad := by
  intro s t h
  cases hmoves : s.hostMoves with
  | nil =>
    rw [step_engine s hmoves] at h
    obtain ⟨hkeys, ⟨-, -, -, hparams⟩, -⟩ := executeNext_writtenBy h
    exact ⟨hparams, fun _ => hkeys⟩
  | cons m rest =>
    rw [step_host s m rest hmoves] at h
    cases m with
    | keyDown k =>
      cases h
      exact ⟨rfl, fun hno => absurd rfl (hno k rest).1⟩
    | keyUp k =>
      cases h
      exact ⟨rfl, fun hno => absurd rfl (hno k rest).2⟩
    | executeNext =>
      obtain ⟨hkeys, ⟨-, -, -, hparams⟩, -⟩ := executeNext_writtenBy h
      exact ⟨hparams, fun _ => hkeys⟩
    | advance d =>
      rw [perform] at h
      exact ⟨params_of_advance (s := s.setHostMoves rest) h, fun _ => sameKeys_of_advance (s := s.setHostMoves rest) h⟩

end Sys2Proof
end

section
/-! PROOF. Construction and the invariant (R37, R38, R350). The invariant speaks of memory, frame buffer, parameters,
countdowns, pc and call stack. An instruction writes the first two in bounds, and the pc it sets is the fetched pc plus at
most 4, an address, an offset address or a return address. -/

namespace Sys2Proof

open Sys2Proof.Machine Sys2Proof.Frame

/-! ## Construction -/

theorem entry_toNat (entry : Address) : (entry.setWidth 16 : Word16).toNat = entry.toNat := targetPc_toNat entry

/-- Settles O57: each field is read off the record that construction writes. -/
theorem constructionLeavesResetValues : Obligations.ConstructionLeavesResetValues := by
  intro p entry mem0 s
  refine ⟨entry_toNat entry, rfl, fun r => ?registers, rfl, rfl, fun j => ?stack, rfl, rfl, isOn_nil, fun k => ?keys, rfl,
    rfl, rfl, rfl⟩
  case registers => exact Vector.getElem_replicate r.isLt
  case stack => exact Vector.getElem_replicate j.isLt
  case keys => exact Vector.getElem_replicate k.isLt

theorem empty_wf (w h : Nat) : FrameBuffer.wf w h [] = true := rfl

theorem construct_inv {p : Params} {mem0 : Memory} (entry : Address) (hp : p.wf = true) (hmem : Memory.wf mem0 = true) :
    (State.construct p entry mem0).Inv where
  memory := hmem
  screen := empty_wf _ _
  parameters := hp
  instrCountdown := le_refl _
  delayCountdown := le_refl _
  soundCountdown := le_refl _
  pcBound := by
    have hentry : (State.construct p entry mem0).pc.toNat = entry.toNat := entry_toNat entry
    omega
  stackBound := fun _ hj => absurd hj (Nat.not_lt_zero _)

/-- Settles O59: `State.reset` is such a construction. -/
theorem constructionMeetsInvariant : Obligations.ConstructionMeetsInvariant :=
  ⟨fun _ entry _ => construct_inv entry, construct_inv defaultEntry (by decide) rfl⟩

/-! ## Updates of what the invariant does not speak of -/

/-- The invariant reads eight pieces of the state, the countdowns by their bounds. -/
theorem inv_of_same {s t : State} (hs : s.Inv) (hmem : t.mem = s.mem) (hfb : t.fb = s.fb) (hparams : t.params = s.params)
    (hI : t.cI ≤ s.params.periodI) (hD : t.cD ≤ s.params.periodD) (hS : t.cS ≤ s.params.periodS) (hpc : t.pc = s.pc)
    (hstack : SameStack s t) : t.Inv where
  memory := by rw [hmem]; exact hs.memory
  screen := by rw [hfb, hparams]; exact hs.screen
  parameters := by rw [hparams]; exact hs.parameters
  instrCountdown := by rw [hparams]; exact hI
  delayCountdown := by rw [hparams]; exact hD
  soundCountdown := by rw [hparams]; exact hS
  pcBound := by rw [hpc]; exact hs.pcBound
  stackBound := by rw [hstack.1, hstack.2]; exact hs.stackBound

section Updates

variable {s : State} (hs : s.Inv)

include hs

theorem setResult_inv (r : TxResult) : (s.setResult r).Inv :=
  inv_of_same hs rfl rfl rfl hs.instrCountdown hs.delayCountdown hs.soundCountdown rfl ⟨rfl, rfl⟩

theorem setHostMoves_inv (ms : List HostMove) : (s.setHostMoves ms).Inv :=
  inv_of_same hs rfl rfl rfl hs.instrCountdown hs.delayCountdown hs.soundCountdown rfl ⟨rfl, rfl⟩

theorem setKeyDown_inv (k : KeyIndex) : (setKeyDown k s).Inv :=
  inv_of_same hs rfl rfl rfl hs.instrCountdown hs.delayCountdown hs.soundCountdown rfl ⟨rfl, rfl⟩

theorem setKeyUp_inv (k : KeyIndex) : (setKeyUp k s).Inv :=
  inv_of_same hs rfl rfl rfl hs.instrCountdown hs.delayCountdown hs.soundCountdown rfl ⟨rfl, rfl⟩

theorem elapse_inv (m : Nat) : (elapse m s).Inv :=
  inv_of_same hs rfl rfl rfl ((Nat.sub_le _ _).trans hs.instrCountdown) ((Nat.sub_le _ _).trans hs.delayCountdown)
    ((Nat.sub_le _ _).trans hs.soundCountdown) rfl ⟨rfl, rfl⟩

theorem restartInstr_inv : (restartInstr s).Inv :=
  inv_of_same hs rfl rfl rfl (le_refl _) hs.delayCountdown hs.soundCountdown rfl ⟨rfl, rfl⟩

theorem delayTick_inv : (delayTick s).Inv := by
  unfold delayTick
  split
  · exact inv_of_same hs rfl rfl rfl hs.instrCountdown (le_refl _) hs.soundCountdown rfl ⟨rfl, rfl⟩
  · exact hs

theorem soundTick_inv : (soundTick s).Inv := by
  unfold soundTick
  split
  · exact inv_of_same hs rfl rfl rfl hs.instrCountdown hs.delayCountdown (le_refl _) rfl ⟨rfl, rfl⟩
  · exact hs

/-! ## Instructions -/

theorem effect_mem_wf {i : Instr} (hf : ¬ Faults i s) : Memory.wf (effect i s).mem = true := by
  cases i
  case ldB x =>
    have hin : indexAddr s 0 + (bcdDigits (s.V x)).length ≤ Config.memSize := by
      simp only [Faults, indexAddr, bcdDigits, List.length_cons, List.length_nil, Config.memSize] at hf ⊢
      omega
    exact Memory.writeList_wf _ _ _ hin hs.memory
  case storeRegs x =>
    have hin : indexAddr s 0 + (regsThrough x s).length ≤ Config.memSize := by
      simp only [Faults, indexAddr, regsThrough_length, Config.memSize] at hf ⊢
      omega
    exact Memory.writeList_wf _ _ _ hin hs.memory
  all_goals
    rw [(effect_writtenBy _ s).memory rfl]
    exact hs.memory

theorem effect_fb_wf (i : Instr) : FrameBuffer.wf s.params.screenW s.params.screenH (effect i s).fb = true := by
  cases i
  case cls => exact empty_wf _ _
  case drw x y n => exact Cap.drawRows_wf _ _ _ _ _ _ hs.screen
  all_goals
    rw [(effect_writtenBy _ s).screen (by nofun) (by nofun)]
    exact hs.screen

theorem stack_le_of_same {t : State} (h : SameStack s t) :
    ∀ j : Fin 16, j.val < t.sp.val → t.stack[j.val].toNat ≤ 4096 := by
  rw [h.1, h.2]
  exact hs.stackBound

/-- A call made from a fetched pc pushes at most 4096, and a return leaves fewer entries in use. -/
theorem effect_stack_le (i : Instr) (hpc : s.pc.toNat ≤ 4094) :
    ∀ j : Fin 16, j.val < (effect i s).sp.val → (effect i s).stack[j.val].toNat ≤ 4096 := by
  cases i
  case call nnn =>
    by_cases hroom : s.sp.val < 16
    · rw [effect, pushReturn_room _ s hroom]
      intro j hj
      have hlt : j.val < s.sp.val + 1 := hj
      simp only [Option.getD_some, State.setStack_stack, Vector.getElem_set]
      split
      · rw [returnPc, BitVec.toNat_add]
        simp only [BitVec.toNat_ofNat]
        omega
      · exact hs.stackBound j (by omega)
    · rw [effect, pushReturn_full _ s (by omega)]
      exact hs.stackBound
  case ret =>
    by_cases hempty : s.sp.val = 0
    · rw [effect, popReturn_empty s hempty]
      exact hs.stackBound
    · rw [effect, popReturn_some s hempty]
      intro j hj
      have hlt : j.val < s.sp.val - 1 := hj
      exact hs.stackBound j (by omega)
  all_goals exact stack_le_of_same hs ((effect_writtenBy _ s).stack (by nofun) (by nofun))

theorem pcAfter_le (i : Instr) (hpc : s.pc.toNat ≤ 4094) : (pcAfter i s).toNat ≤ 4350 := by
  have hnext : (s.pc + 2#16).toNat ≤ 4350 := by rw [BitVec.toNat_add, BitVec.toNat_ofNat]; omega
  have hskip : (s.pc + 4#16).toNat ≤ 4350 := by rw [BitVec.toNat_add, BitVec.toNat_ofNat]; omega
  have htarget : ∀ nnn : Address, (targetPc nnn).toNat ≤ 4350 := fun nnn => by rw [targetPc_toNat]; omega
  cases i
  case jp nnn => exact htarget nnn
  case jpV0 nnn =>
    refine (offsetTargetPc_toNat nnn s).trans_le ?_
    omega
  case call nnn =>
    rw [pcAfter]
    split
    · exact hs.pcBound
    · exact htarget nnn
  case ret =>
    rw [pcAfter]
    split
    · exact hs.pcBound
    next hsome => exact (hs.stackBound ⟨s.sp.val - 1, by omega⟩ (Nat.sub_one_lt hsome)).trans (by decide)
  case seImm | sneImm | seReg | sneReg =>
    rw [pcAfter]
    split
    · exact hskip
    · exact hnext
  case skp x =>
    rw [pcAfter]
    split_ifs
    · exact hskip
    · exact hnext
    · exact hs.pcBound
  case sknp x =>
    rw [pcAfter]
    split_ifs
    · exact hnext
    · exact hskip
    · exact hs.pcBound
  case ldVxK x =>
    rw [pcAfter]
    split
    · exact hnext
    · exact hs.pcBound
  all_goals exact hnext

theorem exec_inv {i : Instr} {t : State} (hpc : s.pc.toNat ≤ 4094) (h : exec i s = .next t) : t.Inv := by
  obtain ⟨hI, hD, hS, hparams⟩ := (exec_writtenBy h).sched
  obtain ⟨e, -, rfl⟩ | ⟨hf, -, rfl⟩ := exec_next h
  · exact setResult_inv hs _
  · exact {
      memory := effect_mem_wf hs hf
      screen := by rw [hparams]; exact effect_fb_wf hs i
      parameters := by rw [hparams]; exact hs.parameters
      instrCountdown := by rw [hI, hparams]; exact hs.instrCountdown
      delayCountdown := by rw [hD, hparams]; exact hs.delayCountdown
      soundCountdown := by rw [hS, hparams]; exact hs.soundCountdown
      pcBound := pcAfter_le hs i hpc
      stackBound := effect_stack_le hs i hpc }

/-! ## Transactions -/

/-- An instruction runs only when it was fetched, so from a pc of at most 4094. -/
theorem executeNext_inv {t : State} (h : executeNext s = .next t) : t.Inv := by
  obtain ⟨e, rfl⟩ | ⟨w, i, hfetch, -, hexec⟩ := executeNext_next h
  · exact setResult_inv hs _
  · exact exec_inv hs (pc_of_fetch hfetch) hexec

theorem advance_inv {d : Nat} {t : State} (h : advance d s = .next t) : t.Inv := by
  rw [advance_eq d s (periodsWf_of_advance_next h)] at h
  refine advanceLoop_induct State.Inv (fun m _ hu => elapse_inv hu m) ?_ (fun _ hu => delayTick_inv hu)
    (fun _ hu => soundTick_inv hu) _ _ (s.setResult .ok) t (setResult_inv hs _) h
  intro u v hu _ hv
  have hinv := executeNext_inv hu hv
  exact ⟨hinv, fun _ => restartInstr_inv hinv⟩

end Updates

/-- Settles O60: whichever move the step is, it starts from the state with that move taken off the list. -/
theorem stepKeepsInvariant : Obligations.StepKeepsInvariant := by
  intro s t hs h
  cases hmoves : s.hostMoves with
  | nil =>
    rw [step_engine s hmoves] at h
    exact executeNext_inv hs h
  | cons m rest =>
    rw [step_host s m rest hmoves] at h
    have hrest := setHostMoves_inv hs rest
    cases m with
    | keyDown k =>
      cases h
      exact setKeyDown_inv hrest k
    | keyUp k =>
      cases h
      exact setKeyUp_inv hrest k
    | executeNext => exact executeNext_inv hrest h
    | advance d => exact advance_inv hrest h

end Sys2Proof
end
